-- ==== Sys2Proof/Word.lean ====
section
/-! DEFINITION. The word and byte of the CPRS engine (R6, R10 of 00_scope.md): every container word,
table cell and engine register named `Word32` is 32 bits, every output byte 8 bits. -/

namespace Sys2Proof

/-- A `Word32` (R10): an unsigned 32-bit integer; `+` on it is the spec's `+32`. -/
abbrev Word := BitVec 32

/-- A `Byte` (R10): 0 to 255. -/
abbrev Byte := BitVec 8

end Sys2Proof
end

