-- ==== Sys2Proof/Config.lean ====
section
/-! DEFINITION. What the spec leaves as parameters (R7, R8 of 00_scope.md, D15, D20 of
92_eei_decisions.md), the constants it fixes (R6), the free values (U3, U4 of
93_implementation_defined.md), and the test table of 95_test_vectors.md section 1. -/

namespace Sys2Proof

/-- The Code Table: 48 rows of four words, stored row-major, 192 words (R40). -/
abbrev CodeTable := Vector Word 192

/-- The parameters of the step function that R20 lists as "NOT state": `P_SIGNATURE` (R7),
`P_CODE_TABLE` (R8), `IN_CAP` and `OUT_CAP` (D15). No step changes them. -/
structure Params where
  signature : Word
  table : CodeTable
  inCap : Nat
  outCap : Nat
  deriving DecidableEq, Repr

/-- `TERMINAL`: the least symbol value that means `END` (R6, R146). -/
def Config.terminal : Word := 0x10002#32

/-- `P_SIGNATURE` (R7): the spec gives no number for it (N2). -/
opaque Config.pSignature : Word

/-- `P_CODE_TABLE` (R8): the spec gives none of its 192 values (N1). -/
opaque Config.pCodeTable : CodeTable

/-- How many words `IN_CAP` has beyond the six of the shortest container (D15 of section 1). -/
opaque Config.inCapExtraWords : Nat

/-- `IN_CAP`: "natural number, multiple of 4, at least 24" (D15 of section 1). -/
def Config.inCap : Nat := 24 + 4 * Config.inCapExtraWords

/-- `OUT_CAP`: a natural number (D15 of section 1). -/
opaque Config.outCap : Nat

/-- The parameters of the device the spec describes: every one of them is open. -/
def Config.params : Params where
  signature := Config.pSignature
  table := Config.pCodeTable
  inCap := Config.inCap
  outCap := Config.outCap

/-- FREE VALUE (log 6): what a host read returns where the spec says `any value` (U3, U4); the
argument is a counter of State, so that each such read has a value of its own. -/
opaque Config.unspecifiedRead : Nat → Word

/-- `SIG_TEST` of 95_test_vectors.md section 1: the spec's own, not the device's (D24). -/
def Config.testSignature : Word := 0xA5A5A5A5#32

/-- The poison `X` that `TEST_TABLE` holds in every cell no rule reads (D24). -/
def Config.poison : Word := 0xFFFFFFFF#32

/-- One row of `TEST_TABLE` with its unread column 3 poisoned. -/
def Config.testRow (c0 c1 c2 : Word) : List Word := [c0, c1, c2, Config.poison]

/-- Rows 0 to 3 of `TEST_TABLE`: `A`, (unread), base count. -/
def Config.testPrimary : List Word :=
  Config.testRow 0 Config.poison 1 ++ Config.testRow 1 Config.poison 2
    ++ Config.testRow 2 Config.poison 4 ++ Config.testRow 4 Config.poison 8

/-- Rows 4 to 11 of `TEST_TABLE` (`s` = 0 to 7): `B`, length adjustment, base `sym`. -/
def Config.testSecondaryLow : List Word :=
  Config.testRow 0 0 0 ++ Config.testRow 0 0 1 ++ Config.testRow 1 0 2 ++ Config.testRow 2 5 4
    ++ Config.testRow 3 5 8 ++ Config.testRow 4 13 16 ++ Config.testRow 5 13 32
    ++ Config.testRow 6 21 64

/-- Rows 12 to 19 of `TEST_TABLE` (`s` = 8 to 15). -/
def Config.testSecondaryHigh : List Word :=
  Config.testRow 7 21 128 ++ Config.testRow 8 29 256 ++ Config.testRow 10 29 512
    ++ Config.testRow 12 37 1536 ++ Config.testRow 14 37 5632 ++ Config.testRow 16 45 22016
    ++ Config.testRow 1 0 0 ++ Config.testRow 0 0 0x10002

/-- `TEST_TABLE` of 95_test_vectors.md section 1: the spec's own, for tests only, NOT the table of
the real device. `State.reset` does not use it. -/
def Config.testTable : CodeTable :=
  ⟨⟨Config.testPrimary ++ Config.testSecondaryLow ++ Config.testSecondaryHigh
      ++ List.replicate 112 Config.poison⟩, by
    simp only [List.size_toArray, List.length_append, List.length_replicate]; rfl⟩

end Sys2Proof
end

