-- ==== Sys2Proof/Syntax.lean ====
section
/-! DEFINITION. The four symbols of the stream, which are this hardware's instruction set (R2, R95):
one constructor per row of spec/opcode_table.json. -/

namespace Sys2Proof

/-- A symbol. The operands of a coded symbol are its four fields (R93): primary row `p`, extra
length bits `xa`, secondary row `s` (table row `4 + s`), extra symbol bits `xb`. The widths of `xa`
and `xb` depend on the Code Table; `Instr.illFormed?` checks them. -/
inductive Instr where
  /-- `LIT byte` (R92, R142). -/
  | lit (byte : Byte)
  /-- `RUN p xa s xb` with `sym = 0` (R93, R148). -/
  | run (p : BitVec 2) (xa : Word) (s : BitVec 4) (xb : Word)
  /-- `COPY p xa s xb` with `1 <= sym <= 0x10001` (R93, R149). -/
  | copy (p : BitVec 2) (xa : Word) (s : BitVec 4) (xb : Word)
  /-- `END p xa s xb` with `sym >=u 0x10002` (R93, R150). -/
  | endSym (p : BitVec 2) (xa : Word) (s : BitVec 4) (xb : Word)
  deriving DecidableEq, Repr

end Sys2Proof
end

