-- ==== Sys2Proof/Machine/Operands.lean ====
section
/-! DEFINITION. The field extractor and every operand of a symbol (R94, R122, R143 to R147, R151):
all arithmetic is unsigned, modulo 2^32 (D4). -/

namespace Sys2Proof

/-- `mask(n) = 2^n - 1` of R10, kept to 32 bits. -/
def mask (n : Nat) : Word := if 32 ≤ n then BitVec.allOnes 32 else BitVec.ofNat 32 (2 ^ n - 1)

/-- `Field(lo, w) = (W >> lo) & mask(w)` of R122, on a window value `W`. -/
def field (w : Word) (lo width : Nat) : Word := (w >>> lo) &&& mask width

/-- `TAB[r][c]`: word `4*r + c` of the table (R40). -/
def tab (t : CodeTable) (r : Fin 48) (c : Fin 4) : Word := t.get ⟨4 * r.val + c.val, by omega⟩

/-- The primary row index is the two-bit field `p` itself (R143). -/
def primaryRow (p : BitVec 2) : Fin 48 := ⟨p.toNat, by have := p.isLt; omega⟩

/-- The secondary block starts at row 4 (R145). -/
def secondaryRow (s : BitVec 4) : Fin 48 := ⟨4 + s.toNat, by have := s.isLt; omega⟩

/-- `A = codeLenA = TAB[p][0]` (R143). -/
def codeLenA (t : CodeTable) (p : BitVec 2) : Nat := (tab t (primaryRow p) 0).toNat

/-- `B = codeLenB = TAB[4+s][0]` (R145). -/
def codeLenB (t : CodeTable) (s : BitVec 4) : Nat := (tab t (secondaryRow s) 0).toNat

/-- The length of a coded symbol, `7 + A + B` bits (R93, R97). -/
def codedLength (t : CodeTable) (p : BitVec 2) (s : BitVec 4) : Nat :=
  7 + codeLenA t p + codeLenB t s

/-- `sym = TAB[4+s][2] +32 xb` (R146). -/
def symValue (t : CodeTable) (s : BitVec 4) (xb : Word) : Word := tab t (secondaryRow s) 2 + xb

/-- `count = TAB[p][2] +32 xa +32 ((TAB[4+s][1] +32 11) >> 3)` (R147). -/
def repeatCount (t : CodeTable) (p : BitVec 2) (xa : Word) (s : BitVec 4) : Word :=
  tab t (primaryRow p) 2 + xa + ((tab t (secondaryRow s) 1 + 11) >>> 3)

/-- `WF_TABLE(TAB)` (R41): every coded symbol fits in the 32-bit window. -/
def wfTable (t : CodeTable) : Bool :=
  (List.range 4).all fun p => (List.range 16).all fun s =>
    decide (codedLength t (BitVec.ofNat 2 p) (BitVec.ofNat 4 s) ≤ 32)

/-- The encoded length of a symbol in bits (R97): 9 for `LIT`, `7 + A + B` for a coded symbol. -/
def symbolLength (t : CodeTable) : Instr → Nat
  | .lit _ => 9
  | .run p _ s _ => codedLength t p s
  | .copy p _ s _ => codedLength t p s
  | .endSym p _ s _ => codedLength t p s

end Sys2Proof
end

