-- ==== Sys2Proof/WellFormed.lean ====
section
/-! DEFINITION. Which instruction terms stand for a symbol under a Code Table: the extra fields fit
their widths (R93), the class is the one the symbol value selects (R95), the symbol fits in the
window (R41, R97). -/

namespace Sys2Proof

/-- Why a term is no symbol of a table. -/
inductive IllFormed where
  /-- `7 + A + B > 32`: the symbol is longer than the window (R41, U1). -/
  | longerThanWindow
  /-- `xa` does not fit in its `A` bits (R93). -/
  | xaTooWide
  /-- `xb` does not fit in its `B` bits (R93). -/
  | xbTooWide
  /-- The symbol value `sym` selects another class (R95). -/
  | classMismatch
  deriving DecidableEq, Repr

/-- The checks of a coded symbol; `inClass` says whether a symbol value is of the term's class. -/
def codedIllFormed? (t : CodeTable) (p : BitVec 2) (xa : Word) (s : BitVec 4) (xb : Word)
    (inClass : Word → Bool) : Option IllFormed :=
  if 32 < codedLength t p s then some .longerThanWindow
  else if 2 ^ codeLenA t p ≤ xa.toNat then some .xaTooWide
  else if 2 ^ codeLenB t s ≤ xb.toNat then some .xbTooWide
  else if inClass (symValue t s xb) then none
  else some .classMismatch

/-- The first check an instruction fails under the table, if any; every byte is a legal `LIT` (R142). -/
def Instr.illFormed? (t : CodeTable) : Instr → Option IllFormed
  | .lit _ => none
  | .run p xa s xb => codedIllFormed? t p xa s xb fun v => v == 0
  | .copy p xa s xb => codedIllFormed? t p xa s xb fun v => v != 0 && v.ult Config.terminal
  | .endSym p xa s xb => codedIllFormed? t p xa s xb fun v => Config.terminal.ule v

/-- The instruction is a symbol of the table. -/
abbrev Instr.WellFormed (t : CodeTable) (i : Instr) : Prop := i.illFormed? t = none

end Sys2Proof
end

