-- ==== Sys2Proof/Decode.lean ====
section
/-! DEFINITION. Decoding one window value into a symbol (R140 to R147, R95) and encoding a symbol
into its number (R92, R93). Under `WF_TABLE` every window decodes (R98, R152). -/

namespace Sys2Proof

/-- Why a window is not decoded. -/
inductive DecodeReject where
  /-- `7 + A + B > 32`: the fields would reach past bit 31 (R41, R122, U1). Only a table that fails
  `WF_TABLE` has such a symbol. Safe. -/
  | symbolLongerThanWindow
  deriving DecidableEq, Repr

/-- Stage 2 of R95: the class of a coded symbol is chosen by its value. -/
def classify (t : CodeTable) (p : BitVec 2) (xa : Word) (s : BitVec 4) (xb : Word) : Instr :=
  if Config.terminal.ule (symValue t s xb) then .endSym p xa s xb
  else if symValue t s xb = 0 then .run p xa s xb
  else .copy p xa s xb

/-- The decode of R141: every field is taken from the one window value `w`. -/
def decode (t : CodeTable) (w : Word) : Except DecodeReject Instr :=
  if w.getLsbD 0 = false then .ok (.lit (w.extractLsb' 1 8))
  else
    let p := w.extractLsb' 1 2
    let rest := (w >>> 3) >>> codeLenA t p
    let s := rest.extractLsb' 0 4
    if 32 < codedLength t p s then .error .symbolLongerThanWindow
    else .ok (classify t p (field w 3 (codeLenA t p)) s ((rest >>> 4) &&& mask (codeLenB t s)))

/-- The number of a coded symbol, `1 | p << 1 | xa << 3 | s << (3 + A) | xb << (7 + A)` (R93). -/
def encodeCoded (t : CodeTable) (p : BitVec 2) (xa : Word) (s : BitVec 4) (xb : Word) : Word :=
  1#32 ||| (p.setWidth 32 <<< 1) ||| (xa <<< 3) ||| (s.setWidth 32 <<< (3 + codeLenA t p))
    ||| (xb <<< (7 + codeLenA t p))

/-- The number of a symbol, in its low `symbolLength` bits (R92, R93). -/
def encode (t : CodeTable) : Instr → Word
  | .lit b => b.setWidth 32 <<< 1
  | .run p xa s xb => encodeCoded t p xa s xb
  | .copy p xa s xb => encodeCoded t p xa s xb
  | .endSym p xa s xb => encodeCoded t p xa s xb

/-- The window a table word stands for: its low `nbits` bits, every later stream bit 0. -/
def tableWindow (nbits w : Nat) : Word := BitVec.ofNat 32 (w % 2 ^ nbits)

/-- The host's question about a word of spec/opcode_table.json: the window is decoded under
`TEST_TABLE`, the only table the spec gives values for (log 8). -/
def decodeTableWord (nbits w : Nat) : Option Instr :=
  match decode Config.testTable (tableWindow nbits w) with
  | .ok i => some i
  | .error _ => none

end Sys2Proof
end

