-- ==== Sys2Proof/Machine/Memory.lean ====
section
/-! DEFINITION. A byte memory as plain data: a list of (address, byte) cells in one canonical form
(addresses strictly rising, no cell equal to what an unlisted address reads as), with the reads and
writes the spec's primitives need (R11 of 00_scope.md, R61, R62 of 20_memory.md). -/

namespace Sys2Proof.Machine

/-- The contents of IMEM or OMEM. -/
abbrev Memory := List Host.Cell

/-- What an unlisted address reads as: a byte nothing has written. DESIGN CHOICE (log 3), unsafe: the
spec leaves both memories unspecified after reset (R47, U8). -/
def Memory.unlisted : Byte := 0

/-- Every address of the list is above `lo`, addresses strictly rise, no cell is redundant. -/
def Memory.wfAbove (lo : Nat) : Memory → Bool
  | [] => true
  | (a, b) :: rest => decide (lo ≤ a) && b != Memory.unlisted && Memory.wfAbove (a + 1) rest

/-- The canonical form: equal memories are equal lists. -/
def Memory.wf (m : Memory) : Bool := Memory.wfAbove 0 m

/-- The byte at address `a`. -/
def Memory.read (m : Memory) (a : Nat) : Byte :=
  match m with
  | [] => Memory.unlisted
  | (k, v) :: rest => if k = a then v else Memory.read rest a

/-- Adds a cell in front unless it would be redundant. -/
def Memory.consCell (a : Nat) (b : Byte) (rest : Memory) : Memory :=
  if b = Memory.unlisted then rest else (a, b) :: rest

/-- Stores byte `b` at address `a`; keeps the canonical form. -/
def Memory.write (m : Memory) (a : Nat) (b : Byte) : Memory :=
  match m with
  | [] => Memory.consCell a b []
  | (k, v) :: rest =>
    if a < k then Memory.consCell a b ((k, v) :: rest)
    else if a = k then Memory.consCell a b rest
    else (k, v) :: Memory.write rest a b

/-- The little-endian word at byte address `a` (R61). -/
def Memory.readWord (m : Memory) (a : Nat) : Word :=
  m.read (a + 3) ++ m.read (a + 2) ++ m.read (a + 1) ++ m.read a

/-- Byte `k` of a word, `v[8k+7:8k]` (R11); lane `k` of `ACC` (R27). -/
def byteOf (v : Word) (k : Nat) : Byte := v.extractLsb' (8 * k) 8

/-- Stores byte `k` of `v` at `a + k` if its enable bit is 1 (R11). -/
def Memory.writeEnabled (m : Memory) (a : Nat) (v : Word) (be : BitVec 4) (k : Nat) : Memory :=
  if be.getLsbD k then m.write (a + k) (byteOf v k) else m

/-- `MemWrite(_, a, 4, v, be)` of R11: the enabled bytes of `v`, lane `k` at address `a + k` (R62). -/
def Memory.writeMasked (m : Memory) (a : Nat) (v : Word) (be : BitVec 4) : Memory :=
  (((m.writeEnabled a v be 0).writeEnabled a v be 1).writeEnabled a v be 2).writeEnabled a v be 3

/-- Stores the little-endian word `v` at byte address `a`. -/
def Memory.writeWord (m : Memory) (a : Nat) (v : Word) : Memory := m.writeMasked a v 0b1111#4

/-- Zero-fills addresses `0 .. n - 1` and leaves the others alone (R194, D26): since an unlisted
address reads as 0, the cells below `n` go. -/
def Memory.zeroFill (m : Memory) (n : Nat) : Memory := m.filter fun c => decide (n ≤ c.1)

end Sys2Proof.Machine
end

