-- ==== Sys2Proof/Machine/State.lean ====
section
/-! DEFINITION. The state of the machine (R20 to R45 of 10_state.md), the reasons a step can stop, and
the state after reset (R47, R250). Plain data. -/

namespace Sys2Proof.Machine

/-- The controller's states (R31). The values 9 to 15 of the 4-bit register never occur (U10), so
they are no constructors (log 17). -/
inductive Phase where
  | idle | validate | prepare | readSymbol | emitLiteral | emitRun | emitCopy | terminate | error
  deriving DecidableEq, Repr

/-- The details of `FormatError` (R221). -/
inductive FormatDetail where
  | lenMisaligned | tooFewWords | badHeadSignature | badTailSignature
  deriving DecidableEq, Repr

/-- The details of `CorruptStream` (R222 to R224). -/
inductive CorruptDetail where
  | payloadOverrun | outputOverrun | backrefBeforeStart | runWithoutPrevious
  deriving DecidableEq, Repr

/-- The two exceptions of the core (R220). -/
inductive Exc where
  | formatError (d : FormatDetail)
  | corruptStream (d : CorruptDetail)
  deriving DecidableEq, Repr

/-- Which memory a host access names (R43, R44). -/
inductive Space where
  | imem | omem
  deriving DecidableEq, Repr

/-- One move of the host (R203, R250), the model's own rendering (log 4). -/
inductive HostMove where
  /-- The host makes no access; the engine takes one step. -/
  | wait
  /-- A write of a host register by number (R32, R33, R35). -/
  | writeReg (no : Nat) (v : Word)
  /-- A read of a host register by number (R32 to R38). -/
  | readReg (no : Nat)
  /-- A write of one byte of a memory. -/
  | writeByte (sp : Space) (a : Nat) (b : Byte)
  /-- A write of word `i` of a memory, at byte address `4*i` (R43, R61). -/
  | writeWord (sp : Space) (i : Nat) (v : Word)
  /-- A read of one byte of a memory. -/
  | readByte (sp : Space) (a : Nat)
  /-- A read of word `i` of a memory, at byte address `4*i` (R62). -/
  | readWord (sp : Space) (i : Nat)
  /-- Hardware reset (R250). -/
  | reset
  deriving DecidableEq, Repr

/-- Why the machine stops with a fault. The spec's exceptions are NOT here: they are taken (R226). -/
inductive Fault where
  /-- An access to IMEM at or above `IN_CAP` (R43, D15), by `inWord` or a host move. Safe: the
  address does not exist. The engine never makes one from a state with `Safety.EngineInv`. -/
  | imemAddress (a : Nat)
  /-- An access to OMEM at or above `OUT_CAP` (R44, D15), by the Output Assembler, `PREPARE` or a host
  move. Safe: the address does not exist. -/
  | omemAddress (a : Nat)
  /-- A host access to a register number the six registers of R32 do not have. Safe (log 15). -/
  | noSuchRegister (no : Nat)
  deriving DecidableEq, Repr

/-- Why the model has no meaning for a step. -/
inductive Refusal where
  /-- An instruction with no meaning yet, raised by `exec`'s arm. Safe. No arm uses it. -/
  | notModelled (mnemonic : String)
  /-- The Code Table fails `WF_TABLE` (R41, U1), raised by every step of a busy engine. Safe. -/
  | tableNotWellFormed
  /-- A symbol longer than the window (R41, U1), raised by `READ_SYMBOL`. Safe. -/
  | symbolLongerThanWindow
  /-- `Consume(n)` with `n = 0` or `n > 32` (R123, U14), raised by `consume`. Safe. -/
  | consumeOutOfRange
  /-- `IN_LEN > IN_CAP` (R66, U2), raised by `VALIDATE`. Safe. -/
  | containerExceedsInCap
  /-- Container word 2 above `OUT_CAP` (R66, U2), raised by `VALIDATE`. Safe. -/
  | outputExceedsOutCap
  /-- A host access to IMEM or OMEM while `BUSY = 1` (R203, U9), raised by the host's move. Safe. -/
  | hostMemoryAccessWhileBusy
  deriving DecidableEq, Repr

/-- The whole machine: what R20 lists, the parameters of the step function (`par`, log 1), and the
model's own `hostMoves` (log 4), `hostData` (log 5), `freeIdx` (log 6), `errStores` (log 23). -/
structure State where
  /-- `CUR`, the window: the next 32 bits of the stream (R21). -/
  cur : Word
  /-- `LA`, the stream word fetched last (R22). -/
  la : Word
  /-- `CNT`, how many low bits of `CUR` come from the word before `LA` (R23). -/
  cnt : BitVec 6
  /-- `RDCUR`, the container word index of the next unread payload word (R24). -/
  rdcur : Word
  /-- `WRIDX`, the bytes emitted so far (R26). -/
  wridx : Word
  /-- `ACC`, the lane accumulator (R27). -/
  acc : Word
  /-- `LASTB`, the byte most recently emitted (R28). -/
  lastb : Byte
  /-- `LITB`, the literal byte waiting to be emitted (R29). -/
  litb : Byte
  /-- `SYM`, the symbol value of the coded symbol in progress (R29). -/
  sym : Word
  /-- `REM`, the bytes still to emit for it (R29). -/
  rem : Word
  /-- `PHASE` (R31). -/
  phase : Phase
  /-- `N`, the container's word count (R30). -/
  n : BitVec 30
  /-- `OSIZE`, the declared output length (R30). -/
  osize : Word
  /-- `IN_LEN`, host register 2 (R35). -/
  inLen : Word
  /-- `ERRCODE`, host register 5 (R38). -/
  errcode : Word
  /-- IMEM, the input memory (R43). -/
  imem : Memory
  /-- OMEM, the output memory (R44). -/
  omem : Memory
  /-- The parameters of the step function (R20); no step changes them. -/
  par : Params
  /-- The moves the host will make, oldest first; empty: the engine acts alone. -/
  hostMoves : List HostMove
  /-- What the host's last read returned. -/
  hostData : Word
  /-- Names the next free value (`Config.unspecifiedRead`). -/
  freeIdx : Nat
  /-- The OMEM addresses the host has stored to since the engine entered `ERROR`: what the host reads
  there in `ERROR` is its own byte, and any value elsewhere (R203, U4). Empty in every other phase. -/
  errStores : List Nat
  deriving DecidableEq, Repr

/-- The machine right after hardware reset (R47, R250): `PHASE = IDLE`, `ERRCODE = 0`, `IN_LEN = 0`. Every
other register is unspecified there and holds 0 here (log 2, DESIGN CHOICE, unsafe); the memories
list nothing (log 3); the parameters are the open ones (log 1). -/
def State.reset : State where
  cur := 0
  la := 0
  cnt := 0
  rdcur := 0
  wridx := 0
  acc := 0
  lastb := 0
  litb := 0
  sym := 0
  rem := 0
  phase := .idle
  n := 0
  osize := 0
  inLen := 0
  errcode := 0
  imem := []
  omem := []
  par := Config.params
  hostMoves := []
  hostData := 0
  freeIdx := 0
  errStores := []

end Sys2Proof.Machine
end

