-- ==== Sys2Proof/Machine/Flags.lean ====
section
/-! DEFINITION. The host-visible registers as functions of the state (R32 to R38 of 10_state.md), and
the stream position (R25). The four flags hold no bits of their own (R34). -/

namespace Sys2Proof.Machine

/-- The 4-bit encoding of `PHASE` (R31's table). -/
def Phase.bits : Phase → BitVec 4
  | .idle => 0
  | .validate => 1
  | .prepare => 2
  | .readSymbol => 3
  | .emitLiteral => 4
  | .emitRun => 5
  | .emitCopy => 6
  | .terminate => 7
  | .error => 8

/-- `PHASE` is 1 to 6. -/
def Phase.busy : Phase → Bool
  | .idle | .terminate | .error => false
  | .validate | .prepare | .readSymbol | .emitLiteral | .emitRun | .emitCopy => true

/-- `STATUS.BUSY` (R34). -/
def State.busy (s : State) : Bool := s.phase.busy

/-- `STATUS.DONE` (R34). -/
def State.done (s : State) : Bool := decide (s.phase = .terminate)

/-- `STATUS.ERROR` (R34). -/
def State.failed (s : State) : Bool := decide (s.phase = .error)

/-- `STATUS.MISMATCH` (R34): the engine is done and `WRIDX != OSIZE`. -/
def State.mismatch (s : State) : Bool := s.done && decide (s.wridx ≠ s.osize)

/-- `STATUS` (R32, R34): bit 0 `BUSY`, 1 `DONE`, 2 `ERROR`, 3 `MISMATCH`, 7:4 `PHASE`, the others 0. -/
def State.status (s : State) : Word :=
  0#24 ++ s.phase.bits ++ BitVec.ofBool s.mismatch ++ BitVec.ofBool s.failed ++ BitVec.ofBool s.done
    ++ BitVec.ofBool s.busy

/-- `OUT_SIZE`, a view of `OSIZE` (R36). -/
def State.outSize (s : State) : Word := s.osize

/-- `OUT_LEN`, a view of `WRIDX` (R37). -/
def State.outLen (s : State) : Word := s.wridx

/-- `ERRCODE.CLASS`, bits 1:0 (R38). -/
def errClass (e : Word) : BitVec 2 := e.extractLsb' 0 2

/-- `ERRCODE.DETAIL`, bits 6:4 (R38). -/
def errDetail (e : Word) : BitVec 3 := e.extractLsb' 4 3

/-- `T = 32 * (F + 1) - CNT` with `F = RDCUR - 5` (R25): the stream position, the program counter. -/
def State.streamPos (s : State) : Nat := 32 * (s.rdcur.toNat - 4) - s.cnt.toNat

/-- The class number of an exception (R220). -/
def Exc.classCode : Exc → Word
  | .formatError _ => 1
  | .corruptStream _ => 2

/-- The detail number of an exception (R221 to R224). -/
def Exc.detailCode : Exc → Word
  | .formatError .lenMisaligned => 1
  | .formatError .tooFewWords => 2
  | .formatError .badHeadSignature => 3
  | .formatError .badTailSignature => 4
  | .corruptStream .payloadOverrun => 1
  | .corruptStream .outputOverrun => 2
  | .corruptStream .backrefBeforeStart => 3
  | .corruptStream .runWithoutPrevious => 4

/-- `c | d << 4`, what trap entry writes to `ERRCODE` (R226). -/
def Exc.code (e : Exc) : Word := e.classCode ||| (e.detailCode <<< 4)

end Sys2Proof.Machine
end

