-- ==== Sys2Proof/Machine/Ops.lean ====
section
/-! DEFINITION. The named updates of State, the memory accesses of the engine (R11, R43, R44, R60),
and taking an exception (R226) with the one way out of it, `START` (R192, R228). -/

namespace Sys2Proof.Machine

/-- How an operation of a step can end early: an exception is raised, or the model stops. -/
inductive Stop where
  /-- `raise E(d)`: the step is abandoned and trap entry follows (R11, R226). -/
  | raised (e : Exc)
  /-- The machine stops with a fault. -/
  | fault (f : Fault)
  /-- The model has no meaning here. -/
  | refusal (r : Refusal)
  deriving DecidableEq, Repr

/-- `raise CorruptStream(d)` (R11). -/
def raiseCorrupt {α : Type} (d : CorruptDetail) : Except Stop α := .error (.raised (.corruptStream d))

/-- `raise FormatError(d)` (R11). -/
def raiseFormat {α : Type} (d : FormatDetail) : Except Stop α := .error (.raised (.formatError d))

/-- `PHASE <- p`, the only control transfer (R11). -/
def State.setPhase (s : State) (p : Phase) : State := { s with phase := p }

/-- The reader's four registers (R123). -/
def State.setWindow (s : State) (cur la : Word) (cnt : BitVec 6) (rdcur : Word) : State :=
  { s with cur := cur, la := la, cnt := cnt, rdcur := rdcur }

/-- `LITB <- b` (R141). -/
def State.setLitb (s : State) (b : Byte) : State := { s with litb := b }

/-- `SYM <- v; REM <- c` (R141). -/
def State.setCoded (s : State) (v c : Word) : State := { s with sym := v, rem := c }

/-- `REM <- c` (R176, R177). -/
def State.setRem (s : State) (c : Word) : State := { s with rem := c }

/-- The assembler's registers at an `Emit` (R171). -/
def State.setEmitted (s : State) (wridx acc : Word) (lastb : Byte) : State :=
  { s with wridx := wridx, acc := acc, lastb := lastb }

/-- The pending word and OMEM (R172, R174). -/
def State.setOutput (s : State) (acc : Word) (omem : Memory) : State :=
  { s with acc := acc, omem := omem }

/-- `WRIDX <- 0; ACC <- 0` and the zero-filled OMEM (R194). -/
def State.clearOutput (s : State) (omem : Memory) : State :=
  { s with wridx := 0, acc := 0, omem := omem }

/-- `N <- n; OSIZE <- o` (R193). -/
def State.setContainer (s : State) (n : BitVec 30) (o : Word) : State := { s with n := n, osize := o }

/-- `ERRCODE <- e; PHASE <- p` (R226). -/
def State.setErrPhase (s : State) (e : Word) (p : Phase) : State := { s with errcode := e, phase := p }

/-- `ERRCODE <- 0; PHASE <- VALIDATE` (R192); the model's own note of the host's stores in `ERROR` ends. -/
def State.setStarted (s : State) : State := { s with errcode := 0, phase := .validate, errStores := [] }

/-- `IN_LEN <- v` (R35). -/
def State.setInLen (s : State) (v : Word) : State := { s with inLen := v }

/-- A host's store to IMEM. -/
def State.setImem (s : State) (m : Memory) : State := { s with imem := m }

/-- A host's store to OMEM, and the addresses noted for reads in `ERROR`. -/
def State.setOmem (s : State) (m : Memory) (noted : List Nat) : State :=
  { s with omem := m, errStores := noted }

/-- What a host read returns, and the next free value's name. -/
def State.setHostData (s : State) (v : Word) (idx : Nat) : State := { s with hostData := v, freeIdx := idx }

/-- The host's oldest move is taken off the list. -/
def State.setHostMoves (s : State) (ms : List HostMove) : State := { s with hostMoves := ms }

/-- Trap entry (R226), the whole effect of a faulting step: `ERRCODE <- c | d << 4; PHASE <- ERROR`.
No state is saved, no handler runs, `Flush` is not performed. -/
def takeException (e : Exc) (s : State) : State := s.setErrPhase e.code .error

/-- `START` (R192): `ERRCODE <- 0; PHASE <- VALIDATE`. It is also the only way out of `ERROR` (R228). -/
def start (s : State) : State := s.setStarted

/-- The outcome of a step taken from `s`: a raised exception is taken FROM `s`, so nothing the step
had written takes effect (R141, R226). -/
def settle (s : State) : Except Stop State → Host.Outcome State Fault Refusal
  | .ok t => .next t
  | .error (.raised e) => .next (takeException e s)
  | .error (.fault f) => .fault f
  | .error (.refusal r) => .refused r

/-- `InWord(i) = MemRead(IMEM, 4*i, 4)` (R11, R61); an address at or above `IN_CAP` does not exist. -/
def inWord (s : State) (i : Nat) : Except Stop Word :=
  if 4 * i + 3 < s.par.inCap then .ok (s.imem.readWord (4 * i))
  else .error (.fault (.imemAddress (4 * i)))

/-- `MemRead(OMEM, a, 1)` (R11); an address at or above `OUT_CAP` does not exist. -/
def omemReadByte (s : State) (a : Nat) : Except Stop Byte :=
  if a < s.par.outCap then .ok (s.omem.read a) else .error (.fault (.omemAddress a))

/-- The bytes a masked word write stores to all exist. -/
def enabledBelow (cap a : Nat) (be : BitVec 4) : Bool :=
  (List.range 4).all fun k => !be.getLsbD k || decide (a + k < cap)

/-- `MemWrite(OMEM, a, 4, v, be)` (R11, R62): OMEM after it. -/
def omemWriteMasked (s : State) (a : Nat) (v : Word) (be : BitVec 4) : Except Stop Memory :=
  if enabledBelow s.par.outCap a be then .ok (s.omem.writeMasked a v be)
  else .error (.fault (.omemAddress a))

end Sys2Proof.Machine
end

