-- ==== Sys2Proof/Machine/Reader.lean ====
section
/-! DEFINITION. The Bitstream Reader (40_bitstream_reader.md): `InitWindow`, `Peek`, `Consume`. -/

namespace Sys2Proof.Machine

/-- `InitWindow` (R121): container words 3 and 4 become the window; the counter starts at 32. -/
def initWindow (s : State) : Except Stop State := do
  let a ← inWord s 3
  let b ← inWord s 4
  .ok (s.setWindow a b 32#6 5#32)

/-- `Peek() = CUR` (R122). -/
def peek (s : State) : Word := s.cur

/-- The no-refill branch of `Consume` (R123), `c = CNT - n >= 0`. -/
def slide (s : State) (len : Nat) : State :=
  s.setWindow ((s.cur >>> len) ||| (s.la <<< (s.cnt.toNat - len))) s.la
    (BitVec.ofNat 6 (s.cnt.toNat - len)) s.rdcur

/-- The refill branch of `Consume` (R123) with the fetched word `w`, `k = n - CNT` bits of the old
`LA` being taken; `CNT <- 32 - k`. -/
def refill (s : State) (len : Nat) (w : Word) : State :=
  s.setWindow ((s.la >>> (len - s.cnt.toNat)) ||| (w <<< (32 - (len - s.cnt.toNat)))) w
    (BitVec.ofNat 6 (32 - (len - s.cnt.toNat))) (s.rdcur + 1)

/-- `Consume(n)` (R123, R124). The bound check `RDCUR >= N - 1` is on integers. -/
def consume (len : Nat) (s : State) : Except Stop State :=
  if len = 0 ∨ 32 < len then .error (.refusal .consumeOutOfRange)
  else if len ≤ s.cnt.toNat then .ok (slide s len)
  else if s.n.toNat ≤ s.rdcur.toNat + 1 then raiseCorrupt .payloadOverrun
  else do
    let w ← inWord s s.rdcur.toNat
    .ok (refill s len w)

end Sys2Proof.Machine
end

