-- ==== Sys2Proof/Machine/Controller.lean ====
section
/-! DEFINITION. The Decode Engine's steps before the loop (43_engine_controller.md): `VALIDATE` (R193)
and `PREPARE` (R194). `START` is in Ops.lean. -/

namespace Sys2Proof.Machine

/-- The word count `n = IN_LEN >> 2` (R193). -/
def wordCount (s : State) : Nat := s.inLen.toNat / 4

/-- The checks of R193 that read the container, for a length of `wordCount s >= 6` words: both
signatures, then `N` and `OSIZE` are latched. A word 2 above `OUT_CAP` is refused (R66, log 12). -/
def validateWords (s : State) : Except Stop State := do
  let head ← inWord s 0
  if head ≠ s.par.signature then raiseFormat .badHeadSignature
  else do
    let tail ← inWord s (wordCount s - 1)
    if tail ≠ s.par.signature then raiseFormat .badTailSignature
    else do
      let size ← inWord s 2
      if s.par.outCap < size.toNat then .error (.refusal .outputExceedsOutCap)
      else .ok ((s.setContainer (BitVec.ofNat 30 (wordCount s)) size).setPhase .prepare)

/-- `VALIDATE` (R193), the checks in its order. A container longer than IMEM is refused first (R66,
log 12). -/
def validateStep (s : State) : Host.Outcome State Fault Refusal :=
  settle s <|
    if s.par.inCap < s.inLen.toNat then .error (.refusal .containerExceedsInCap)
    else if s.inLen.toNat % 4 ≠ 0 then raiseFormat .lenMisaligned
    else if wordCount s ≤ 5 then raiseFormat .tooFewWords
    else validateWords s

/-- The zero-fill of `PREPARE`: `OMEM[j] <- 0` for `0 <= j < OSIZE` (R194, D26). -/
def zeroFillOutput (s : State) : Except Stop Memory :=
  if s.osize.toNat ≤ s.par.outCap then .ok (s.omem.zeroFill s.osize.toNat)
  else .error (.fault (.omemAddress s.par.outCap))

/-- `PREPARE` (R194): zero-fill, `InitWindow`, `WRIDX <- 0`, `ACC <- 0`, `PHASE <- READ_SYMBOL`. -/
def prepareStep (s : State) : Host.Outcome State Fault Refusal :=
  settle s do
    let m ← zeroFillOutput s
    let t ← initWindow s
    .ok ((t.clearOutput m).setPhase .readSymbol)

end Sys2Proof.Machine
end

