-- ==== Sys2Proof/Machine/Assembler.lean ====
section
/-! DEFINITION. The Output Assembler (42_output_assembler.md): `Emit`, commit, `Flush`, `OutRead`. -/

namespace Sys2Proof.Machine

/-- `WRIDX & 3`: the lane the next byte goes to, and the number of pending bytes (R27, R171). -/
def lane (s : State) : Nat := s.wridx.toNat % 4

/-- `WRIDX & ~3`: the first output index that is not committed (R27, R45). -/
def pendingBase (s : State) : Nat := s.wridx.toNat / 4 * 4

/-- `(ACC & ~(0xFF << (8*lane))) | (b << (8*lane))` (R171). -/
def insertLane (acc : Word) (k : Nat) (b : Byte) : Word :=
  (acc &&& ~~~(0xFF#32 <<< (8 * k))) ||| (b.setWidth 32 <<< (8 * k))

/-- Commit (R172): the accumulated word goes to OMEM with all byte enables, and `ACC <- 0`. -/
def commit (s : State) : Except Stop State := do
  let m ← omemWriteMasked s (s.wridx.toNat - 4) s.acc 0b1111#4
  .ok (s.setOutput 0 m)

/-- `Emit(b)` (R171): the bound check, the lane, `LASTB`, `WRIDX`, and the commit when `WRIDX & 3`
becomes 0. -/
def emit (b : Byte) (s : State) : Except Stop State :=
  if s.osize.toNat ≤ s.wridx.toNat then raiseCorrupt .outputOverrun
  else
    let t := s.setEmitted (s.wridx + 1) (insertLane s.acc (lane s) b) b
    if lane t = 0 then commit t else .ok t

/-- `Flush()` (R174): the pending lanes go to OMEM with byte enables `mask(WRIDX & 3)`; `ACC` stays. -/
def flush (s : State) : Except Stop State :=
  if lane s = 0 then .ok s
  else do
    let m ← omemWriteMasked s (pendingBase s) s.acc (BitVec.ofNat 4 (2 ^ lane s - 1))
    .ok (s.setOutput s.acc m)

/-- `OutRead(j)` (R175): a pending byte is forwarded from `ACC`, a committed one read from OMEM. -/
def outRead (j : Nat) (s : State) : Except Stop Byte :=
  if pendingBase s ≤ j then .ok (byteOf s.acc (j % 4)) else omemReadByte s j

end Sys2Proof.Machine
end

