-- ==== Sys2Proof/Machine/Symbols.lean ====
section
/-! DEFINITION. The meanings of the four symbols: the arms of the `READ_SYMBOL` step (R141). The bytes a
symbol emits follow in the `EMIT_*` steps of Emission.lean (D22, log 22). -/

namespace Sys2Proof.Machine

/-- The coded arm of R141 short of the class: `Consume(7 + A + B); SYM <- sym; REM <- count;
PHASE <- next`. -/
def readCoded (p : BitVec 2) (xa : Word) (sr : BitVec 4) (xb : Word) (next : Phase) (s : State) :
    Except Stop State := do
  let t ← consume (codedLength s.par.table p sr) s
  .ok ((t.setCoded (symValue s.par.table sr xb) (repeatCount s.par.table p xa sr)).setPhase next)

/-- `LIT byte` (R142, R141): `Consume(9); LITB <- b; PHASE <- EMIT_LITERAL`. -/
def execLit (b : Byte) (s : State) : Host.Outcome State Fault Refusal :=
  settle s do
    let t ← consume 9 s
    .ok ((t.setLitb b).setPhase .emitLiteral)

/-- `RUN p xa s xb` (R148, R141): consume, latch `SYM` and `REM`, then the `EMIT_RUN` steps. -/
def execRun (p : BitVec 2) (xa : Word) (sr : BitVec 4) (xb : Word) (s : State) :
    Host.Outcome State Fault Refusal :=
  settle s (readCoded p xa sr xb .emitRun s)

/-- `COPY p xa s xb` (R149, R141): consume, latch `SYM` and `REM`, then the `EMIT_COPY` steps. -/
def execCopy (p : BitVec 2) (xa : Word) (sr : BitVec 4) (xb : Word) (s : State) :
    Host.Outcome State Fault Refusal :=
  settle s (readCoded p xa sr xb .emitCopy s)

/-- `END p xa s xb` (R150, R141): `Flush(); PHASE <- TERMINATE`. It consumes no bits (D5) and ignores
its operands (R98). -/
def execEnd (s : State) : Host.Outcome State Fault Refusal :=
  settle s do
    let t ← flush s
    .ok (t.setPhase .terminate)

end Sys2Proof.Machine
end

