-- ==== Sys2Proof/Machine/Dispatch.lean ====
section
/-! DEFINITION. The dispatch of a decoded symbol to its meaning. -/

namespace Sys2Proof.Machine

def exec (i : Instr) (s : State) : Host.Outcome State Fault Refusal :=
  match i with
  | .lit b => Sys2Proof.Machine.execLit b s
  | .run p xa sr xb => Sys2Proof.Machine.execRun p xa sr xb s
  | .copy p xa sr xb => Sys2Proof.Machine.execCopy p xa sr xb s
  | .endSym _ _ _ _ => Sys2Proof.Machine.execEnd s

end Sys2Proof.Machine
end

