-- ==== Sys2Proof/Machine/Emission.lean ====
section
/-! DEFINITION. The emission steps (R176 to R178 of 42_output_assembler.md): one byte a step, and one
more step to leave a `RUN` or a `COPY` (D22). -/

namespace Sys2Proof.Machine

/-- `EMIT_LITERAL` (R178): `Emit(LITB); PHASE <- READ_SYMBOL`. -/
def emitLiteralStep (s : State) : Host.Outcome State Fault Refusal :=
  settle s do
    let t ← emit s.litb s
    .ok (t.setPhase .readSymbol)

/-- One byte of a run (R176): the source-side check comes before `Emit`'s (R225). -/
def emitRunByte (s : State) : Except Stop State :=
  if s.wridx = 0 then raiseCorrupt .runWithoutPrevious
  else do
    let t ← emit s.lastb s
    .ok (t.setRem (s.rem - 1))

/-- `EMIT_RUN` (R176). -/
def emitRunStep (s : State) : Host.Outcome State Fault Refusal :=
  settle s (if s.rem = 0 then .ok (s.setPhase .readSymbol) else emitRunByte s)

/-- One byte of a copy (R177): `src = WRIDX - 2 * SYM` is an integer, recomputed at every byte. -/
def emitCopyByte (s : State) : Except Stop State :=
  if s.wridx.toNat < 2 * s.sym.toNat then raiseCorrupt .backrefBeforeStart
  else do
    let b ← outRead (s.wridx.toNat - 2 * s.sym.toNat) s
    let t ← emit b s
    .ok (t.setRem (s.rem - 1))

/-- `EMIT_COPY` (R177). -/
def emitCopyStep (s : State) : Host.Outcome State Fault Refusal :=
  settle s (if s.rem = 0 then .ok (s.setPhase .readSymbol) else emitCopyByte s)

end Sys2Proof.Machine
end

