-- ==== Sys2Proof/Machine/Engine.lean ====
section
/-! DEFINITION. One step of the engine (R191, R195 to R197 of 43_engine_controller.md), by `PHASE`. -/

namespace Sys2Proof.Machine

/-- `READ_SYMBOL` (R141): decode the window, run the symbol's arm. -/
def readSymbolStep (s : State) : Host.Outcome State Fault Refusal :=
  match decode s.par.table (peek s) with
  | .ok i => exec i s
  | .error .symbolLongerThanWindow => .refused .symbolLongerThanWindow

/-- The engine has a meaning only for a table that satisfies `WF_TABLE` (R41, U1). -/
def withGoodTable (s : State) (outcome : Host.Outcome State Fault Refusal) :
    Host.Outcome State Fault Refusal :=
  if wfTable s.par.table then outcome else .refused .tableNotWellFormed

/-- One step of the engine (R191). `IDLE`, `TERMINATE` and `ERROR` are halted: nothing changes until
`START` (R196, R197). -/
def engineStep (s : State) : Host.Outcome State Fault Refusal :=
  match s.phase with
  | .idle => .next s
  | .validate => withGoodTable s (validateStep s)
  | .prepare => withGoodTable s (prepareStep s)
  | .readSymbol => withGoodTable s (readSymbolStep s)
  | .emitLiteral => withGoodTable s (emitLiteralStep s)
  | .emitRun => withGoodTable s (emitRunStep s)
  | .emitCopy => withGoodTable s (emitCopyStep s)
  | .terminate => .next s
  | .error => .next s

end Sys2Proof.Machine
end

