-- ==== Sys2Proof/Machine/HostPort.lean ====
section
/-! DEFINITION. The host's accesses (R32 to R38, R203, R250): registers by number, the two memories,
hardware reset. -/

namespace Sys2Proof.Machine

/-- The six host registers (R32). -/
inductive HostReg where
  | ctrl | status | inLen | outSize | outLen | errcode
  deriving DecidableEq, Repr

/-- The register of a number (R32's table). -/
def hostReg? : Nat → Option HostReg
  | 0 => some .ctrl
  | 1 => some .status
  | 2 => some .inLen
  | 3 => some .outSize
  | 4 => some .outLen
  | 5 => some .errcode
  | _ => none

/-- A write of a register (R33, R35). `CTRL`: bit 0 = 1 is `START` unless busy, bits 31:1 are ignored.
`IN_LEN`: ignored while busy. The others are read-only and ignore a write (log 15). -/
def writeReg (r : HostReg) (v : Word) (s : State) : State :=
  match r with
  | .ctrl => if v.getLsbD 0 && !s.busy then start s else s
  | .inLen => if s.busy then s else s.setInLen v
  | .status => s
  | .outSize => s
  | .outLen => s
  | .errcode => s

/-- The register's value as a view of the state (R33 to R38); `CTRL` reads 0. -/
def regView (r : HostReg) (s : State) : Word :=
  match r with
  | .ctrl => 0
  | .status => s.status
  | .inLen => s.inLen
  | .outSize => s.outSize
  | .outLen => s.outLen
  | .errcode => s.errcode

/-- When the spec says what a host's read returns: `STATUS` always; while busy nothing else (R203, U3,
log 7); `OUT_SIZE` once `VALIDATE` has succeeded in the call (R36); `OUT_LEN` when done (R37). -/
def readSpecified (r : HostReg) (s : State) : Bool :=
  match r with
  | .status => true
  | .ctrl => !s.busy
  | .inLen => !s.busy
  | .outSize => s.done || (s.failed && errClass s.errcode == 2)
  | .outLen => s.done
  | .errcode => !s.busy

/-- A read returns `v`. -/
def returnData (v : Word) (s : State) : State := s.setHostData v s.freeIdx

/-- A read returns a value the spec leaves open: a free value (U3, U4, log 6). -/
def returnFree (s : State) : State := s.setHostData (Config.unspecifiedRead s.freeIdx) (s.freeIdx + 1)

/-- A read of a register. -/
def readReg (r : HostReg) (s : State) : State :=
  if readSpecified r s then returnData (regView r s) s else returnFree s

/-- The memory of a space. -/
def memOf (sp : Space) (s : State) : Memory :=
  match sp with
  | .imem => s.imem
  | .omem => s.omem

/-- `noted` with the `width` addresses from `a` on. -/
def noteStores (a : Nat) (noted : List Nat) : Nat → List Nat
  | 0 => noted
  | width + 1 => (noteStores a noted width).insert (a + width)

/-- A host's store to bytes `a .. a + width - 1` of a space leaves the memory `m`; in `ERROR` the OMEM
addresses are noted, so that the host reads its own bytes back (R203, log 23). -/
def storeMem (sp : Space) (a width : Nat) (m : Memory) (s : State) : State :=
  match sp with
  | .imem => s.setImem m
  | .omem => s.setOmem m (if s.failed then noteStores a s.errStores width else s.errStores)

/-- How many bytes a space has (D15). -/
def capOf (sp : Space) (s : State) : Nat :=
  match sp with
  | .imem => s.par.inCap
  | .omem => s.par.outCap

/-- The fault of an address a space does not have. -/
def addressFault (sp : Space) (a : Nat) : Fault :=
  match sp with
  | .imem => .imemAddress a
  | .omem => .omemAddress a

/-- A host access to bytes `a .. a + width - 1` of a memory: the host has no such move while the
engine is busy (R203, R255, U9); an address beyond the capacity does not exist. DESIGN CHOICE (log 10):
a word of which only some bytes exist faults whole, nothing of it is accessed, and the fault carries the
word's first address. -/
def hostAccess (sp : Space) (a width : Nat) (s t : State) : Host.Outcome State Fault Refusal :=
  if s.busy then .refused .hostMemoryAccessWhileBusy
  else if a + width ≤ capOf sp s then .next t
  else .fault (addressFault sp a)

/-- The spec lets the host's read of this byte return any value: OMEM in `ERROR` (R197, R227, U4), but
for a byte the host has itself stored there (R203, log 23). In every other phase OMEM reads as it stands,
at and above `OSIZE` too, whatever an earlier failed call left there (DESIGN CHOICE, log 25). -/
def byteIsOpen (sp : Space) (a : Nat) (s : State) : Bool :=
  match sp with
  | .imem => false
  | .omem => s.failed && !s.errStores.contains a

/-- Byte `k` of what a host's read at `a` returns: the byte that stands there, or byte `k` of the free
word (log 6), so that an open byte is any byte and no more. -/
def hostByte (sp : Space) (a k : Nat) (s : State) : Byte :=
  if byteIsOpen sp (a + k) s then byteOf (Config.unspecifiedRead s.freeIdx) k
  else (memOf sp s).read (a + k)

/-- The counter after a read of `width` bytes: it counts on if one of them was free. -/
def freeAfterRead (sp : Space) (a width : Nat) (s : State) : Nat :=
  if (List.range width).any fun k => byteIsOpen sp (a + k) s then s.freeIdx + 1 else s.freeIdx

/-- A host's read of one byte returns it zero-extended (log 5). -/
def readMemByte (sp : Space) (a : Nat) (s : State) : State :=
  s.setHostData ((hostByte sp a 0 s).setWidth 32) (freeAfterRead sp a 1 s)

/-- A host's read of the word at `a` returns its four bytes, the lowest address lowest (R61, R62). -/
def readMemWord (sp : Space) (a : Nat) (s : State) : State :=
  s.setHostData (hostByte sp a 3 s ++ hostByte sp a 2 s ++ hostByte sp a 1 s ++ hostByte sp a 0 s)
    (freeAfterRead sp a 4 s)

/-- Hardware reset (R250): every register and both memories as `State.reset` has them (log 18); the
parameters, the host's remaining moves and the model's own counter stay. -/
def hardwareReset (s : State) : State :=
  { State.reset with par := s.par, hostMoves := s.hostMoves, hostData := s.hostData, freeIdx := s.freeIdx }

/-- One access of the host. `HostMove.wait` is none; Turn.lean gives that turn to the engine. -/
def hostMove (m : HostMove) (s : State) : Host.Outcome State Fault Refusal :=
  match m with
  | .wait => .next s
  | .writeReg no v =>
    match hostReg? no with
    | some r => .next (writeReg r v s)
    | none => .fault (.noSuchRegister no)
  | .readReg no =>
    match hostReg? no with
    | some r => .next (readReg r s)
    | none => .fault (.noSuchRegister no)
  | .writeByte sp a b => hostAccess sp a 1 s (storeMem sp a 1 ((memOf sp s).write a b) s)
  | .writeWord sp i v =>
    hostAccess sp (4 * i) 4 s (storeMem sp (4 * i) 4 ((memOf sp s).writeWord (4 * i) v) s)
  | .readByte sp a => hostAccess sp a 1 s (readMemByte sp a s)
  | .readWord sp i => hostAccess sp (4 * i) 4 s (readMemWord sp (4 * i) s)
  | .reset => .next (hardwareReset s)

end Sys2Proof.Machine
end

