-- ==== Sys2Proof/Machine/Turn.lean ====
section
/-! DEFINITION. Whose turn a step is (R67, R203, log 4), and how an instruction is placed where the
engine decodes its next symbol (logs 8, 9). -/

namespace Sys2Proof.Machine

/-- One step of the whole machine: with no host move pending the engine acts; a pending `wait` gives
the turn to the engine; any other pending move is the host's access, and the engine stands still. -/
def turn (s : State) : Host.Outcome State Fault Refusal :=
  match s.hostMoves with
  | [] => engineStep s
  | .wait :: rest => engineStep (s.setHostMoves rest)
  | m :: rest => hostMove m (s.setHostMoves rest)

/-- The state whose next step decodes the table word `w`: the engine stands at `READ_SYMBOL` with a full
window of the word's bits, `TEST_TABLE` is the Code Table, and no host move comes first. -/
def placeTableWord (nbits w : Nat) (s : State) : State :=
  { s with
    phase := .readSymbol
    cur := tableWindow nbits w
    la := 0
    cnt := 32
    par := { s.par with table := Config.testTable }
    hostMoves := [] }

end Sys2Proof.Machine
end

