-- ==== Sys2Proof/Machine/Step.lean ====
section
/-! DEFINITION. The step function of the machine. -/

namespace Sys2Proof.Machine

/-- One step: of the engine or of the host (Turn.lean). -/
def step (s : State) : Host.Outcome State Fault Refusal := turn s

/-- The table word's symbol stands where the engine decodes next (Turn.lean, logs 8, 9). -/
def State.withFetchWord (s : State) (nbits w : Nat) : State := placeTableWord nbits w s

end Sys2Proof.Machine
end

