-- ==== Sys2Proof/Machine/BigStep.lean ====
section
/-! DEFINITION. The abstract stream (R91), the direct byte-array assembler (R180) and the run of one
call as one function (R201), beside the phase machine. Nothing in the machine calls them: they are
what claims compare it with. -/

namespace Sys2Proof.Machine

/-- Stream word `X[j]`, which is container word `3 + j` (R90). -/
def State.streamWord (s : State) (j : Nat) : Word := s.imem.readWord (4 * (3 + j))

/-- Stream bit `S[p] = X[p div 32][p mod 32]` (R91). -/
def State.streamBit (s : State) (p : Nat) : Bool := (s.streamWord (p / 32)).getLsbD (p % 32)

/-- The window `W = S[T+31:T]` (R91). -/
def State.windowAt (s : State) (pos : Nat) : Word := BitVec.ofFnLE fun i : Fin 32 => s.streamBit (pos + i.val)

/-- How a call ends (R190, R201). -/
inductive CallResult where
  /-- `END` was reached; the bytes emitted, in order. -/
  | done (out : List Byte)
  /-- `FormatError(d)` or `CorruptStream(d)`. -/
  | failed (e : Exc)
  /-- The call is outside the model (U1, U2). -/
  | refused (r : Refusal)
  /-- The fuel of the recursion ran out, which R199 says never happens. -/
  | outOfFuel
  deriving DecidableEq, Repr

/-- The direct assembler's `Emit` (R180, R201's `append`): the output is a list, `WRIDX` its length. -/
def appendByte (osize : Nat) (b : Byte) (out : List Byte) : Except CorruptDetail (List Byte) :=
  if osize ≤ out.length then .error .outputOverrun else .ok (out ++ [b])

/-- `RUN` in R201: `count` times the last byte emitted. -/
def appendRun (osize : Nat) : Nat → List Byte → Except CorruptDetail (List Byte)
  | 0, out => .ok out
  | count + 1, out =>
    if out.length = 0 then .error .runWithoutPrevious
    else (appendByte osize (out.getD (out.length - 1) 0) out).bind (appendRun osize count)

/-- `COPY` in R201: `count` bytes from `dist` back, each seeing the ones before it. -/
def appendCopy (osize dist : Nat) : Nat → List Byte → Except CorruptDetail (List Byte)
  | 0, out => .ok out
  | count + 1, out =>
    if out.length < dist then .error .backrefBeforeStart
    else (appendByte osize (out.getD (out.length - dist) 0) out).bind (appendCopy osize dist count)

/-- The bytes a symbol appends (R201). -/
def appendSymbol (t : CodeTable) (osize : Nat) (i : Instr) (out : List Byte) :
    Except CorruptDetail (List Byte) :=
  match i with
  | .lit b => appendByte osize b out
  | .run p xa sr _ => appendRun osize (repeatCount t p xa sr).toNat out
  | .copy p xa sr xb => appendCopy osize (2 * (symValue t sr xb).toNat) (repeatCount t p xa sr).toNat out
  | .endSym _ _ _ _ => .ok out

/-- The loop of R201 at stream position `pos`, for a container of `words` words. -/
def decodeLoop (s : State) (words osize : Nat) : Nat → Nat → List Byte → CallResult
  | 0, _, _ => .outOfFuel
  | fuel + 1, pos, out =>
    match decode s.par.table (s.windowAt pos) with
    | .error .symbolLongerThanWindow => .refused .symbolLongerThanWindow
    | .ok (.endSym _ _ _ _) => .done out
    | .ok i =>
      if 32 * (words - 5) < pos + symbolLength s.par.table i then
        .failed (.corruptStream .payloadOverrun)
      else
        match appendSymbol s.par.table osize i out with
        | .ok out' => decodeLoop s words osize fuel (pos + symbolLength s.par.table i) out'
        | .error d => .failed (.corruptStream d)

/-- The bound of R199 on the number of decode steps, `(32 * (N - 4)) / 7 + 1`. -/
def decodeBound (words : Nat) : Nat := 32 * (words - 4) / 7 + 1

/-- `decompress(IN_LEN, IMEM)` (R201), with the refusals of U1 and U2. -/
def decompress (s : State) : CallResult :=
  if ¬ wfTable s.par.table then .refused .tableNotWellFormed
  else if s.par.inCap < s.inLen.toNat then .refused .containerExceedsInCap
  else if s.inLen.toNat % 4 ≠ 0 then .failed (.formatError .lenMisaligned)
  else if s.inLen.toNat / 4 ≤ 5 then .failed (.formatError .tooFewWords)
  else if s.imem.readWord 0 ≠ s.par.signature then .failed (.formatError .badHeadSignature)
  else if s.imem.readWord (4 * (s.inLen.toNat / 4 - 1)) ≠ s.par.signature then
    .failed (.formatError .badTailSignature)
  else if s.par.outCap < (s.imem.readWord 8).toNat then .refused .outputExceedsOutCap
  else decodeLoop s (s.inLen.toNat / 4) (s.imem.readWord 8).toNat (decodeBound (s.inLen.toNat / 4)) 0 []

end Sys2Proof.Machine
end

