-- ==== Sys2Proof/Safety.lean ====
section
/-! DEFINITION. The terms claims use: the logical output (R45), the spec's invariants (`INV_WINDOW` of
R25, `INV_ACC` of R173) and the ranges its rules state, as one invariant of the whole machine. -/

namespace Sys2Proof.Safety

open Sys2Proof.Machine

/-- The decode phases: `READ_SYMBOL` and the `EMIT_*` phases (R173, R25). -/
def decoding : Phase → Bool
  | .readSymbol | .emitLiteral | .emitRun | .emitCopy => true
  | .idle | .validate | .prepare | .terminate | .error => false

/-- The engine is halted: it waits for `START` (R191, R196, R197). -/
def halted (s : State) : Prop := s.phase = .idle ∨ s.phase = .terminate ∨ s.phase = .error

/-- The logical output image `OUT[j]` (R45). -/
def outImage (s : State) (j : Nat) : Byte :=
  if pendingBase s ≤ j ∧ j < s.wridx.toNat then byteOf s.acc (j % 4) else s.omem.read j

/-- `INV_WINDOW` (R25, R24, R22): `CUR = S[T+31:T]`, `LA = X[F+1]` with `F = RDCUR - 5`, `CNT <= 32`,
`5 <= RDCUR <= N - 1`. -/
structure WindowInv (s : State) : Prop where
  rdcur_low : 5 ≤ s.rdcur.toNat
  rdcur_high : s.rdcur.toNat + 1 ≤ s.n.toNat
  cnt_le : s.cnt.toNat ≤ 32
  la_eq : s.la = s.streamWord (s.rdcur.toNat - 4)
  cur_bits : ∀ i < 32, s.cur.getLsbD i = s.streamBit (s.streamPos + i)

/-- `INV_ACC` (R173, R26): `WRIDX <= OSIZE`, the lanes from `WRIDX & 3` up are 0, OMEM is 0 from
`WRIDX & ~3` up to `OSIZE`. -/
structure LaneInv (s : State) : Prop where
  wridx_le : s.wridx.toNat ≤ s.osize.toNat
  free_lanes : ∀ k < 4, lane s ≤ k → byteOf s.acc k = 0
  omem_zero : ∀ j, pendingBase s ≤ j → j < s.osize.toNat → s.omem.read j = 0

/-- What `VALIDATE` has established for the rest of the call (R30, R65, R66, R193). -/
structure CallInv (s : State) : Prop where
  words_ge : 6 ≤ s.n.toNat
  words_eq : 4 * s.n.toNat = s.inLen.toNat
  fits_in : s.inLen.toNat ≤ s.par.inCap
  size_eq : s.osize = s.imem.readWord 8
  fits_out : s.osize.toNat ≤ s.par.outCap

/-- The invariant of the whole machine, which every step keeps. -/
structure EngineInv (s : State) : Prop where
  imem_wf : s.imem.wf = true
  omem_wf : s.omem.wf = true
  /-- `ERRCODE` is 0 whenever `PHASE != ERROR` (R38). -/
  no_error : s.phase ≠ .error → s.errcode = 0
  /-- In `ERROR` it is the code of one of the eight exceptions (R38, U10). -/
  error_code : s.phase = .error → ∃ e : Exc, s.errcode = e.code
  call : s.phase = .prepare ∨ decoding s.phase = true → CallInv s
  window : decoding s.phase = true → WindowInv s
  lanes : decoding s.phase = true → LaneInv s
  /-- `LASTB` is the byte most recently emitted (R28). -/
  last_byte : decoding s.phase = true → 1 ≤ s.wridx.toNat → s.lastb = outImage s (s.wridx.toNat - 1)
  /-- In `EMIT_COPY`, `1 <= SYM <= 0x10001` (R29). -/
  copy_sym : s.phase = .emitCopy → 1 ≤ s.sym.toNat ∧ s.sym.toNat ≤ 0x10001
  /-- The host's stores are noted in `ERROR` only (the model's own field, log 23). -/
  no_stores : s.phase ≠ .error → s.errStores = []

/-- What `Emit(b)` from `s` leaves in `ACC` (`a`) and OMEM (`m`), R171 and R172: below a full word the byte
waits in its lane and OMEM is unchanged; the byte that fills a word commits the word's four bytes, at
`WRIDX & ~3`, and clears `ACC`. Read over the logical output (R45), `b` is appended. -/
structure Emitted (s : State) (b : Byte) (a : Word) (m : Memory) : Prop where
  acc : a = if s.wridx.toNat % 4 = 3 then 0 else insertLane s.acc (s.wridx.toNat % 4) b
  omem : ∀ j, m.read j =
    if s.wridx.toNat % 4 = 3 ∧ s.wridx.toNat / 4 * 4 ≤ j ∧ j ≤ s.wridx.toNat then
      if j = s.wridx.toNat then b else outImage s j
    else s.omem.read j
  image : ∀ j, outImage { s with wridx := s.wridx + 1, acc := a, omem := m } j =
    if j = s.wridx.toNat then b else outImage s j

/-- `k` steps of the machine lead from `s` to `t`. -/
def runs (k : Nat) (s t : State) : Prop :=
  match k with
  | 0 => s = t
  | k + 1 => ∃ u, step s = .next u ∧ runs k u t

/-- How many of the first `k` steps from `s` are `READ_SYMBOL` steps (the decode steps of R199). -/
def symbolSteps (k : Nat) (s : State) : Nat :=
  match k with
  | 0 => 0
  | k + 1 =>
    (if s.phase = .readSymbol then 1 else 0) +
      match step s with
      | .next u => symbolSteps k u
      | .fault _ => 0
      | .refused _ => 0

/-- What no step of a decode touches: the container, its length, the parameters, what `VALIDATE` latched,
the host's side. -/
def sameCall (s t : State) : Prop :=
  t.imem = s.imem ∧ t.inLen = s.inLen ∧ t.par = s.par ∧ t.n = s.n ∧ t.osize = s.osize ∧
    t.hostMoves = s.hostMoves ∧ t.hostData = s.hostData ∧ t.freeIdx = s.freeIdx ∧
    t.errStores = s.errStores

end Sys2Proof.Safety
end

