-- ==== Sys2Proof/Certificates/Slice0/Obligations.lean ====
section
/-! DEFINITION. The statements for the provers, each a `Prop` named for what it says. "Frame" in a
docstring means that the equation names every field that changes: every register, flag, memory byte
and host-side field it does not name is unchanged. -/

open Sys2Proof Sys2Proof.Machine Sys2Proof.Safety

/-! ## Encoding -/

/-- R92, R93, R97: a window whose low bits are the number of a well-formed symbol decodes to that
symbol, whatever the bits above it are. -/
def Obligations.DecodeOfEncodedSymbol : Prop :=
  ∀ (t : CodeTable) (i : Instr) (w : Word), wfTable t = true → i.WellFormed t →
    (∀ k < symbolLength t i, w.getLsbD k = (encode t i).getLsbD k) → decode t w = .ok i

/-- R92, R93, R95: what a window decodes to is a well-formed symbol, and the window's low bits are that
symbol's number. -/
def Obligations.EncodeOfDecodedWindow : Prop :=
  ∀ (t : CodeTable) (i : Instr) (w : Word), decode t w = .ok i →
    symbolLength t i ≤ 32 ∧ i.WellFormed t ∧
      ∀ k < symbolLength t i, (encode t i).getLsbD k = w.getLsbD k

/-- R152, R98: under `WF_TABLE` every window decodes, to exactly one symbol. -/
def Obligations.EveryWindowIsOneSymbol : Prop :=
  ∀ (t : CodeTable) (w : Word), wfTable t = true → ∃ i, decode t w = .ok i ∧ i.WellFormed t ∧
    ∀ j, j.WellFormed t → (∀ k < symbolLength t j, (encode t j).getLsbD k = w.getLsbD k) → j = i

/-- R95: stage 1 selects by bit 0, stage 2 by the value `sym`, as integers. -/
def Obligations.ClassIsSelectedByValue : Prop :=
  ∀ (t : CodeTable) (w : Word) (i : Instr), decode t w = .ok i →
    match i with
    | .lit b => w.getLsbD 0 = false ∧ b.toNat = w.toNat / 2 % 256
    | .run p xa sr xb =>
      w.getLsbD 0 = true ∧ p.toNat = w.toNat / 2 % 4 ∧ xa.toNat = w.toNat / 8 % 2 ^ codeLenA t p ∧
        sr.toNat = w.toNat / 2 ^ (3 + codeLenA t p) % 16 ∧
        xb.toNat = w.toNat / 2 ^ (7 + codeLenA t p) % 2 ^ codeLenB t sr ∧ (symValue t sr xb).toNat = 0
    | .copy p xa sr xb =>
      w.getLsbD 0 = true ∧ p.toNat = w.toNat / 2 % 4 ∧ xa.toNat = w.toNat / 8 % 2 ^ codeLenA t p ∧
        sr.toNat = w.toNat / 2 ^ (3 + codeLenA t p) % 16 ∧
        xb.toNat = w.toNat / 2 ^ (7 + codeLenA t p) % 2 ^ codeLenB t sr ∧
        1 ≤ (symValue t sr xb).toNat ∧ (symValue t sr xb).toNat ≤ 0x10001
    | .endSym p xa sr xb =>
      w.getLsbD 0 = true ∧ p.toNat = w.toNat / 2 % 4 ∧ xa.toNat = w.toNat / 8 % 2 ^ codeLenA t p ∧
        sr.toNat = w.toNat / 2 ^ (3 + codeLenA t p) % 16 ∧
        xb.toNat = w.toNat / 2 ^ (7 + codeLenA t p) % 2 ^ codeLenB t sr ∧
        0x10002 ≤ (symValue t sr xb).toNat

/-- R42: tables that agree on the cells R42 lists decode every window alike, to symbols of the same
length, value and count. -/
def Obligations.DecodeReadsListedCells : Prop :=
  ∀ (t t' : CodeTable) (w : Word),
    (∀ p : BitVec 2, tab t (primaryRow p) 0 = tab t' (primaryRow p) 0 ∧
      tab t (primaryRow p) 2 = tab t' (primaryRow p) 2) →
    (∀ sr : BitVec 4, tab t (secondaryRow sr) 0 = tab t' (secondaryRow sr) 0 ∧
      tab t (secondaryRow sr) 1 = tab t' (secondaryRow sr) 1 ∧
      tab t (secondaryRow sr) 2 = tab t' (secondaryRow sr) 2) →
    decode t w = decode t' w ∧
      (∀ (p : BitVec 2) (xa : Word) (sr : BitVec 4) (xb : Word),
        codedLength t p sr = codedLength t' p sr ∧ symValue t sr xb = symValue t' sr xb ∧
          repeatCount t p xa sr = repeatCount t' p xa sr)

/-- Section 4 of 95_test_vectors.md: one window of each class, under `TEST_TABLE` (log 8). -/
def Obligations.SpecWindowsDecode : Prop :=
  decode Config.testTable 0xCA190882 = .ok (.lit 0x41) ∧
    decode Config.testTable 0x0000F20D = .ok (.run 2 1 0 0) ∧
    decode Config.testTable 0x00055CFF = .ok (.copy 3 15 9 171) ∧
    decode Config.testTable 0x00AA01D3 = .ok (.copy 1 0 13 43521) ∧
    decode Config.testTable 0x00AA02D3 = .ok (.endSym 1 0 13 43522)

/-! ## The Bitstream Reader -/

/-- R126: `Consume(n)` that raises no fault keeps `INV_WINDOW`, with `T` replaced by `T + n`. -/
def Obligations.ConsumeKeepsWindow : Prop :=
  ∀ (s t : State) (len : Nat), WindowInv s → consume len s = .ok t →
    WindowInv t ∧ t.streamPos = s.streamPos + len

/-- R125: the number of payload words fetched is `ceil(T / 32) - 1`, the refill happens in the `Consume`
that first makes `T > 32 * (F + 1)`, and `T <= 32 * (N - 5)`. -/
def Obligations.ConsumeFollowsFetchLaw : Prop :=
  ∀ (s t : State) (len : Nat), WindowInv s → consume len s = .ok t →
    t.rdcur.toNat - 5 = (t.streamPos + 31) / 32 - 1 ∧
      t.rdcur.toNat = s.rdcur.toNat + (if 32 * (s.rdcur.toNat - 4) < s.streamPos + len then 1 else 0) ∧
      t.streamPos ≤ 32 * (t.n.toNat - 5)

/-- R124, R201: `Consume` raises `PAYLOAD_OVERRUN` exactly when the window would slide past the stream,
and then nothing of the reader has changed (the exception is all the operation gives). -/
def Obligations.ConsumeOverrunsPastStream : Prop :=
  ∀ (s : State) (len : Nat), WindowInv s → 1 ≤ len → len ≤ 32 →
    (consume len s = .error (.raised (.corruptStream .payloadOverrun)) ↔
      32 * (s.n.toNat - 5) < s.streamPos + len)

/-! ## The symbols: the `READ_SYMBOL` step -/

/-- R142, R141, R123: `LIT` consumes 9 bits, latches the byte and goes to `EMIT_LITERAL`; frame. -/
def Obligations.LitReads : Prop :=
  ∀ (b : Byte) (s : State),
    (9 ≤ s.cnt.toNat → exec (.lit b) s = .next { s with
        cur := (s.cur >>> 9) ||| (s.la <<< (s.cnt.toNat - 9))
        cnt := BitVec.ofNat 6 (s.cnt.toNat - 9)
        litb := b
        phase := .emitLiteral }) ∧
    (s.cnt.toNat < 9 → s.rdcur.toNat + 1 < s.n.toNat → 4 * s.rdcur.toNat + 3 < s.par.inCap →
      exec (.lit b) s = .next { s with
        cur := (s.la >>> (9 - s.cnt.toNat)) |||
          (s.imem.readWord (4 * s.rdcur.toNat) <<< (32 - (9 - s.cnt.toNat)))
        la := s.imem.readWord (4 * s.rdcur.toNat)
        cnt := BitVec.ofNat 6 (32 - (9 - s.cnt.toNat))
        rdcur := s.rdcur + 1
        litb := b
        phase := .emitLiteral })

/-- R148, R141, R123, R93, R146, R147: `RUN` consumes `7 + A + B` bits, latches `SYM` and `REM` and goes to
`EMIT_RUN`; frame. The length, `SYM` and `REM` are written on the cells of the Code Table, `TAB[r][c]` being
word `4*r + c` (R8); a symbol of at most 32 bits is every symbol under `WF_TABLE` (R41). -/
def Obligations.RunReads : Prop :=
  ∀ (p : BitVec 2) (xa : Word) (sr : BitVec 4) (xb : Word) (s : State) (len : Nat) (value count : Word),
    len = 7 + (s.par.table[4 * p.toNat]!).toNat + (s.par.table[4 * (4 + sr.toNat)]!).toNat → len ≤ 32 →
    value = s.par.table[4 * (4 + sr.toNat) + 2]! + xb →
    count = s.par.table[4 * p.toNat + 2]! + xa + ((s.par.table[4 * (4 + sr.toNat) + 1]! + 11) >>> 3) →
    (len ≤ s.cnt.toNat → exec (.run p xa sr xb) s = .next { s with
        cur := (s.cur >>> len) ||| (s.la <<< (s.cnt.toNat - len))
        cnt := BitVec.ofNat 6 (s.cnt.toNat - len)
        sym := value
        rem := count
        phase := .emitRun }) ∧
    (s.cnt.toNat < len → s.rdcur.toNat + 1 < s.n.toNat → 4 * s.rdcur.toNat + 3 < s.par.inCap →
      exec (.run p xa sr xb) s = .next { s with
        cur := (s.la >>> (len - s.cnt.toNat)) |||
          (s.imem.readWord (4 * s.rdcur.toNat) <<< (32 - (len - s.cnt.toNat)))
        la := s.imem.readWord (4 * s.rdcur.toNat)
        cnt := BitVec.ofNat 6 (32 - (len - s.cnt.toNat))
        rdcur := s.rdcur + 1
        sym := value
        rem := count
        phase := .emitRun })

/-- R149, R141, R123, R93, R146, R147: `COPY` consumes `7 + A + B` bits, latches `SYM` and `REM` and goes to
`EMIT_COPY`; frame. The length, `SYM` and `REM` are written on the cells of the Code Table, `TAB[r][c]` being
word `4*r + c` (R8); a symbol of at most 32 bits is every symbol under `WF_TABLE` (R41). -/
def Obligations.CopyReads : Prop :=
  ∀ (p : BitVec 2) (xa : Word) (sr : BitVec 4) (xb : Word) (s : State) (len : Nat) (value count : Word),
    len = 7 + (s.par.table[4 * p.toNat]!).toNat + (s.par.table[4 * (4 + sr.toNat)]!).toNat → len ≤ 32 →
    value = s.par.table[4 * (4 + sr.toNat) + 2]! + xb →
    count = s.par.table[4 * p.toNat + 2]! + xa + ((s.par.table[4 * (4 + sr.toNat) + 1]! + 11) >>> 3) →
    (len ≤ s.cnt.toNat → exec (.copy p xa sr xb) s = .next { s with
        cur := (s.cur >>> len) ||| (s.la <<< (s.cnt.toNat - len))
        cnt := BitVec.ofNat 6 (s.cnt.toNat - len)
        sym := value
        rem := count
        phase := .emitCopy }) ∧
    (s.cnt.toNat < len → s.rdcur.toNat + 1 < s.n.toNat → 4 * s.rdcur.toNat + 3 < s.par.inCap →
      exec (.copy p xa sr xb) s = .next { s with
        cur := (s.la >>> (len - s.cnt.toNat)) |||
          (s.imem.readWord (4 * s.rdcur.toNat) <<< (32 - (len - s.cnt.toNat)))
        la := s.imem.readWord (4 * s.rdcur.toNat)
        cnt := BitVec.ofNat 6 (32 - (len - s.cnt.toNat))
        rdcur := s.rdcur + 1
        sym := value
        rem := count
        phase := .emitCopy })

/-- R150, R174: `END` commits the pending lanes, `WRIDX & ~3` up to `WRIDX - 1`, and halts the engine;
every other byte of OMEM, every register and IMEM are unchanged. -/
def Obligations.EndFlushes : Prop :=
  ∀ (p : BitVec 2) (xa : Word) (sr : BitVec 4) (xb : Word) (s : State), s.omem.wf = true →
    s.wridx.toNat ≤ s.par.outCap →
    ∃ m : Memory, exec (.endSym p xa sr xb) s = .next { s with omem := m, phase := .terminate } ∧
      m.wf = true ∧
      ∀ a, m.read a =
        if s.wridx.toNat / 4 * 4 ≤ a ∧ a < s.wridx.toNat then s.acc.extractLsb' (8 * (a % 4)) 8
        else s.omem.read a

/-- R222, R124, R226: a `LIT`, `RUN` or `COPY` whose `Consume` needs a payload word that does not exist
takes `CorruptStream(PAYLOAD_OVERRUN)`; only `ERRCODE` and `PHASE` change. -/
def Obligations.SymbolPayloadOverrun : Prop :=
  ∀ (i : Instr) (s : State), wfTable s.par.table = true →
    (∀ p xa sr xb, i ≠ .endSym p xa sr xb) →
    s.cnt.toNat < symbolLength s.par.table i → s.n.toNat ≤ s.rdcur.toNat + 1 →
    exec i s = .next { s with errcode := 0x12, phase := .error }

/-- R141, R191: at `READ_SYMBOL` with no host move pending, a step is `exec` of the symbol the window
decodes to, and nothing else. -/
def Obligations.StepRunsDecodedSymbol : Prop :=
  ∀ (s : State) (i : Instr), s.phase = .readSymbol → s.hostMoves = [] → wfTable s.par.table = true →
    decode s.par.table s.cur = .ok i → step s = exec i s

/-! ## The emission steps -/

/-- R178, R171: `EMIT_LITERAL` appends `LITB` to the output and returns to `READ_SYMBOL`; at the end of
the buffer it takes `OUTPUT_OVERRUN`. -/
def Obligations.EmitLiteralAppends : Prop :=
  ∀ s : State, EngineInv s → s.phase = .emitLiteral → s.hostMoves = [] → wfTable s.par.table = true →
    (s.wridx.toNat < s.osize.toNat → ∃ a m, Emitted s s.litb a m ∧ step s = .next { s with
        wridx := s.wridx + 1, acc := a, lastb := s.litb, omem := m, phase := .readSymbol }) ∧
    (s.wridx.toNat = s.osize.toNat → step s = .next { s with errcode := 0x22, phase := .error })

/-- R176, R225: one `EMIT_RUN` step: leave, or the source-side check, or the bound check, or one more
copy of `LASTB`. -/
def Obligations.EmitRunStepCases : Prop :=
  ∀ s : State, EngineInv s → s.phase = .emitRun → s.hostMoves = [] → wfTable s.par.table = true →
    (s.rem = 0 → step s = .next { s with phase := .readSymbol }) ∧
    (s.rem ≠ 0 → s.wridx = 0 → step s = .next { s with errcode := 0x42, phase := .error }) ∧
    (s.rem ≠ 0 → s.wridx ≠ 0 → s.wridx = s.osize →
      step s = .next { s with errcode := 0x22, phase := .error }) ∧
    (s.rem ≠ 0 → s.wridx ≠ 0 → s.wridx ≠ s.osize → ∃ a m, Emitted s s.lastb a m ∧
      step s = .next { s with wridx := s.wridx + 1, acc := a, omem := m, rem := s.rem - 1 })

/-- R177, R175, R225: one `EMIT_COPY` step: leave, or the source-side check, or the bound check, or one
more byte from `2 * SYM` back in the logical output. -/
def Obligations.EmitCopyStepCases : Prop :=
  ∀ s : State, EngineInv s → s.phase = .emitCopy → s.hostMoves = [] → wfTable s.par.table = true →
    (s.rem = 0 → step s = .next { s with phase := .readSymbol }) ∧
    (s.rem ≠ 0 → s.wridx.toNat < 2 * s.sym.toNat →
      step s = .next { s with errcode := 0x32, phase := .error }) ∧
    (s.rem ≠ 0 → 2 * s.sym.toNat ≤ s.wridx.toNat → s.wridx = s.osize →
      step s = .next { s with errcode := 0x22, phase := .error }) ∧
    (s.rem ≠ 0 → 2 * s.sym.toNat ≤ s.wridx.toNat → s.wridx ≠ s.osize → ∃ a m,
      Emitted s (outImage s (s.wridx.toNat - 2 * s.sym.toNat)) a m ∧ step s = .next { s with
        wridx := s.wridx + 1, acc := a, omem := m, rem := s.rem - 1
        lastb := outImage s (s.wridx.toNat - 2 * s.sym.toNat) })

/-! ## The symbols: their whole effect -/

/-- R142: the net effect of a `LIT` and its two exceptions in order. -/
def Obligations.LitWholeEffect : Prop :=
  ∀ (s : State) (b : Byte), EngineInv s → s.phase = .readSymbol → s.hostMoves = [] →
    wfTable s.par.table = true → decode s.par.table s.cur = .ok (.lit b) →
    (s.streamPos + 9 ≤ 32 * (s.n.toNat - 5) → s.wridx.toNat < s.osize.toNat →
      ∃ t, runs 2 s t ∧ t.phase = .readSymbol ∧ sameCall s t ∧ t.errcode = s.errcode ∧
        t.sym = s.sym ∧ t.rem = s.rem ∧ t.streamPos = s.streamPos + 9 ∧ t.lastb = b ∧
        t.wridx.toNat = s.wridx.toNat + 1 ∧
        (∀ j, outImage t j = if j = s.wridx.toNat then b else outImage s j)) ∧
    (32 * (s.n.toNat - 5) < s.streamPos + 9 →
      step s = .next { s with errcode := 0x12, phase := .error }) ∧
    (s.streamPos + 9 ≤ 32 * (s.n.toNat - 5) → s.wridx.toNat = s.osize.toNat →
      ∃ t, runs 2 s t ∧ t.phase = .error ∧ t.errcode = 0x22 ∧ t.streamPos = s.streamPos + 9)

/-- R148: the net effect of a `RUN` of `count` bytes and its exceptions in order. -/
def Obligations.RunWholeEffect : Prop :=
  ∀ (s : State) (p : BitVec 2) (xa : Word) (sr : BitVec 4) (xb : Word), EngineInv s →
    s.phase = .readSymbol → s.hostMoves = [] → wfTable s.par.table = true →
    decode s.par.table s.cur = .ok (.run p xa sr xb) →
    (32 * (s.n.toNat - 5) < s.streamPos + codedLength s.par.table p sr →
      step s = .next { s with errcode := 0x12, phase := .error }) ∧
    (s.streamPos + codedLength s.par.table p sr ≤ 32 * (s.n.toNat - 5) →
      ((repeatCount s.par.table p xa sr).toNat = 0 ∨ 1 ≤ s.wridx.toNat) →
      s.wridx.toNat + (repeatCount s.par.table p xa sr).toNat ≤ s.osize.toNat →
      ∃ t, runs ((repeatCount s.par.table p xa sr).toNat + 2) s t ∧ t.phase = .readSymbol ∧
        sameCall s t ∧ t.errcode = s.errcode ∧ t.litb = s.litb ∧
        t.streamPos = s.streamPos + codedLength s.par.table p sr ∧ t.lastb = s.lastb ∧
        t.wridx.toNat = s.wridx.toNat + (repeatCount s.par.table p xa sr).toNat ∧
        ∀ j, outImage t j =
          if s.wridx.toNat ≤ j ∧ j < s.wridx.toNat + (repeatCount s.par.table p xa sr).toNat then s.lastb
          else outImage s j) ∧
    (s.streamPos + codedLength s.par.table p sr ≤ 32 * (s.n.toNat - 5) →
      (repeatCount s.par.table p xa sr).toNat ≠ 0 → s.wridx.toNat = 0 →
      ∃ t, runs 2 s t ∧ t.phase = .error ∧ t.errcode = 0x42) ∧
    (s.streamPos + codedLength s.par.table p sr ≤ 32 * (s.n.toNat - 5) → 1 ≤ s.wridx.toNat →
      s.osize.toNat < s.wridx.toNat + (repeatCount s.par.table p xa sr).toNat →
      ∃ t, runs (s.osize.toNat - s.wridx.toNat + 2) s t ∧ t.phase = .error ∧ t.errcode = 0x22 ∧
        t.wridx = s.osize)

/-- R149, R179: the net effect of a `COPY` of `count` bytes at distance `d = 2 * sym`, which repeats the
`d` bytes before it, and its exceptions in order. -/
def Obligations.CopyWholeEffect : Prop :=
  ∀ (s : State) (p : BitVec 2) (xa : Word) (sr : BitVec 4) (xb : Word), EngineInv s →
    s.phase = .readSymbol → s.hostMoves = [] → wfTable s.par.table = true →
    decode s.par.table s.cur = .ok (.copy p xa sr xb) →
    (1 ≤ (symValue s.par.table sr xb).toNat ∧ 2 * (symValue s.par.table sr xb).toNat ≤ 0x20002) ∧
    (32 * (s.n.toNat - 5) < s.streamPos + codedLength s.par.table p sr →
      step s = .next { s with errcode := 0x12, phase := .error }) ∧
    (s.streamPos + codedLength s.par.table p sr ≤ 32 * (s.n.toNat - 5) →
      ((repeatCount s.par.table p xa sr).toNat = 0 ∨
        2 * (symValue s.par.table sr xb).toNat ≤ s.wridx.toNat) →
      s.wridx.toNat + (repeatCount s.par.table p xa sr).toNat ≤ s.osize.toNat →
      ∃ t, runs ((repeatCount s.par.table p xa sr).toNat + 2) s t ∧ t.phase = .readSymbol ∧
        sameCall s t ∧ t.errcode = s.errcode ∧ t.litb = s.litb ∧
        t.streamPos = s.streamPos + codedLength s.par.table p sr ∧
        t.wridx.toNat = s.wridx.toNat + (repeatCount s.par.table p xa sr).toNat ∧
        t.lastb = (if (repeatCount s.par.table p xa sr).toNat = 0 then s.lastb
          else outImage t (t.wridx.toNat - 1)) ∧
        ∀ j, outImage t j =
          if s.wridx.toNat ≤ j ∧ j < s.wridx.toNat + (repeatCount s.par.table p xa sr).toNat then
            outImage s (s.wridx.toNat - 2 * (symValue s.par.table sr xb).toNat +
              (j - s.wridx.toNat) % (2 * (symValue s.par.table sr xb).toNat))
          else outImage s j) ∧
    (s.streamPos + codedLength s.par.table p sr ≤ 32 * (s.n.toNat - 5) →
      (repeatCount s.par.table p xa sr).toNat ≠ 0 →
      s.wridx.toNat < 2 * (symValue s.par.table sr xb).toNat →
      ∃ t, runs 2 s t ∧ t.phase = .error ∧ t.errcode = 0x32) ∧
    (s.streamPos + codedLength s.par.table p sr ≤ 32 * (s.n.toNat - 5) →
      2 * (symValue s.par.table sr xb).toNat ≤ s.wridx.toNat →
      s.osize.toNat < s.wridx.toNat + (repeatCount s.par.table p xa sr).toNat →
      ∃ t, runs (s.osize.toNat - s.wridx.toNat + 2) s t ∧ t.phase = .error ∧ t.errcode = 0x22 ∧
        t.wridx = s.osize)

/-- R150, R68, R66: when the engine reaches `TERMINATE`, the bytes emitted are in OMEM, zeros follow up
to `OSIZE`, every byte from `OSIZE` up is as it was, and nothing but OMEM and `PHASE` changed. -/
def Obligations.TerminateLeavesResult : Prop :=
  ∀ s t : State, EngineInv s → s.hostMoves = [] → s.phase ≠ .terminate → step s = .next t →
    t.phase = .terminate →
    t = { s with omem := t.omem, phase := .terminate } ∧
      (∀ j, j < s.wridx.toNat → t.omem.read j = outImage s j) ∧
      (∀ j, s.wridx.toNat ≤ j → j < s.osize.toNat → t.omem.read j = 0) ∧
      (∀ j, s.osize.toNat ≤ j → t.omem.read j = s.omem.read j)

/-! ## The controller -/

/-- R192: `START` is accepted in `IDLE`, `TERMINATE` and `ERROR` and writes `ERRCODE` and `PHASE` only; in any
other phase, and for a value with bit 0 = 0, the write of `CTRL` has no effect. (Of `errStores`, which no rule
names, nothing is said at a `START`.) -/
def Obligations.StartCommand : Prop :=
  ∀ (s : State) (v : Word) (rest : List HostMove), s.hostMoves = .writeReg 0 v :: rest →
    if v.getLsbD 0 = true ∧ (s.phase = .idle ∨ s.phase = .terminate ∨ s.phase = .error) then
      ∃ l, step s = .next { s with errcode := 0, phase := .validate, hostMoves := rest, errStores := l }
    else step s = .next { s with hostMoves := rest }

/-- R193: the checks of `VALIDATE` in their order, and what it latches; frame. -/
def Obligations.ValidateChecksInOrder : Prop :=
  ∀ s : State, s.phase = .validate → s.hostMoves = [] → wfTable s.par.table = true →
    s.inLen.toNat ≤ s.par.inCap →
    (s.inLen.toNat % 4 ≠ 0 → step s = .next { s with errcode := 0x11, phase := .error }) ∧
    (s.inLen.toNat % 4 = 0 → s.inLen.toNat / 4 ≤ 5 →
      step s = .next { s with errcode := 0x21, phase := .error }) ∧
    (s.inLen.toNat % 4 = 0 → 5 < s.inLen.toNat / 4 → s.imem.readWord 0 ≠ s.par.signature →
      step s = .next { s with errcode := 0x31, phase := .error }) ∧
    (s.inLen.toNat % 4 = 0 → 5 < s.inLen.toNat / 4 → s.imem.readWord 0 = s.par.signature →
      s.imem.readWord (4 * (s.inLen.toNat / 4 - 1)) ≠ s.par.signature →
      step s = .next { s with errcode := 0x41, phase := .error }) ∧
    (s.inLen.toNat % 4 = 0 → 5 < s.inLen.toNat / 4 → s.imem.readWord 0 = s.par.signature →
      s.imem.readWord (4 * (s.inLen.toNat / 4 - 1)) = s.par.signature →
      (s.imem.readWord 8).toNat ≤ s.par.outCap →
      step s = .next { s with
        n := BitVec.ofNat 30 (s.inLen.toNat / 4), osize := s.imem.readWord 8, phase := .prepare })

/-- R194, R48, R121: `PREPARE` zero-fills exactly `OMEM[0 .. OSIZE-1]`, loads the window and clears the
output registers; `LASTB`, `LITB`, `SYM`, `REM` and the rest are not written. -/
def Obligations.PrepareInitialises : Prop :=
  ∀ s : State, s.phase = .prepare → s.hostMoves = [] → wfTable s.par.table = true → 20 ≤ s.par.inCap →
    s.osize.toNat ≤ s.par.outCap →
    ∃ m : Memory, step s = .next { s with
        cur := s.imem.readWord 12, la := s.imem.readWord 16, cnt := 32, rdcur := 5, wridx := 0, acc := 0
        omem := m, phase := .readSymbol } ∧
      (∀ a, m.read a = if a < s.osize.toNat then 0 else s.omem.read a) ∧
      ∀ t, step s = .next t → t.streamPos = 0 ∧ LaneInv t ∧ (6 ≤ s.n.toNat → WindowInv t)

/-- R196, R197, R191: in `IDLE`, `TERMINATE` and `ERROR` nothing changes until a host's move. -/
def Obligations.HaltedStandsStill : Prop :=
  ∀ s : State, halted s → s.hostMoves = [] → step s = .next s

/-- R191, R193, R141, R124, R176 to R178: the transitions of `PHASE` by the engine, with the condition of
each row, and the code of each row that ends in `ERROR`. -/
def Obligations.PhaseTransitions : Prop :=
  ∀ s t : State, s.hostMoves = [] → step s = .next t →
    match s.phase with
    | .idle => t.phase = .idle
    | .terminate => t.phase = .terminate
    | .error => t.phase = .error
    | .validate =>
      (s.inLen.toNat % 4 ≠ 0 ∧ t.phase = .error ∧ t.errcode = 0x11) ∨
      (s.inLen.toNat % 4 = 0 ∧ s.inLen.toNat / 4 ≤ 5 ∧ t.phase = .error ∧ t.errcode = 0x21) ∨
      (s.inLen.toNat % 4 = 0 ∧ 5 < s.inLen.toNat / 4 ∧ s.imem.readWord 0 ≠ s.par.signature ∧
        t.phase = .error ∧ t.errcode = 0x31) ∨
      (s.inLen.toNat % 4 = 0 ∧ 5 < s.inLen.toNat / 4 ∧ s.imem.readWord 0 = s.par.signature ∧
        s.imem.readWord (4 * (s.inLen.toNat / 4 - 1)) ≠ s.par.signature ∧
        t.phase = .error ∧ t.errcode = 0x41) ∨
      (s.inLen.toNat % 4 = 0 ∧ 5 < s.inLen.toNat / 4 ∧ s.imem.readWord 0 = s.par.signature ∧
        s.imem.readWord (4 * (s.inLen.toNat / 4 - 1)) = s.par.signature ∧ t.phase = .prepare)
    | .prepare => t.phase = .readSymbol
    | .readSymbol => ∃ i, decode s.par.table s.cur = .ok i ∧
      ((∃ p xa sr xb, i = .endSym p xa sr xb) ∧ t.phase = .terminate ∨
        (∀ p xa sr xb, i ≠ .endSym p xa sr xb) ∧
          (s.cnt.toNat < symbolLength s.par.table i ∧ s.n.toNat ≤ s.rdcur.toNat + 1 ∧
              t.phase = .error ∧ t.errcode = 0x12 ∨
            (symbolLength s.par.table i ≤ s.cnt.toNat ∨ s.rdcur.toNat + 1 < s.n.toNat) ∧
              ((∃ b, i = .lit b) ∧ t.phase = .emitLiteral ∨
                (∃ p xa sr xb, i = .run p xa sr xb) ∧ t.phase = .emitRun ∨
                (∃ p xa sr xb, i = .copy p xa sr xb) ∧ t.phase = .emitCopy)))
    | .emitLiteral =>
      (s.wridx.toNat < s.osize.toNat ∧ t.phase = .readSymbol) ∨
      (s.osize.toNat ≤ s.wridx.toNat ∧ t.phase = .error ∧ t.errcode = 0x22)
    | .emitRun =>
      (s.rem = 0 ∧ t.phase = .readSymbol) ∨
      (s.rem ≠ 0 ∧ s.wridx = 0 ∧ t.phase = .error ∧ t.errcode = 0x42) ∨
      (s.rem ≠ 0 ∧ s.wridx ≠ 0 ∧ s.osize.toNat ≤ s.wridx.toNat ∧ t.phase = .error ∧ t.errcode = 0x22) ∨
      (s.rem ≠ 0 ∧ s.wridx ≠ 0 ∧ s.wridx.toNat < s.osize.toNat ∧ t.phase = .emitRun ∧
        t.wridx = s.wridx + 1)
    | .emitCopy =>
      (s.rem = 0 ∧ t.phase = .readSymbol) ∨
      (s.rem ≠ 0 ∧ s.wridx.toNat < 2 * s.sym.toNat ∧ t.phase = .error ∧ t.errcode = 0x32) ∨
      (s.rem ≠ 0 ∧ 2 * s.sym.toNat ≤ s.wridx.toNat ∧ s.osize.toNat ≤ s.wridx.toNat ∧
        t.phase = .error ∧ t.errcode = 0x22) ∨
      (s.rem ≠ 0 ∧ 2 * s.sym.toNat ≤ s.wridx.toNat ∧ s.wridx.toNat < s.osize.toNat ∧
        t.phase = .emitCopy ∧ t.wridx = s.wridx + 1)

/-- R226: a faulting step changes only `ERRCODE`, to one of the eight codes, and `PHASE`. -/
def Obligations.FaultingStepChangesErrorOnly : Prop :=
  ∀ s t : State, s.hostMoves = [] → s.phase ≠ .error → step s = .next t → t.phase = .error →
    ∃ e : Exc, t = { s with errcode := e.code, phase := .error }

/-- R38, R220 to R224: each exception's code, with `CLASS` in bits 1:0 and `DETAIL` in bits 6:4. -/
def Obligations.ErrorCodes : Prop :=
  (Exc.formatError .lenMisaligned).code = 0x11 ∧ (Exc.formatError .tooFewWords).code = 0x21 ∧
    (Exc.formatError .badHeadSignature).code = 0x31 ∧ (Exc.formatError .badTailSignature).code = 0x41 ∧
    (Exc.corruptStream .payloadOverrun).code = 0x12 ∧ (Exc.corruptStream .outputOverrun).code = 0x22 ∧
    (Exc.corruptStream .backrefBeforeStart).code = 0x32 ∧
    (Exc.corruptStream .runWithoutPrevious).code = 0x42 ∧
    ∀ e : Exc, (errClass e.code).toNat = e.classCode.toNat ∧ (errDetail e.code).toNat = e.detailCode.toNat

/-! ## Invariants and safety -/

/-- `EngineInv` holds at reset (the reset values of log 2 and log 3 are the model's choice). -/
def Obligations.ResetMeetsEngineInv : Prop := EngineInv State.reset

/-- R47, R250: after hardware reset `PHASE` is `IDLE`, `ERRCODE`, `IN_LEN` and `STATUS` are 0. -/
def Obligations.ResetRegisters : Prop :=
  State.reset.phase = .idle ∧ State.reset.errcode = 0 ∧ State.reset.inLen = 0 ∧ State.reset.status = 0

/-- Every step, of the engine or of the host, keeps `EngineInv`: the canonical memories, `ERRCODE` (R38),
`INV_WINDOW` (R25, R126), `INV_ACC` (R173), the ranges of `WRIDX`, `RDCUR`, `CNT`, `SYM` (R23, R24, R26,
R29), `LASTB` (R28), and the model's own note of the host's stores (log 23). -/
def Obligations.StepKeepsEngineInv : Prop :=
  ∀ s t : State, EngineInv s → step s = .next t → EngineInv t

/-- From a state with `EngineInv` the engine never faults, and it refuses only a table without
`WF_TABLE` (R41) and a container beyond the capacities. That such a container is outside the model is
R66's; that the refusal comes at `VALIDATE`, `IN_LEN` first and word 2 last, is the MODEL'S CHOICE (log 12):
R66 and U2 name no step. -/
def Obligations.EngineNeverFaults : Prop :=
  ∀ s : State, EngineInv s → s.hostMoves = [] →
    (∀ f, step s ≠ .fault f) ∧
    ∀ r, step s = .refused r →
      (r = .tableNotWellFormed ∧ wfTable s.par.table = false) ∨
      (r = .containerExceedsInCap ∧ s.phase = .validate ∧ s.par.inCap < s.inLen.toNat) ∨
      (r = .outputExceedsOutCap ∧ s.phase = .validate ∧ s.par.outCap < (s.imem.readWord 8).toNat)

/-- R43, R44, R69: an engine step writes no byte of IMEM, no host register but `ERRCODE`, no parameter, and
no byte of OMEM at `OSIZE` or above. -/
def Obligations.EngineStaysInBuffer : Prop :=
  ∀ s t : State, EngineInv s → s.hostMoves = [] → step s = .next t →
    t.imem = s.imem ∧ t.inLen = s.inLen ∧ t.par = s.par ∧ t.hostMoves = [] ∧
      t.hostData = s.hostData ∧ t.freeIdx = s.freeIdx ∧ t.errStores = s.errStores ∧
      ∀ a, s.osize.toNat ≤ a → t.omem.read a = s.omem.read a

/-- R127, R69, R65: a decode step's only use of IMEM is word `RDCUR`: with any other IMEM that agrees on
that word the step is the same. -/
def Obligations.DecodeReadsNextWordOnly : Prop :=
  ∀ (s t : State) (m : Memory), decoding s.phase = true → s.hostMoves = [] →
    m.readWord (4 * s.rdcur.toNat) = s.imem.readWord (4 * s.rdcur.toNat) → step s = .next t →
    step { s with imem := m } = .next { t with imem := m }

/-- R20, R40: no step, of the engine or of the host, changes the parameters. -/
def Obligations.ParametersNeverChange : Prop :=
  ∀ s t : State, step s = .next t → t.par = s.par

/-! ## The run of a call -/

/-- R199: every call halts, after at most `(32 * (N - 4)) / 7 + 1` decode steps. -/
def Obligations.EveryCallHalts : Prop :=
  ∀ s : State, EngineInv s → s.phase = .validate → s.hostMoves = [] → wfTable s.par.table = true →
    s.inLen.toNat ≤ s.par.inCap → (s.imem.readWord 8).toNat ≤ s.par.outCap →
    ∃ k t, runs k s t ∧ (t.phase = .terminate ∨ t.phase = .error) ∧
      symbolSteps k s ≤ decodeBound (s.inLen.toNat / 4)

/-- R201, R180: the phase machine computes `decompress`, the run as one function over the abstract stream
and a byte-array output; the recursion's fuel, the bound of R199, never runs out. Which check comes first
where a container beyond the capacities also fails one of R193's is the model's choice (log 12). -/
def Obligations.CallComputesDecompress : Prop :=
  ∀ s : State, EngineInv s → s.phase = .validate → s.hostMoves = [] →
    match decompress s with
    | .done out => ∃ k t, runs k s t ∧ t.phase = .terminate ∧ t.wridx.toNat = out.length ∧
        t.osize = s.imem.readWord 8 ∧ ∀ j, j < t.osize.toNat → t.omem.read j = out.getD j 0
    | .failed e => ∃ k t, runs k s t ∧ t.phase = .error ∧ t.errcode = e.code
    | .refused r => ∃ k t, runs k s t ∧ step t = .refused r
    | .outOfFuel => False

/-- R204: two calls on the same container, length and parameters end alike, whatever the registers and
OMEM held before: the same final phase and `ERRCODE`, and on `DONE` the same `OUT_LEN`, `OUT_SIZE` and
result bytes. -/
def Obligations.NoStatePersists : Prop :=
  ∀ (s s' t : State) (k : Nat), EngineInv s → EngineInv s' → s.phase = .validate →
    s'.phase = .validate → s.hostMoves = [] → s'.hostMoves = [] →
    s'.imem = s.imem → s'.inLen = s.inLen → s'.par = s.par →
    runs k s t → (t.phase = .terminate ∨ t.phase = .error) →
    ∃ t', runs k s' t' ∧ t'.phase = t.phase ∧ t'.errcode = t.errcode ∧
      (t.phase = .terminate → t'.wridx = t.wridx ∧ t'.osize = t.osize ∧
        ∀ j, j < t.osize.toNat → t'.omem.read j = t.omem.read j)

/-! ## The host -/

/-- R34, R31: `STATUS` and its flags, as R34 words them, with `PHASE` numbered as in R31's table. -/
def Obligations.StatusFollowsPhase : Prop :=
  ∀ s : State,
    s.status.toNat = (if s.busy then 1 else 0) + (if s.done then 2 else 0) + (if s.failed then 4 else 0) +
        (if s.mismatch then 8 else 0) + 16 *
          (match s.phase with
          | .idle => 0
          | .validate => 1
          | .prepare => 2
          | .readSymbol => 3
          | .emitLiteral => 4
          | .emitRun => 5
          | .emitCopy => 6
          | .terminate => 7
          | .error => 8) ∧
      (s.busy = true ↔ s.phase = .validate ∨ s.phase = .prepare ∨ s.phase = .readSymbol ∨
        s.phase = .emitLiteral ∨ s.phase = .emitRun ∨ s.phase = .emitCopy) ∧
      (s.done = true ↔ s.phase = .terminate) ∧ (s.failed = true ↔ s.phase = .error) ∧
      (s.mismatch = true ↔ s.phase = .terminate ∧ s.wridx ≠ s.osize) ∧
      ¬ (s.busy = true ∧ s.done = true) ∧ ¬ (s.busy = true ∧ s.failed = true) ∧
      ¬ (s.done = true ∧ s.failed = true) ∧
      (s.phase = .idle ↔ s.busy = false ∧ s.done = false ∧ s.failed = false)

/-- R35: `IN_LEN` takes any value while the engine is not busy; a write while it is busy is ignored. -/
def Obligations.InLenWrite : Prop :=
  ∀ (s : State) (v : Word) (rest : List HostMove), s.hostMoves = .writeReg 2 v :: rest →
    step s = .next (if s.busy then { s with hostMoves := rest }
      else { s with inLen := v, hostMoves := rest })

/-- R33 to R38, R197: what a read returns of `STATUS` always, of `OUT_SIZE` when the engine is done or has failed
with a `CorruptStream`, of `OUT_LEN` when it is done, of `CTRL`, `IN_LEN` and `ERRCODE` when it is not busy; the
reading changes nothing of the engine. -/
def Obligations.ResultRegisterReads : Prop :=
  ∀ (s : State) (rest : List HostMove),
    (s.hostMoves = .readReg 1 :: rest → step s = .next { s with hostData := s.status, hostMoves := rest }) ∧
    (s.hostMoves = .readReg 0 :: rest → s.busy = false →
      step s = .next { s with hostData := 0, hostMoves := rest }) ∧
    (s.hostMoves = .readReg 2 :: rest → s.busy = false →
      step s = .next { s with hostData := s.inLen, hostMoves := rest }) ∧
    (s.hostMoves = .readReg 3 :: rest →
      s.phase = .terminate ∨ s.phase = .error ∧ s.errcode.extractLsb' 0 2 = 2#2 →
      step s = .next { s with hostData := s.osize, hostMoves := rest }) ∧
    (s.hostMoves = .readReg 4 :: rest → s.phase = .terminate →
      step s = .next { s with hostData := s.wridx, hostMoves := rest }) ∧
    (s.hostMoves = .readReg 5 :: rest → s.busy = false →
      step s = .next { s with hostData := s.errcode, hostMoves := rest })

/-- R61, R62, R203: a word the host writes to IMEM or OMEM while the engine is not busy is what it reads back,
its byte `k` is at address `4*i + k`, and the other bytes are unchanged; in IMEM it is what `InWord` reads.
That the host's own store reads back in `ERROR` too is read from R203 against U4, and that `errStores` notes its
addresses of OMEM there and nothing in another phase is THE MODEL'S CHOICE (log 23). -/
def Obligations.HostWordIsLittleEndian : Prop :=
  ∀ (s : State) (sp : Space) (i : Nat) (v : Word), s.imem.wf = true → s.omem.wf = true → s.busy = false →
    s.hostMoves = [.writeWord sp i v, .readWord sp i] →
    4 * i + 4 ≤ (match sp with | .imem => s.par.inCap | .omem => s.par.outCap) →
    ∃ m : Memory, m.wf = true ∧
      v.toNat = (m.read (4 * i)).toNat + 256 * (m.read (4 * i + 1)).toNat +
        65536 * (m.read (4 * i + 2)).toNat + 16777216 * (m.read (4 * i + 3)).toNat ∧
      match sp with
      | .imem => runs 2 s { s with imem := m, hostMoves := [], hostData := v } ∧
          inWord { s with imem := m } i = .ok v ∧
          ∀ a, a < 4 * i ∨ 4 * i + 4 ≤ a → m.read a = s.imem.read a
      | .omem => ∃ l, runs 2 s { s with omem := m, hostMoves := [], hostData := v, errStores := l } ∧
          (s.phase ≠ .error → l = s.errStores) ∧
          (∀ x, x ∈ l ↔ s.phase = .error ∧ 4 * i ≤ x ∧ x < 4 * i + 4 ∨ x ∈ s.errStores) ∧
          ∀ a, a < 4 * i ∨ 4 * i + 4 ≤ a → m.read a = s.omem.read a

/-- R203, U9: while the engine is busy the host has no move on IMEM or OMEM. -/
def Obligations.HostMemoryRefusedWhileBusy : Prop :=
  ∀ (s : State) (sp : Space) (a : Nat) (b : Byte) (v : Word) (rest : List HostMove), s.busy = true →
    (s.hostMoves = .readByte sp a :: rest ∨ s.hostMoves = .writeByte sp a b :: rest ∨
      s.hostMoves = .readWord sp a :: rest ∨ s.hostMoves = .writeWord sp a v :: rest) →
    step s = .refused .hostMemoryAccessWhileBusy

/-- R203, R36, R37, U3, U4: a read the spec leaves unspecified completes: it returns the free value named by
the counter, whatever that is, and counts on; nothing else changes. THE MODEL'S CHOICE: the form of the free
value and its counter (log 6), a byte read returning one byte of it, zero-extended (logs 5 and 6), and a word
read in `ERROR` returning as stored the bytes `errStores` notes and free bytes elsewhere (log 23). That `CTRL`,
`IN_LEN` and `ERRCODE` are unspecified while busy is read from R203 and U3 (log 7). -/
def Obligations.UnspecifiedReadsAreFree : Prop :=
  ∀ (s : State) (no a : Nat) (rest : List HostMove),
    (s.hostMoves = .readReg no :: rest →
        ((no = 0 ∨ no = 2 ∨ no = 3 ∨ no = 4 ∨ no = 5) ∧ s.busy = true ∨
          (no = 3 ∨ no = 4) ∧ s.phase = .idle ∨ no = 4 ∧ s.phase = .error ∨
          no = 3 ∧ s.phase = .error ∧ s.errcode.extractLsb' 0 2 = 1#2) →
      step s = .next { s with
        hostData := Config.unspecifiedRead s.freeIdx, freeIdx := s.freeIdx + 1, hostMoves := rest }) ∧
    (s.hostMoves = .readByte .omem a :: rest → a < s.par.outCap → s.phase = .error → a ∉ s.errStores →
      step s = .next { s with
        hostData := ((Config.unspecifiedRead s.freeIdx).setWidth 8).setWidth 32
        freeIdx := s.freeIdx + 1, hostMoves := rest }) ∧
    (s.hostMoves = .readWord .omem a :: rest → 4 * a + 4 ≤ s.par.outCap → s.phase = .error →
      (∃ k < 4, 4 * a + k ∉ s.errStores) →
      ∃ v : Word, step s = .next { s with hostData := v, freeIdx := s.freeIdx + 1, hostMoves := rest } ∧
        ∀ k < 4, v.extractLsb' (8 * k) 8 =
          if 4 * a + k ∈ s.errStores then s.omem.read (4 * a + k)
          else (Config.unspecifiedRead s.freeIdx).extractLsb' (8 * k) 8)

/-- R196, R203, R61, R62: while the engine is not busy a byte the host reads from IMEM or OMEM is the byte that
stands there, zero-extended, and a word is its four bytes, the lowest address in the lowest bits; nothing
of the engine changes. R196 gives this of OMEM at `TERMINATE`, below `OSIZE`. THE MODEL'S CHOICE: that outside
`ERROR` every other address of OMEM, `OSIZE` and above included, reads as what stands there, whatever a failed
call or a reset left (logs 25 and 3); and the clauses on `ERROR`, where this is said of the bytes `errStores`
notes as stored there by the host, and of no other (log 23). -/
def Obligations.HostReadsResult : Prop :=
  ∀ (s : State) (rest : List HostMove) (a : Nat), s.busy = false →
    (s.hostMoves = .readByte .imem a :: rest → a < s.par.inCap →
      step s = .next { s with hostData := (s.imem.read a).setWidth 32, hostMoves := rest }) ∧
    (s.hostMoves = .readWord .imem a :: rest → 4 * a + 4 ≤ s.par.inCap →
      ∃ v : Word, step s = .next { s with hostData := v, hostMoves := rest } ∧
        v.toNat = (s.imem.read (4 * a)).toNat + 256 * (s.imem.read (4 * a + 1)).toNat +
          65536 * (s.imem.read (4 * a + 2)).toNat + 16777216 * (s.imem.read (4 * a + 3)).toNat) ∧
    (s.hostMoves = .readByte .omem a :: rest → a < s.par.outCap → (s.phase = .error → a ∈ s.errStores) →
      step s = .next { s with hostData := (s.omem.read a).setWidth 32, hostMoves := rest }) ∧
    (s.hostMoves = .readWord .omem a :: rest → 4 * a + 4 ≤ s.par.outCap →
      (s.phase = .error → ∀ k < 4, 4 * a + k ∈ s.errStores) →
      ∃ v : Word, step s = .next { s with hostData := v, hostMoves := rest } ∧
        v.toNat = (s.omem.read (4 * a)).toNat + 256 * (s.omem.read (4 * a + 1)).toNat +
          65536 * (s.omem.read (4 * a + 2)).toNat + 16777216 * (s.omem.read (4 * a + 3)).toNat)

/-- R250: hardware reset, in any state: `PHASE = IDLE`, `ERRCODE = 0`, `IN_LEN = 0`, `STATUS` reads 0, the
parameters stay. The values of the other registers and memories are the model's choice (log 18) and
nothing is stated of them. -/
def Obligations.HardwareResetMove : Prop :=
  ∀ (s : State) (rest : List HostMove), s.hostMoves = .reset :: rest →
    ∃ t, step s = .next t ∧ t.phase = .idle ∧ t.errcode = 0 ∧ t.inLen = 0 ∧ t.status = 0 ∧
      t.par = s.par ∧ t.hostMoves = rest

/-- The model's choice (log 15): a write of a read-only register is ignored, in every phase, and a register
number above 5 does not exist. -/
def Obligations.OtherRegisterNumbers : Prop :=
  ∀ (s : State) (no : Nat) (v : Word) (rest : List HostMove),
    (s.hostMoves = .writeReg no v :: rest → (no = 1 ∨ no = 3 ∨ no = 4 ∨ no = 5) →
      step s = .next { s with hostMoves := rest }) ∧
    ((s.hostMoves = .writeReg no v :: rest ∨ s.hostMoves = .readReg no :: rest) → 6 ≤ no →
      step s = .fault (.noSuchRegister no))

/-- R203, R61: a byte the host writes to IMEM or OMEM while the engine is not busy stands at its address and
every other byte and register is as before. THE MODEL'S CHOICE (log 23): in `ERROR` its address in OMEM is noted
in `errStores` as the host's own, so that it reads back, and in another phase nothing is noted. -/
def Obligations.HostByteStores : Prop :=
  ∀ (s : State) (a : Nat) (b : Byte) (rest : List HostMove), s.busy = false →
    (s.imem.wf = true → s.hostMoves = .writeByte .imem a b :: rest → a < s.par.inCap →
      ∃ m : Memory, step s = .next { s with imem := m, hostMoves := rest } ∧ m.wf = true ∧
        ∀ j, m.read j = if j = a then b else s.imem.read j) ∧
    (s.omem.wf = true → s.hostMoves = .writeByte .omem a b :: rest → a < s.par.outCap →
      ∃ (m : Memory) (l : List Nat),
        step s = .next { s with omem := m, hostMoves := rest, errStores := l } ∧ m.wf = true ∧
        (∀ j, m.read j = if j = a then b else s.omem.read j) ∧ (s.phase ≠ .error → l = s.errStores) ∧
        ∀ x, x ∈ l ↔ s.phase = .error ∧ x = a ∨ x ∈ s.errStores)
end

