-- ==== Sys2Proof/Laws/Memory.lean ====
section
/-! SUPPORT. The laws of memory: a read after a write, and the canonical form that every operation
keeps. -/

namespace Sys2Proof.Machine

@[simp] theorem Memory.read_nil (a : Nat) : Memory.read [] a = Memory.unlisted := rfl

theorem Memory.read_cons (k : Nat) (v : Byte) (rest : Memory) (a : Nat) :
    Memory.read ((k, v) :: rest) a = if k = a then v else Memory.read rest a := rfl

/-- The canonical form of a cons, as propositions. -/
theorem Memory.wfAbove_cons (lo k : Nat) (v : Byte) (rest : Memory) :
    Memory.wfAbove lo ((k, v) :: rest) = true ↔
      lo ≤ k ∧ v ≠ Memory.unlisted ∧ Memory.wfAbove (k + 1) rest = true := by
  simp [Memory.wfAbove, and_assoc]

theorem Memory.wfAbove_mono {lo lo' : Nat} {m : Memory} (h : lo' ≤ lo) (w : m.wfAbove lo = true) :
    m.wfAbove lo' = true := by
  cases m with
  | nil => rfl
  | cons c rest =>
    obtain ⟨k, v⟩ := c
    rw [Memory.wfAbove_cons] at w ⊢
    exact ⟨h.trans w.1, w.2⟩

/-- Below its first address a canonical memory reads as unlisted. -/
theorem Memory.read_below {lo : Nat} {m : Memory} (w : m.wfAbove lo = true) {a : Nat} (h : a < lo) :
    m.read a = Memory.unlisted := by
  induction m generalizing lo with
  | nil => rfl
  | cons c rest ih =>
    obtain ⟨k, v⟩ := c
    rw [Memory.wfAbove_cons] at w
    rw [Memory.read_cons, if_neg (by omega)]
    exact ih w.2.2 (by omega)

theorem Memory.wfAbove_consCell {lo a : Nat} {b : Byte} {rest : Memory} (h : lo ≤ a)
    (w : rest.wfAbove (a + 1) = true) : (Memory.consCell a b rest).wfAbove lo = true := by
  unfold Memory.consCell
  split
  · exact Memory.wfAbove_mono (by omega) w
  · rename_i hb
    rw [Memory.wfAbove_cons]
    exact ⟨h, hb, w⟩

theorem Memory.wfAbove_write {lo a : Nat} {b : Byte} {m : Memory} (h : lo ≤ a) (w : m.wfAbove lo = true) :
    (m.write a b).wfAbove lo = true := by
  induction m generalizing lo with
  | nil => exact Memory.wfAbove_consCell h rfl
  | cons c rest ih =>
    obtain ⟨k, v⟩ := c
    have w' := (Memory.wfAbove_cons lo k v rest).mp w
    unfold Memory.write
    split
    · rename_i hlt
      exact Memory.wfAbove_consCell h ((Memory.wfAbove_cons _ k v rest).mpr ⟨by omega, w'.2⟩)
    · split
      · rename_i heq
        exact Memory.wfAbove_consCell h (by subst heq; exact w'.2.2)
      · rw [Memory.wfAbove_cons]
        exact ⟨w'.1, w'.2.1, ih (by omega) w'.2.2⟩

/-- A write keeps the canonical form. -/
theorem Memory.wf_write {m : Memory} (w : m.wf = true) (a : Nat) (b : Byte) : (m.write a b).wf = true :=
  Memory.wfAbove_write (Nat.zero_le a) w

theorem Memory.read_consCell {a : Nat} {b : Byte} {rest : Memory} (w : rest.wfAbove (a + 1) = true)
    (c : Nat) : (Memory.consCell a b rest).read c = if a = c then b else rest.read c := by
  unfold Memory.consCell
  split
  · rename_i hb
    split
    · rename_i hac
      rw [hb]
      exact Memory.read_below w (by omega)
    · rfl
  · rfl

theorem Memory.read_write_above {lo a : Nat} {b : Byte} {m : Memory} (w : m.wfAbove lo = true) (c : Nat) :
    (m.write a b).read c = if a = c then b else m.read c := by
  induction m generalizing lo with
  | nil => exact Memory.read_consCell rfl c
  | cons cell rest ih =>
    obtain ⟨k, v⟩ := cell
    have w' := (Memory.wfAbove_cons lo k v rest).mp w
    unfold Memory.write
    split
    · rename_i hlt
      exact Memory.read_consCell ((Memory.wfAbove_cons _ k v rest).mpr ⟨by omega, w'.2⟩) c
    · split
      · rename_i heq
        subst heq
        rw [Memory.read_consCell w'.2.2, Memory.read_cons]
        split <;> rfl
      · rename_i hne
        rw [Memory.read_cons, Memory.read_cons, ih w'.2.2]
        by_cases hk : k = c
        · rw [if_pos hk, if_pos hk, if_neg (by omega)]
        · rw [if_neg hk, if_neg hk]

/-- A read after a write: the byte written at its address, every other byte as before. -/
theorem Memory.read_write {m : Memory} (w : m.wf = true) (a : Nat) (b : Byte) (c : Nat) :
    (m.write a b).read c = if a = c then b else m.read c :=
  Memory.read_write_above w c

theorem Memory.wf_writeEnabled {m : Memory} (w : m.wf = true) (a : Nat) (v : Word) (be : BitVec 4) (k : Nat) :
    (m.writeEnabled a v be k).wf = true := by
  unfold Memory.writeEnabled
  split
  · exact Memory.wf_write w _ _
  · exact w

theorem Memory.read_writeEnabled {m : Memory} (w : m.wf = true) (a : Nat) (v : Word) (be : BitVec 4)
    (k c : Nat) :
    (m.writeEnabled a v be k).read c = if be.getLsbD k = true ∧ a + k = c then byteOf v k else m.read c := by
  unfold Memory.writeEnabled
  by_cases h : be.getLsbD k = true
  · simp [h, Memory.read_write w]
  · simp [h]

/-- A masked word write keeps the canonical form. -/
theorem Memory.wf_writeMasked {m : Memory} (w : m.wf = true) (a : Nat) (v : Word) (be : BitVec 4) :
    (m.writeMasked a v be).wf = true := by
  unfold Memory.writeMasked
  exact Memory.wf_writeEnabled (Memory.wf_writeEnabled (Memory.wf_writeEnabled
    (Memory.wf_writeEnabled w a v be 0) a v be 1) a v be 2) a v be 3

/-- A masked word write, byte by byte: the enabled bytes of the word, every other byte as before. -/
theorem Memory.read_writeMasked {m : Memory} (w : m.wf = true) (a : Nat) (v : Word) (be : BitVec 4) (c : Nat) :
    (m.writeMasked a v be).read c =
      if a ≤ c ∧ c < a + 4 ∧ be.getLsbD (c - a) = true then byteOf v (c - a) else m.read c := by
  have w0 := Memory.wf_writeEnabled w a v be 0
  have w1 := Memory.wf_writeEnabled w0 a v be 1
  have w2 := Memory.wf_writeEnabled w1 a v be 2
  unfold Memory.writeMasked
  rw [Memory.read_writeEnabled w2, Memory.read_writeEnabled w1, Memory.read_writeEnabled w0,
    Memory.read_writeEnabled w]
  by_cases hr : a ≤ c ∧ c < a + 4
  · obtain ⟨k, rfl⟩ : ∃ k, c = a + k := ⟨c - a, by omega⟩
    have hk : k < 4 := by omega
    rw [Nat.add_sub_cancel_left]
    interval_cases k <;> simp
  · rw [if_neg (by omega), if_neg (by omega), if_neg (by omega), if_neg (by omega),
      if_neg (fun h => hr ⟨h.1, h.2.1⟩)]

theorem Memory.wf_writeWord {m : Memory} (w : m.wf = true) (a : Nat) (v : Word) : (m.writeWord a v).wf = true :=
  Memory.wf_writeMasked w a v _

theorem Memory.wfAbove_filter {lo : Nat} {m : Memory} (w : m.wfAbove lo = true) (n : Nat) :
    (m.zeroFill n).wfAbove lo = true := by
  induction m generalizing lo with
  | nil => rfl
  | cons c rest ih =>
    obtain ⟨k, v⟩ := c
    rw [Memory.wfAbove_cons] at w
    unfold Memory.zeroFill at ih ⊢
    by_cases h : n ≤ k
    · rw [List.filter_cons_of_pos (by simpa using h), Memory.wfAbove_cons]
      exact ⟨w.1, w.2.1, ih w.2.2⟩
    · rw [List.filter_cons_of_neg (by simpa using h)]
      exact Memory.wfAbove_mono (by omega) (ih w.2.2)

/-- The zero-fill keeps the canonical form. -/
theorem Memory.wf_zeroFill {m : Memory} (w : m.wf = true) (n : Nat) : (m.zeroFill n).wf = true :=
  Memory.wfAbove_filter w n

/-- The zero-fill of `0 .. n - 1`: those bytes read 0, every other byte as before (R194, D26). -/
theorem Memory.read_zeroFill (m : Memory) (n a : Nat) :
    (m.zeroFill n).read a = if a < n then 0 else m.read a := by
  induction m with
  | nil => simp [Memory.zeroFill, Memory.unlisted]
  | cons c rest ih =>
    obtain ⟨k, v⟩ := c
    unfold Memory.zeroFill at ih ⊢
    by_cases h : n ≤ k
    · rw [List.filter_cons_of_pos (by simpa using h), Memory.read_cons, Memory.read_cons, ih]
      by_cases hk : k = a
      · rw [if_pos hk, if_pos hk, if_neg (by omega)]
      · rw [if_neg hk, if_neg hk]
    · rw [List.filter_cons_of_neg (by simpa using h), ih, Memory.read_cons]
      by_cases hk : k = a
      · rw [if_pos (by omega), if_pos (by omega)]
      · rw [if_neg hk]

/-- Canonical memories that read alike everywhere are equal data. -/
theorem Memory.ext_of_read {lo : Nat} {m m' : Memory} (w : m.wfAbove lo = true) (w' : m'.wfAbove lo = true)
    (h : ∀ a, m.read a = m'.read a) : m = m' := by
  induction m generalizing lo m' with
  | nil =>
    cases m' with
    | nil => rfl
    | cons c rest =>
      obtain ⟨k, v⟩ := c
      have := h k
      rw [Memory.read_cons, if_pos rfl] at this
      exact absurd this.symm ((Memory.wfAbove_cons _ _ _ _).mp w').2.1
  | cons c rest ih =>
    obtain ⟨k, v⟩ := c
    have w1 := (Memory.wfAbove_cons _ _ _ _).mp w
    cases m' with
    | nil =>
      have := h k
      rw [Memory.read_cons, if_pos rfl] at this
      exact absurd this w1.2.1
    | cons c' rest' =>
      obtain ⟨k', v'⟩ := c'
      have w2 := (Memory.wfAbove_cons _ _ _ _).mp w'
      have hk : k = k' := by
        rcases Nat.lt_trichotomy k k' with hlt | heq | hgt
        · have := h k
          rw [Memory.read_cons, if_pos rfl, Memory.read_cons, if_neg (by omega),
            Memory.read_below w2.2.2 (by omega)] at this
          exact absurd this w1.2.1
        · exact heq
        · have := h k'
          rw [Memory.read_cons, if_neg (by omega), Memory.read_below w1.2.2 (by omega), Memory.read_cons,
            if_pos rfl] at this
          exact absurd this.symm w2.2.1
      subst hk
      have hv : v = v' := by simpa [Memory.read_cons] using h k
      subst hv
      have hrest : rest = rest' := by
        refine ih w1.2.2 w2.2.2 fun a => ?_
        by_cases ha : k = a
        · rw [Memory.read_below w1.2.2 (by omega), Memory.read_below w2.2.2 (by omega)]
        · have := h a
          rwa [Memory.read_cons, Memory.read_cons, if_neg ha, if_neg ha] at this
      rw [hrest]

/-- Byte `k` of a word put together from four bytes, the first lowest. -/
theorem byteOf_append (f : Nat → Byte) (k : Nat) (h : k < 4) : byteOf (f 3 ++ f 2 ++ f 1 ++ f 0) k = f k := by
  unfold byteOf
  interval_cases k <;>
    · apply BitVec.eq_of_getLsbD_eq
      intro i hi
      simp only [BitVec.getLsbD_extractLsb', BitVec.getLsbD_append, hi, decide_true, Bool.true_and]
      simp (disch := omega) only [Nat.mul_zero, Nat.zero_add, Nat.mul_one, if_pos, if_neg]
      try (congr 1; omega)

/-- Byte `k` of a little-endian word is the byte at `a + k` (R61). -/
theorem byteOf_readWord (m : Memory) (a k : Nat) (h : k < 4) : byteOf (m.readWord a) k = m.read (a + k) :=
  byteOf_append (fun k => m.read (a + k)) k h

/-- Two words with the same four bytes are equal. -/
theorem word_ext_bytes {v w : Word} (h : ∀ k < 4, byteOf v k = byteOf w k) : v = w := by
  apply BitVec.eq_of_getLsbD_eq
  intro i hi
  have := congrArg (fun b => b.getLsbD (i % 8)) (h (i / 8) (by omega))
  simpa [byteOf, BitVec.getLsbD_extractLsb', Nat.mod_lt, Nat.div_add_mod] using this

/-- A read of the word just written gives it back. -/
theorem Memory.readWord_writeWord {m : Memory} (w : m.wf = true) (a : Nat) (v : Word) :
    (m.writeWord a v).readWord a = v := by
  refine word_ext_bytes fun k hk => ?_
  rw [byteOf_readWord _ _ _ hk, Memory.writeWord, Memory.read_writeMasked w]
  have : (15#4).getLsbD k = true := by interval_cases k <;> rfl
  simp [hk, this]

end Sys2Proof.Machine
end

