-- ==== Sys2Proof/Laws/State.lean ====
section
/-! SUPPORT. What each named update of State does to each field: one lemma per field per update. -/

namespace Sys2Proof.Machine

variable (s : State)

@[simp] theorem State.setPhase_cur (p : Phase) : (s.setPhase p).cur = s.cur := rfl
@[simp] theorem State.setPhase_la (p : Phase) : (s.setPhase p).la = s.la := rfl
@[simp] theorem State.setPhase_cnt (p : Phase) : (s.setPhase p).cnt = s.cnt := rfl
@[simp] theorem State.setPhase_rdcur (p : Phase) : (s.setPhase p).rdcur = s.rdcur := rfl
@[simp] theorem State.setPhase_wridx (p : Phase) : (s.setPhase p).wridx = s.wridx := rfl
@[simp] theorem State.setPhase_acc (p : Phase) : (s.setPhase p).acc = s.acc := rfl
@[simp] theorem State.setPhase_lastb (p : Phase) : (s.setPhase p).lastb = s.lastb := rfl
@[simp] theorem State.setPhase_litb (p : Phase) : (s.setPhase p).litb = s.litb := rfl
@[simp] theorem State.setPhase_sym (p : Phase) : (s.setPhase p).sym = s.sym := rfl
@[simp] theorem State.setPhase_rem (p : Phase) : (s.setPhase p).rem = s.rem := rfl
@[simp] theorem State.setPhase_phase (p : Phase) : (s.setPhase p).phase = p := rfl
@[simp] theorem State.setPhase_n (p : Phase) : (s.setPhase p).n = s.n := rfl
@[simp] theorem State.setPhase_osize (p : Phase) : (s.setPhase p).osize = s.osize := rfl
@[simp] theorem State.setPhase_inLen (p : Phase) : (s.setPhase p).inLen = s.inLen := rfl
@[simp] theorem State.setPhase_errcode (p : Phase) : (s.setPhase p).errcode = s.errcode := rfl
@[simp] theorem State.setPhase_imem (p : Phase) : (s.setPhase p).imem = s.imem := rfl
@[simp] theorem State.setPhase_omem (p : Phase) : (s.setPhase p).omem = s.omem := rfl
@[simp] theorem State.setPhase_par (p : Phase) : (s.setPhase p).par = s.par := rfl
@[simp] theorem State.setPhase_hostMoves (p : Phase) : (s.setPhase p).hostMoves = s.hostMoves := rfl
@[simp] theorem State.setPhase_hostData (p : Phase) : (s.setPhase p).hostData = s.hostData := rfl
@[simp] theorem State.setPhase_freeIdx (p : Phase) : (s.setPhase p).freeIdx = s.freeIdx := rfl
@[simp] theorem State.setPhase_errStores (p : Phase) : (s.setPhase p).errStores = s.errStores := rfl

@[simp] theorem State.setWindow_cur (c l : Word) (k : BitVec 6) (r : Word) : (s.setWindow c l k r).cur = c := rfl
@[simp] theorem State.setWindow_la (c l : Word) (k : BitVec 6) (r : Word) : (s.setWindow c l k r).la = l := rfl
@[simp] theorem State.setWindow_cnt (c l : Word) (k : BitVec 6) (r : Word) : (s.setWindow c l k r).cnt = k := rfl
@[simp] theorem State.setWindow_rdcur (c l : Word) (k : BitVec 6) (r : Word) : (s.setWindow c l k r).rdcur = r := rfl
@[simp] theorem State.setWindow_wridx (c l : Word) (k : BitVec 6) (r : Word) : (s.setWindow c l k r).wridx = s.wridx := rfl
@[simp] theorem State.setWindow_acc (c l : Word) (k : BitVec 6) (r : Word) : (s.setWindow c l k r).acc = s.acc := rfl
@[simp] theorem State.setWindow_lastb (c l : Word) (k : BitVec 6) (r : Word) : (s.setWindow c l k r).lastb = s.lastb := rfl
@[simp] theorem State.setWindow_litb (c l : Word) (k : BitVec 6) (r : Word) : (s.setWindow c l k r).litb = s.litb := rfl
@[simp] theorem State.setWindow_sym (c l : Word) (k : BitVec 6) (r : Word) : (s.setWindow c l k r).sym = s.sym := rfl
@[simp] theorem State.setWindow_rem (c l : Word) (k : BitVec 6) (r : Word) : (s.setWindow c l k r).rem = s.rem := rfl
@[simp] theorem State.setWindow_phase (c l : Word) (k : BitVec 6) (r : Word) : (s.setWindow c l k r).phase = s.phase := rfl
@[simp] theorem State.setWindow_n (c l : Word) (k : BitVec 6) (r : Word) : (s.setWindow c l k r).n = s.n := rfl
@[simp] theorem State.setWindow_osize (c l : Word) (k : BitVec 6) (r : Word) : (s.setWindow c l k r).osize = s.osize := rfl
@[simp] theorem State.setWindow_inLen (c l : Word) (k : BitVec 6) (r : Word) : (s.setWindow c l k r).inLen = s.inLen := rfl
@[simp] theorem State.setWindow_errcode (c l : Word) (k : BitVec 6) (r : Word) : (s.setWindow c l k r).errcode = s.errcode := rfl
@[simp] theorem State.setWindow_imem (c l : Word) (k : BitVec 6) (r : Word) : (s.setWindow c l k r).imem = s.imem := rfl
@[simp] theorem State.setWindow_omem (c l : Word) (k : BitVec 6) (r : Word) : (s.setWindow c l k r).omem = s.omem := rfl
@[simp] theorem State.setWindow_par (c l : Word) (k : BitVec 6) (r : Word) : (s.setWindow c l k r).par = s.par := rfl
@[simp] theorem State.setWindow_hostMoves (c l : Word) (k : BitVec 6) (r : Word) : (s.setWindow c l k r).hostMoves = s.hostMoves := rfl
@[simp] theorem State.setWindow_hostData (c l : Word) (k : BitVec 6) (r : Word) : (s.setWindow c l k r).hostData = s.hostData := rfl
@[simp] theorem State.setWindow_freeIdx (c l : Word) (k : BitVec 6) (r : Word) : (s.setWindow c l k r).freeIdx = s.freeIdx := rfl
@[simp] theorem State.setWindow_errStores (c l : Word) (k : BitVec 6) (r : Word) : (s.setWindow c l k r).errStores = s.errStores := rfl

@[simp] theorem State.setLitb_cur (b : Byte) : (s.setLitb b).cur = s.cur := rfl
@[simp] theorem State.setLitb_la (b : Byte) : (s.setLitb b).la = s.la := rfl
@[simp] theorem State.setLitb_cnt (b : Byte) : (s.setLitb b).cnt = s.cnt := rfl
@[simp] theorem State.setLitb_rdcur (b : Byte) : (s.setLitb b).rdcur = s.rdcur := rfl
@[simp] theorem State.setLitb_wridx (b : Byte) : (s.setLitb b).wridx = s.wridx := rfl
@[simp] theorem State.setLitb_acc (b : Byte) : (s.setLitb b).acc = s.acc := rfl
@[simp] theorem State.setLitb_lastb (b : Byte) : (s.setLitb b).lastb = s.lastb := rfl
@[simp] theorem State.setLitb_litb (b : Byte) : (s.setLitb b).litb = b := rfl
@[simp] theorem State.setLitb_sym (b : Byte) : (s.setLitb b).sym = s.sym := rfl
@[simp] theorem State.setLitb_rem (b : Byte) : (s.setLitb b).rem = s.rem := rfl
@[simp] theorem State.setLitb_phase (b : Byte) : (s.setLitb b).phase = s.phase := rfl
@[simp] theorem State.setLitb_n (b : Byte) : (s.setLitb b).n = s.n := rfl
@[simp] theorem State.setLitb_osize (b : Byte) : (s.setLitb b).osize = s.osize := rfl
@[simp] theorem State.setLitb_inLen (b : Byte) : (s.setLitb b).inLen = s.inLen := rfl
@[simp] theorem State.setLitb_errcode (b : Byte) : (s.setLitb b).errcode = s.errcode := rfl
@[simp] theorem State.setLitb_imem (b : Byte) : (s.setLitb b).imem = s.imem := rfl
@[simp] theorem State.setLitb_omem (b : Byte) : (s.setLitb b).omem = s.omem := rfl
@[simp] theorem State.setLitb_par (b : Byte) : (s.setLitb b).par = s.par := rfl
@[simp] theorem State.setLitb_hostMoves (b : Byte) : (s.setLitb b).hostMoves = s.hostMoves := rfl
@[simp] theorem State.setLitb_hostData (b : Byte) : (s.setLitb b).hostData = s.hostData := rfl
@[simp] theorem State.setLitb_freeIdx (b : Byte) : (s.setLitb b).freeIdx = s.freeIdx := rfl
@[simp] theorem State.setLitb_errStores (b : Byte) : (s.setLitb b).errStores = s.errStores := rfl

@[simp] theorem State.setCoded_cur (v c : Word) : (s.setCoded v c).cur = s.cur := rfl
@[simp] theorem State.setCoded_la (v c : Word) : (s.setCoded v c).la = s.la := rfl
@[simp] theorem State.setCoded_cnt (v c : Word) : (s.setCoded v c).cnt = s.cnt := rfl
@[simp] theorem State.setCoded_rdcur (v c : Word) : (s.setCoded v c).rdcur = s.rdcur := rfl
@[simp] theorem State.setCoded_wridx (v c : Word) : (s.setCoded v c).wridx = s.wridx := rfl
@[simp] theorem State.setCoded_acc (v c : Word) : (s.setCoded v c).acc = s.acc := rfl
@[simp] theorem State.setCoded_lastb (v c : Word) : (s.setCoded v c).lastb = s.lastb := rfl
@[simp] theorem State.setCoded_litb (v c : Word) : (s.setCoded v c).litb = s.litb := rfl
@[simp] theorem State.setCoded_sym (v c : Word) : (s.setCoded v c).sym = v := rfl
@[simp] theorem State.setCoded_rem (v c : Word) : (s.setCoded v c).rem = c := rfl
@[simp] theorem State.setCoded_phase (v c : Word) : (s.setCoded v c).phase = s.phase := rfl
@[simp] theorem State.setCoded_n (v c : Word) : (s.setCoded v c).n = s.n := rfl
@[simp] theorem State.setCoded_osize (v c : Word) : (s.setCoded v c).osize = s.osize := rfl
@[simp] theorem State.setCoded_inLen (v c : Word) : (s.setCoded v c).inLen = s.inLen := rfl
@[simp] theorem State.setCoded_errcode (v c : Word) : (s.setCoded v c).errcode = s.errcode := rfl
@[simp] theorem State.setCoded_imem (v c : Word) : (s.setCoded v c).imem = s.imem := rfl
@[simp] theorem State.setCoded_omem (v c : Word) : (s.setCoded v c).omem = s.omem := rfl
@[simp] theorem State.setCoded_par (v c : Word) : (s.setCoded v c).par = s.par := rfl
@[simp] theorem State.setCoded_hostMoves (v c : Word) : (s.setCoded v c).hostMoves = s.hostMoves := rfl
@[simp] theorem State.setCoded_hostData (v c : Word) : (s.setCoded v c).hostData = s.hostData := rfl
@[simp] theorem State.setCoded_freeIdx (v c : Word) : (s.setCoded v c).freeIdx = s.freeIdx := rfl
@[simp] theorem State.setCoded_errStores (v c : Word) : (s.setCoded v c).errStores = s.errStores := rfl

@[simp] theorem State.setRem_cur (c : Word) : (s.setRem c).cur = s.cur := rfl
@[simp] theorem State.setRem_la (c : Word) : (s.setRem c).la = s.la := rfl
@[simp] theorem State.setRem_cnt (c : Word) : (s.setRem c).cnt = s.cnt := rfl
@[simp] theorem State.setRem_rdcur (c : Word) : (s.setRem c).rdcur = s.rdcur := rfl
@[simp] theorem State.setRem_wridx (c : Word) : (s.setRem c).wridx = s.wridx := rfl
@[simp] theorem State.setRem_acc (c : Word) : (s.setRem c).acc = s.acc := rfl
@[simp] theorem State.setRem_lastb (c : Word) : (s.setRem c).lastb = s.lastb := rfl
@[simp] theorem State.setRem_litb (c : Word) : (s.setRem c).litb = s.litb := rfl
@[simp] theorem State.setRem_sym (c : Word) : (s.setRem c).sym = s.sym := rfl
@[simp] theorem State.setRem_rem (c : Word) : (s.setRem c).rem = c := rfl
@[simp] theorem State.setRem_phase (c : Word) : (s.setRem c).phase = s.phase := rfl
@[simp] theorem State.setRem_n (c : Word) : (s.setRem c).n = s.n := rfl
@[simp] theorem State.setRem_osize (c : Word) : (s.setRem c).osize = s.osize := rfl
@[simp] theorem State.setRem_inLen (c : Word) : (s.setRem c).inLen = s.inLen := rfl
@[simp] theorem State.setRem_errcode (c : Word) : (s.setRem c).errcode = s.errcode := rfl
@[simp] theorem State.setRem_imem (c : Word) : (s.setRem c).imem = s.imem := rfl
@[simp] theorem State.setRem_omem (c : Word) : (s.setRem c).omem = s.omem := rfl
@[simp] theorem State.setRem_par (c : Word) : (s.setRem c).par = s.par := rfl
@[simp] theorem State.setRem_hostMoves (c : Word) : (s.setRem c).hostMoves = s.hostMoves := rfl
@[simp] theorem State.setRem_hostData (c : Word) : (s.setRem c).hostData = s.hostData := rfl
@[simp] theorem State.setRem_freeIdx (c : Word) : (s.setRem c).freeIdx = s.freeIdx := rfl
@[simp] theorem State.setRem_errStores (c : Word) : (s.setRem c).errStores = s.errStores := rfl

@[simp] theorem State.setEmitted_cur (w a : Word) (b : Byte) : (s.setEmitted w a b).cur = s.cur := rfl
@[simp] theorem State.setEmitted_la (w a : Word) (b : Byte) : (s.setEmitted w a b).la = s.la := rfl
@[simp] theorem State.setEmitted_cnt (w a : Word) (b : Byte) : (s.setEmitted w a b).cnt = s.cnt := rfl
@[simp] theorem State.setEmitted_rdcur (w a : Word) (b : Byte) : (s.setEmitted w a b).rdcur = s.rdcur := rfl
@[simp] theorem State.setEmitted_wridx (w a : Word) (b : Byte) : (s.setEmitted w a b).wridx = w := rfl
@[simp] theorem State.setEmitted_acc (w a : Word) (b : Byte) : (s.setEmitted w a b).acc = a := rfl
@[simp] theorem State.setEmitted_lastb (w a : Word) (b : Byte) : (s.setEmitted w a b).lastb = b := rfl
@[simp] theorem State.setEmitted_litb (w a : Word) (b : Byte) : (s.setEmitted w a b).litb = s.litb := rfl
@[simp] theorem State.setEmitted_sym (w a : Word) (b : Byte) : (s.setEmitted w a b).sym = s.sym := rfl
@[simp] theorem State.setEmitted_rem (w a : Word) (b : Byte) : (s.setEmitted w a b).rem = s.rem := rfl
@[simp] theorem State.setEmitted_phase (w a : Word) (b : Byte) : (s.setEmitted w a b).phase = s.phase := rfl
@[simp] theorem State.setEmitted_n (w a : Word) (b : Byte) : (s.setEmitted w a b).n = s.n := rfl
@[simp] theorem State.setEmitted_osize (w a : Word) (b : Byte) : (s.setEmitted w a b).osize = s.osize := rfl
@[simp] theorem State.setEmitted_inLen (w a : Word) (b : Byte) : (s.setEmitted w a b).inLen = s.inLen := rfl
@[simp] theorem State.setEmitted_errcode (w a : Word) (b : Byte) : (s.setEmitted w a b).errcode = s.errcode := rfl
@[simp] theorem State.setEmitted_imem (w a : Word) (b : Byte) : (s.setEmitted w a b).imem = s.imem := rfl
@[simp] theorem State.setEmitted_omem (w a : Word) (b : Byte) : (s.setEmitted w a b).omem = s.omem := rfl
@[simp] theorem State.setEmitted_par (w a : Word) (b : Byte) : (s.setEmitted w a b).par = s.par := rfl
@[simp] theorem State.setEmitted_hostMoves (w a : Word) (b : Byte) : (s.setEmitted w a b).hostMoves = s.hostMoves := rfl
@[simp] theorem State.setEmitted_hostData (w a : Word) (b : Byte) : (s.setEmitted w a b).hostData = s.hostData := rfl
@[simp] theorem State.setEmitted_freeIdx (w a : Word) (b : Byte) : (s.setEmitted w a b).freeIdx = s.freeIdx := rfl
@[simp] theorem State.setEmitted_errStores (w a : Word) (b : Byte) : (s.setEmitted w a b).errStores = s.errStores := rfl

@[simp] theorem State.setOutput_cur (a : Word) (m : Memory) : (s.setOutput a m).cur = s.cur := rfl
@[simp] theorem State.setOutput_la (a : Word) (m : Memory) : (s.setOutput a m).la = s.la := rfl
@[simp] theorem State.setOutput_cnt (a : Word) (m : Memory) : (s.setOutput a m).cnt = s.cnt := rfl
@[simp] theorem State.setOutput_rdcur (a : Word) (m : Memory) : (s.setOutput a m).rdcur = s.rdcur := rfl
@[simp] theorem State.setOutput_wridx (a : Word) (m : Memory) : (s.setOutput a m).wridx = s.wridx := rfl
@[simp] theorem State.setOutput_acc (a : Word) (m : Memory) : (s.setOutput a m).acc = a := rfl
@[simp] theorem State.setOutput_lastb (a : Word) (m : Memory) : (s.setOutput a m).lastb = s.lastb := rfl
@[simp] theorem State.setOutput_litb (a : Word) (m : Memory) : (s.setOutput a m).litb = s.litb := rfl
@[simp] theorem State.setOutput_sym (a : Word) (m : Memory) : (s.setOutput a m).sym = s.sym := rfl
@[simp] theorem State.setOutput_rem (a : Word) (m : Memory) : (s.setOutput a m).rem = s.rem := rfl
@[simp] theorem State.setOutput_phase (a : Word) (m : Memory) : (s.setOutput a m).phase = s.phase := rfl
@[simp] theorem State.setOutput_n (a : Word) (m : Memory) : (s.setOutput a m).n = s.n := rfl
@[simp] theorem State.setOutput_osize (a : Word) (m : Memory) : (s.setOutput a m).osize = s.osize := rfl
@[simp] theorem State.setOutput_inLen (a : Word) (m : Memory) : (s.setOutput a m).inLen = s.inLen := rfl
@[simp] theorem State.setOutput_errcode (a : Word) (m : Memory) : (s.setOutput a m).errcode = s.errcode := rfl
@[simp] theorem State.setOutput_imem (a : Word) (m : Memory) : (s.setOutput a m).imem = s.imem := rfl
@[simp] theorem State.setOutput_omem (a : Word) (m : Memory) : (s.setOutput a m).omem = m := rfl
@[simp] theorem State.setOutput_par (a : Word) (m : Memory) : (s.setOutput a m).par = s.par := rfl
@[simp] theorem State.setOutput_hostMoves (a : Word) (m : Memory) : (s.setOutput a m).hostMoves = s.hostMoves := rfl
@[simp] theorem State.setOutput_hostData (a : Word) (m : Memory) : (s.setOutput a m).hostData = s.hostData := rfl
@[simp] theorem State.setOutput_freeIdx (a : Word) (m : Memory) : (s.setOutput a m).freeIdx = s.freeIdx := rfl
@[simp] theorem State.setOutput_errStores (a : Word) (m : Memory) : (s.setOutput a m).errStores = s.errStores := rfl

@[simp] theorem State.clearOutput_cur (m : Memory) : (s.clearOutput m).cur = s.cur := rfl
@[simp] theorem State.clearOutput_la (m : Memory) : (s.clearOutput m).la = s.la := rfl
@[simp] theorem State.clearOutput_cnt (m : Memory) : (s.clearOutput m).cnt = s.cnt := rfl
@[simp] theorem State.clearOutput_rdcur (m : Memory) : (s.clearOutput m).rdcur = s.rdcur := rfl
@[simp] theorem State.clearOutput_wridx (m : Memory) : (s.clearOutput m).wridx = 0 := rfl
@[simp] theorem State.clearOutput_acc (m : Memory) : (s.clearOutput m).acc = 0 := rfl
@[simp] theorem State.clearOutput_lastb (m : Memory) : (s.clearOutput m).lastb = s.lastb := rfl
@[simp] theorem State.clearOutput_litb (m : Memory) : (s.clearOutput m).litb = s.litb := rfl
@[simp] theorem State.clearOutput_sym (m : Memory) : (s.clearOutput m).sym = s.sym := rfl
@[simp] theorem State.clearOutput_rem (m : Memory) : (s.clearOutput m).rem = s.rem := rfl
@[simp] theorem State.clearOutput_phase (m : Memory) : (s.clearOutput m).phase = s.phase := rfl
@[simp] theorem State.clearOutput_n (m : Memory) : (s.clearOutput m).n = s.n := rfl
@[simp] theorem State.clearOutput_osize (m : Memory) : (s.clearOutput m).osize = s.osize := rfl
@[simp] theorem State.clearOutput_inLen (m : Memory) : (s.clearOutput m).inLen = s.inLen := rfl
@[simp] theorem State.clearOutput_errcode (m : Memory) : (s.clearOutput m).errcode = s.errcode := rfl
@[simp] theorem State.clearOutput_imem (m : Memory) : (s.clearOutput m).imem = s.imem := rfl
@[simp] theorem State.clearOutput_omem (m : Memory) : (s.clearOutput m).omem = m := rfl
@[simp] theorem State.clearOutput_par (m : Memory) : (s.clearOutput m).par = s.par := rfl
@[simp] theorem State.clearOutput_hostMoves (m : Memory) : (s.clearOutput m).hostMoves = s.hostMoves := rfl
@[simp] theorem State.clearOutput_hostData (m : Memory) : (s.clearOutput m).hostData = s.hostData := rfl
@[simp] theorem State.clearOutput_freeIdx (m : Memory) : (s.clearOutput m).freeIdx = s.freeIdx := rfl
@[simp] theorem State.clearOutput_errStores (m : Memory) : (s.clearOutput m).errStores = s.errStores := rfl

@[simp] theorem State.setContainer_cur (k : BitVec 30) (o : Word) : (s.setContainer k o).cur = s.cur := rfl
@[simp] theorem State.setContainer_la (k : BitVec 30) (o : Word) : (s.setContainer k o).la = s.la := rfl
@[simp] theorem State.setContainer_cnt (k : BitVec 30) (o : Word) : (s.setContainer k o).cnt = s.cnt := rfl
@[simp] theorem State.setContainer_rdcur (k : BitVec 30) (o : Word) : (s.setContainer k o).rdcur = s.rdcur := rfl
@[simp] theorem State.setContainer_wridx (k : BitVec 30) (o : Word) : (s.setContainer k o).wridx = s.wridx := rfl
@[simp] theorem State.setContainer_acc (k : BitVec 30) (o : Word) : (s.setContainer k o).acc = s.acc := rfl
@[simp] theorem State.setContainer_lastb (k : BitVec 30) (o : Word) : (s.setContainer k o).lastb = s.lastb := rfl
@[simp] theorem State.setContainer_litb (k : BitVec 30) (o : Word) : (s.setContainer k o).litb = s.litb := rfl
@[simp] theorem State.setContainer_sym (k : BitVec 30) (o : Word) : (s.setContainer k o).sym = s.sym := rfl
@[simp] theorem State.setContainer_rem (k : BitVec 30) (o : Word) : (s.setContainer k o).rem = s.rem := rfl
@[simp] theorem State.setContainer_phase (k : BitVec 30) (o : Word) : (s.setContainer k o).phase = s.phase := rfl
@[simp] theorem State.setContainer_n (k : BitVec 30) (o : Word) : (s.setContainer k o).n = k := rfl
@[simp] theorem State.setContainer_osize (k : BitVec 30) (o : Word) : (s.setContainer k o).osize = o := rfl
@[simp] theorem State.setContainer_inLen (k : BitVec 30) (o : Word) : (s.setContainer k o).inLen = s.inLen := rfl
@[simp] theorem State.setContainer_errcode (k : BitVec 30) (o : Word) : (s.setContainer k o).errcode = s.errcode := rfl
@[simp] theorem State.setContainer_imem (k : BitVec 30) (o : Word) : (s.setContainer k o).imem = s.imem := rfl
@[simp] theorem State.setContainer_omem (k : BitVec 30) (o : Word) : (s.setContainer k o).omem = s.omem := rfl
@[simp] theorem State.setContainer_par (k : BitVec 30) (o : Word) : (s.setContainer k o).par = s.par := rfl
@[simp] theorem State.setContainer_hostMoves (k : BitVec 30) (o : Word) : (s.setContainer k o).hostMoves = s.hostMoves := rfl
@[simp] theorem State.setContainer_hostData (k : BitVec 30) (o : Word) : (s.setContainer k o).hostData = s.hostData := rfl
@[simp] theorem State.setContainer_freeIdx (k : BitVec 30) (o : Word) : (s.setContainer k o).freeIdx = s.freeIdx := rfl
@[simp] theorem State.setContainer_errStores (k : BitVec 30) (o : Word) : (s.setContainer k o).errStores = s.errStores := rfl

@[simp] theorem State.setErrPhase_cur (e : Word) (p : Phase) : (s.setErrPhase e p).cur = s.cur := rfl
@[simp] theorem State.setErrPhase_la (e : Word) (p : Phase) : (s.setErrPhase e p).la = s.la := rfl
@[simp] theorem State.setErrPhase_cnt (e : Word) (p : Phase) : (s.setErrPhase e p).cnt = s.cnt := rfl
@[simp] theorem State.setErrPhase_rdcur (e : Word) (p : Phase) : (s.setErrPhase e p).rdcur = s.rdcur := rfl
@[simp] theorem State.setErrPhase_wridx (e : Word) (p : Phase) : (s.setErrPhase e p).wridx = s.wridx := rfl
@[simp] theorem State.setErrPhase_acc (e : Word) (p : Phase) : (s.setErrPhase e p).acc = s.acc := rfl
@[simp] theorem State.setErrPhase_lastb (e : Word) (p : Phase) : (s.setErrPhase e p).lastb = s.lastb := rfl
@[simp] theorem State.setErrPhase_litb (e : Word) (p : Phase) : (s.setErrPhase e p).litb = s.litb := rfl
@[simp] theorem State.setErrPhase_sym (e : Word) (p : Phase) : (s.setErrPhase e p).sym = s.sym := rfl
@[simp] theorem State.setErrPhase_rem (e : Word) (p : Phase) : (s.setErrPhase e p).rem = s.rem := rfl
@[simp] theorem State.setErrPhase_phase (e : Word) (p : Phase) : (s.setErrPhase e p).phase = p := rfl
@[simp] theorem State.setErrPhase_n (e : Word) (p : Phase) : (s.setErrPhase e p).n = s.n := rfl
@[simp] theorem State.setErrPhase_osize (e : Word) (p : Phase) : (s.setErrPhase e p).osize = s.osize := rfl
@[simp] theorem State.setErrPhase_inLen (e : Word) (p : Phase) : (s.setErrPhase e p).inLen = s.inLen := rfl
@[simp] theorem State.setErrPhase_errcode (e : Word) (p : Phase) : (s.setErrPhase e p).errcode = e := rfl
@[simp] theorem State.setErrPhase_imem (e : Word) (p : Phase) : (s.setErrPhase e p).imem = s.imem := rfl
@[simp] theorem State.setErrPhase_omem (e : Word) (p : Phase) : (s.setErrPhase e p).omem = s.omem := rfl
@[simp] theorem State.setErrPhase_par (e : Word) (p : Phase) : (s.setErrPhase e p).par = s.par := rfl
@[simp] theorem State.setErrPhase_hostMoves (e : Word) (p : Phase) : (s.setErrPhase e p).hostMoves = s.hostMoves := rfl
@[simp] theorem State.setErrPhase_hostData (e : Word) (p : Phase) : (s.setErrPhase e p).hostData = s.hostData := rfl
@[simp] theorem State.setErrPhase_freeIdx (e : Word) (p : Phase) : (s.setErrPhase e p).freeIdx = s.freeIdx := rfl
@[simp] theorem State.setErrPhase_errStores (e : Word) (p : Phase) : (s.setErrPhase e p).errStores = s.errStores := rfl

@[simp] theorem State.setStarted_cur : s.setStarted.cur = s.cur := rfl
@[simp] theorem State.setStarted_la : s.setStarted.la = s.la := rfl
@[simp] theorem State.setStarted_cnt : s.setStarted.cnt = s.cnt := rfl
@[simp] theorem State.setStarted_rdcur : s.setStarted.rdcur = s.rdcur := rfl
@[simp] theorem State.setStarted_wridx : s.setStarted.wridx = s.wridx := rfl
@[simp] theorem State.setStarted_acc : s.setStarted.acc = s.acc := rfl
@[simp] theorem State.setStarted_lastb : s.setStarted.lastb = s.lastb := rfl
@[simp] theorem State.setStarted_litb : s.setStarted.litb = s.litb := rfl
@[simp] theorem State.setStarted_sym : s.setStarted.sym = s.sym := rfl
@[simp] theorem State.setStarted_rem : s.setStarted.rem = s.rem := rfl
@[simp] theorem State.setStarted_phase : s.setStarted.phase = .validate := rfl
@[simp] theorem State.setStarted_n : s.setStarted.n = s.n := rfl
@[simp] theorem State.setStarted_osize : s.setStarted.osize = s.osize := rfl
@[simp] theorem State.setStarted_inLen : s.setStarted.inLen = s.inLen := rfl
@[simp] theorem State.setStarted_errcode : s.setStarted.errcode = 0 := rfl
@[simp] theorem State.setStarted_imem : s.setStarted.imem = s.imem := rfl
@[simp] theorem State.setStarted_omem : s.setStarted.omem = s.omem := rfl
@[simp] theorem State.setStarted_par : s.setStarted.par = s.par := rfl
@[simp] theorem State.setStarted_hostMoves : s.setStarted.hostMoves = s.hostMoves := rfl
@[simp] theorem State.setStarted_hostData : s.setStarted.hostData = s.hostData := rfl
@[simp] theorem State.setStarted_freeIdx : s.setStarted.freeIdx = s.freeIdx := rfl
@[simp] theorem State.setStarted_errStores : s.setStarted.errStores = [] := rfl

@[simp] theorem State.setInLen_cur (v : Word) : (s.setInLen v).cur = s.cur := rfl
@[simp] theorem State.setInLen_la (v : Word) : (s.setInLen v).la = s.la := rfl
@[simp] theorem State.setInLen_cnt (v : Word) : (s.setInLen v).cnt = s.cnt := rfl
@[simp] theorem State.setInLen_rdcur (v : Word) : (s.setInLen v).rdcur = s.rdcur := rfl
@[simp] theorem State.setInLen_wridx (v : Word) : (s.setInLen v).wridx = s.wridx := rfl
@[simp] theorem State.setInLen_acc (v : Word) : (s.setInLen v).acc = s.acc := rfl
@[simp] theorem State.setInLen_lastb (v : Word) : (s.setInLen v).lastb = s.lastb := rfl
@[simp] theorem State.setInLen_litb (v : Word) : (s.setInLen v).litb = s.litb := rfl
@[simp] theorem State.setInLen_sym (v : Word) : (s.setInLen v).sym = s.sym := rfl
@[simp] theorem State.setInLen_rem (v : Word) : (s.setInLen v).rem = s.rem := rfl
@[simp] theorem State.setInLen_phase (v : Word) : (s.setInLen v).phase = s.phase := rfl
@[simp] theorem State.setInLen_n (v : Word) : (s.setInLen v).n = s.n := rfl
@[simp] theorem State.setInLen_osize (v : Word) : (s.setInLen v).osize = s.osize := rfl
@[simp] theorem State.setInLen_inLen (v : Word) : (s.setInLen v).inLen = v := rfl
@[simp] theorem State.setInLen_errcode (v : Word) : (s.setInLen v).errcode = s.errcode := rfl
@[simp] theorem State.setInLen_imem (v : Word) : (s.setInLen v).imem = s.imem := rfl
@[simp] theorem State.setInLen_omem (v : Word) : (s.setInLen v).omem = s.omem := rfl
@[simp] theorem State.setInLen_par (v : Word) : (s.setInLen v).par = s.par := rfl
@[simp] theorem State.setInLen_hostMoves (v : Word) : (s.setInLen v).hostMoves = s.hostMoves := rfl
@[simp] theorem State.setInLen_hostData (v : Word) : (s.setInLen v).hostData = s.hostData := rfl
@[simp] theorem State.setInLen_freeIdx (v : Word) : (s.setInLen v).freeIdx = s.freeIdx := rfl
@[simp] theorem State.setInLen_errStores (v : Word) : (s.setInLen v).errStores = s.errStores := rfl

@[simp] theorem State.setImem_cur (m : Memory) : (s.setImem m).cur = s.cur := rfl
@[simp] theorem State.setImem_la (m : Memory) : (s.setImem m).la = s.la := rfl
@[simp] theorem State.setImem_cnt (m : Memory) : (s.setImem m).cnt = s.cnt := rfl
@[simp] theorem State.setImem_rdcur (m : Memory) : (s.setImem m).rdcur = s.rdcur := rfl
@[simp] theorem State.setImem_wridx (m : Memory) : (s.setImem m).wridx = s.wridx := rfl
@[simp] theorem State.setImem_acc (m : Memory) : (s.setImem m).acc = s.acc := rfl
@[simp] theorem State.setImem_lastb (m : Memory) : (s.setImem m).lastb = s.lastb := rfl
@[simp] theorem State.setImem_litb (m : Memory) : (s.setImem m).litb = s.litb := rfl
@[simp] theorem State.setImem_sym (m : Memory) : (s.setImem m).sym = s.sym := rfl
@[simp] theorem State.setImem_rem (m : Memory) : (s.setImem m).rem = s.rem := rfl
@[simp] theorem State.setImem_phase (m : Memory) : (s.setImem m).phase = s.phase := rfl
@[simp] theorem State.setImem_n (m : Memory) : (s.setImem m).n = s.n := rfl
@[simp] theorem State.setImem_osize (m : Memory) : (s.setImem m).osize = s.osize := rfl
@[simp] theorem State.setImem_inLen (m : Memory) : (s.setImem m).inLen = s.inLen := rfl
@[simp] theorem State.setImem_errcode (m : Memory) : (s.setImem m).errcode = s.errcode := rfl
@[simp] theorem State.setImem_imem (m : Memory) : (s.setImem m).imem = m := rfl
@[simp] theorem State.setImem_omem (m : Memory) : (s.setImem m).omem = s.omem := rfl
@[simp] theorem State.setImem_par (m : Memory) : (s.setImem m).par = s.par := rfl
@[simp] theorem State.setImem_hostMoves (m : Memory) : (s.setImem m).hostMoves = s.hostMoves := rfl
@[simp] theorem State.setImem_hostData (m : Memory) : (s.setImem m).hostData = s.hostData := rfl
@[simp] theorem State.setImem_freeIdx (m : Memory) : (s.setImem m).freeIdx = s.freeIdx := rfl
@[simp] theorem State.setImem_errStores (m : Memory) : (s.setImem m).errStores = s.errStores := rfl

@[simp] theorem State.setOmem_cur (m : Memory) (l : List Nat) : (s.setOmem m l).cur = s.cur := rfl
@[simp] theorem State.setOmem_la (m : Memory) (l : List Nat) : (s.setOmem m l).la = s.la := rfl
@[simp] theorem State.setOmem_cnt (m : Memory) (l : List Nat) : (s.setOmem m l).cnt = s.cnt := rfl
@[simp] theorem State.setOmem_rdcur (m : Memory) (l : List Nat) : (s.setOmem m l).rdcur = s.rdcur := rfl
@[simp] theorem State.setOmem_wridx (m : Memory) (l : List Nat) : (s.setOmem m l).wridx = s.wridx := rfl
@[simp] theorem State.setOmem_acc (m : Memory) (l : List Nat) : (s.setOmem m l).acc = s.acc := rfl
@[simp] theorem State.setOmem_lastb (m : Memory) (l : List Nat) : (s.setOmem m l).lastb = s.lastb := rfl
@[simp] theorem State.setOmem_litb (m : Memory) (l : List Nat) : (s.setOmem m l).litb = s.litb := rfl
@[simp] theorem State.setOmem_sym (m : Memory) (l : List Nat) : (s.setOmem m l).sym = s.sym := rfl
@[simp] theorem State.setOmem_rem (m : Memory) (l : List Nat) : (s.setOmem m l).rem = s.rem := rfl
@[simp] theorem State.setOmem_phase (m : Memory) (l : List Nat) : (s.setOmem m l).phase = s.phase := rfl
@[simp] theorem State.setOmem_n (m : Memory) (l : List Nat) : (s.setOmem m l).n = s.n := rfl
@[simp] theorem State.setOmem_osize (m : Memory) (l : List Nat) : (s.setOmem m l).osize = s.osize := rfl
@[simp] theorem State.setOmem_inLen (m : Memory) (l : List Nat) : (s.setOmem m l).inLen = s.inLen := rfl
@[simp] theorem State.setOmem_errcode (m : Memory) (l : List Nat) : (s.setOmem m l).errcode = s.errcode := rfl
@[simp] theorem State.setOmem_imem (m : Memory) (l : List Nat) : (s.setOmem m l).imem = s.imem := rfl
@[simp] theorem State.setOmem_omem (m : Memory) (l : List Nat) : (s.setOmem m l).omem = m := rfl
@[simp] theorem State.setOmem_par (m : Memory) (l : List Nat) : (s.setOmem m l).par = s.par := rfl
@[simp] theorem State.setOmem_hostMoves (m : Memory) (l : List Nat) : (s.setOmem m l).hostMoves = s.hostMoves := rfl
@[simp] theorem State.setOmem_hostData (m : Memory) (l : List Nat) : (s.setOmem m l).hostData = s.hostData := rfl
@[simp] theorem State.setOmem_freeIdx (m : Memory) (l : List Nat) : (s.setOmem m l).freeIdx = s.freeIdx := rfl
@[simp] theorem State.setOmem_errStores (m : Memory) (l : List Nat) : (s.setOmem m l).errStores = l := rfl

@[simp] theorem State.setHostData_cur (v : Word) (k : Nat) : (s.setHostData v k).cur = s.cur := rfl
@[simp] theorem State.setHostData_la (v : Word) (k : Nat) : (s.setHostData v k).la = s.la := rfl
@[simp] theorem State.setHostData_cnt (v : Word) (k : Nat) : (s.setHostData v k).cnt = s.cnt := rfl
@[simp] theorem State.setHostData_rdcur (v : Word) (k : Nat) : (s.setHostData v k).rdcur = s.rdcur := rfl
@[simp] theorem State.setHostData_wridx (v : Word) (k : Nat) : (s.setHostData v k).wridx = s.wridx := rfl
@[simp] theorem State.setHostData_acc (v : Word) (k : Nat) : (s.setHostData v k).acc = s.acc := rfl
@[simp] theorem State.setHostData_lastb (v : Word) (k : Nat) : (s.setHostData v k).lastb = s.lastb := rfl
@[simp] theorem State.setHostData_litb (v : Word) (k : Nat) : (s.setHostData v k).litb = s.litb := rfl
@[simp] theorem State.setHostData_sym (v : Word) (k : Nat) : (s.setHostData v k).sym = s.sym := rfl
@[simp] theorem State.setHostData_rem (v : Word) (k : Nat) : (s.setHostData v k).rem = s.rem := rfl
@[simp] theorem State.setHostData_phase (v : Word) (k : Nat) : (s.setHostData v k).phase = s.phase := rfl
@[simp] theorem State.setHostData_n (v : Word) (k : Nat) : (s.setHostData v k).n = s.n := rfl
@[simp] theorem State.setHostData_osize (v : Word) (k : Nat) : (s.setHostData v k).osize = s.osize := rfl
@[simp] theorem State.setHostData_inLen (v : Word) (k : Nat) : (s.setHostData v k).inLen = s.inLen := rfl
@[simp] theorem State.setHostData_errcode (v : Word) (k : Nat) : (s.setHostData v k).errcode = s.errcode := rfl
@[simp] theorem State.setHostData_imem (v : Word) (k : Nat) : (s.setHostData v k).imem = s.imem := rfl
@[simp] theorem State.setHostData_omem (v : Word) (k : Nat) : (s.setHostData v k).omem = s.omem := rfl
@[simp] theorem State.setHostData_par (v : Word) (k : Nat) : (s.setHostData v k).par = s.par := rfl
@[simp] theorem State.setHostData_hostMoves (v : Word) (k : Nat) : (s.setHostData v k).hostMoves = s.hostMoves := rfl
@[simp] theorem State.setHostData_hostData (v : Word) (k : Nat) : (s.setHostData v k).hostData = v := rfl
@[simp] theorem State.setHostData_freeIdx (v : Word) (k : Nat) : (s.setHostData v k).freeIdx = k := rfl
@[simp] theorem State.setHostData_errStores (v : Word) (k : Nat) : (s.setHostData v k).errStores = s.errStores := rfl

@[simp] theorem State.setHostMoves_cur (ms : List HostMove) : (s.setHostMoves ms).cur = s.cur := rfl
@[simp] theorem State.setHostMoves_la (ms : List HostMove) : (s.setHostMoves ms).la = s.la := rfl
@[simp] theorem State.setHostMoves_cnt (ms : List HostMove) : (s.setHostMoves ms).cnt = s.cnt := rfl
@[simp] theorem State.setHostMoves_rdcur (ms : List HostMove) : (s.setHostMoves ms).rdcur = s.rdcur := rfl
@[simp] theorem State.setHostMoves_wridx (ms : List HostMove) : (s.setHostMoves ms).wridx = s.wridx := rfl
@[simp] theorem State.setHostMoves_acc (ms : List HostMove) : (s.setHostMoves ms).acc = s.acc := rfl
@[simp] theorem State.setHostMoves_lastb (ms : List HostMove) : (s.setHostMoves ms).lastb = s.lastb := rfl
@[simp] theorem State.setHostMoves_litb (ms : List HostMove) : (s.setHostMoves ms).litb = s.litb := rfl
@[simp] theorem State.setHostMoves_sym (ms : List HostMove) : (s.setHostMoves ms).sym = s.sym := rfl
@[simp] theorem State.setHostMoves_rem (ms : List HostMove) : (s.setHostMoves ms).rem = s.rem := rfl
@[simp] theorem State.setHostMoves_phase (ms : List HostMove) : (s.setHostMoves ms).phase = s.phase := rfl
@[simp] theorem State.setHostMoves_n (ms : List HostMove) : (s.setHostMoves ms).n = s.n := rfl
@[simp] theorem State.setHostMoves_osize (ms : List HostMove) : (s.setHostMoves ms).osize = s.osize := rfl
@[simp] theorem State.setHostMoves_inLen (ms : List HostMove) : (s.setHostMoves ms).inLen = s.inLen := rfl
@[simp] theorem State.setHostMoves_errcode (ms : List HostMove) : (s.setHostMoves ms).errcode = s.errcode := rfl
@[simp] theorem State.setHostMoves_imem (ms : List HostMove) : (s.setHostMoves ms).imem = s.imem := rfl
@[simp] theorem State.setHostMoves_omem (ms : List HostMove) : (s.setHostMoves ms).omem = s.omem := rfl
@[simp] theorem State.setHostMoves_par (ms : List HostMove) : (s.setHostMoves ms).par = s.par := rfl
@[simp] theorem State.setHostMoves_hostMoves (ms : List HostMove) : (s.setHostMoves ms).hostMoves = ms := rfl
@[simp] theorem State.setHostMoves_hostData (ms : List HostMove) : (s.setHostMoves ms).hostData = s.hostData := rfl
@[simp] theorem State.setHostMoves_freeIdx (ms : List HostMove) : (s.setHostMoves ms).freeIdx = s.freeIdx := rfl
@[simp] theorem State.setHostMoves_errStores (ms : List HostMove) : (s.setHostMoves ms).errStores = s.errStores := rfl

/-- A pending list of host moves that is already empty is left as it is. -/
theorem State.setHostMoves_self : s.setHostMoves s.hostMoves = s := rfl

end Sys2Proof.Machine
end

