-- ==== Sys2Proof/Laws/Ops.lean ====
section
/-! SUPPORT. What each shared operation can do, said once: the steps of a sequence, the outcome of a
step, the memory accesses of the engine, the codes of the exceptions. -/

namespace Sys2Proof.Machine

@[simp] theorem ok_bind {α β : Type} (a : α) (f : α → Except Stop β) : (Except.ok a >>= f) = f a := rfl

@[simp] theorem error_bind {α β : Type} (e : Stop) (f : α → Except Stop β) :
    ((Except.error e : Except Stop α) >>= f) = .error e := rfl

/-- A sequence succeeds exactly when its parts do. -/
theorem bind_eq_ok {α β : Type} {x : Except Stop α} {f : α → Except Stop β} {b : β} :
    (x >>= f) = .ok b ↔ ∃ a, x = .ok a ∧ f a = .ok b := by
  cases x <;> simp

/-- A sequence ends early exactly when one of its parts does. -/
theorem bind_eq_error {α β : Type} {x : Except Stop α} {f : α → Except Stop β} {e : Stop} :
    (x >>= f) = .error e ↔ x = .error e ∨ ∃ a, x = .ok a ∧ f a = .error e := by
  cases x <;> simp

@[simp] theorem settle_ok (s t : State) : settle s (.ok t) = .next t := rfl
@[simp] theorem settle_raised (s : State) (e : Exc) :
    settle s (.error (.raised e)) = .next (takeException e s) := rfl
@[simp] theorem settle_fault (s : State) (f : Fault) : settle s (.error (.fault f)) = .fault f := rfl
@[simp] theorem settle_refusal (s : State) (r : Refusal) : settle s (.error (.refusal r)) = .refused r := rfl
@[simp] theorem settle_raiseCorrupt (s : State) (d : CorruptDetail) :
    settle s (raiseCorrupt d) = .next (takeException (.corruptStream d) s) := rfl
@[simp] theorem settle_raiseFormat (s : State) (d : FormatDetail) :
    settle s (raiseFormat d) = .next (takeException (.formatError d) s) := rfl

/-- A next state is the step's own effect, or the taken exception it raised (R226). -/
theorem settle_eq_next {s t : State} {r : Except Stop State} :
    settle s r = .next t ↔ r = .ok t ∨ ∃ e, r = .error (.raised e) ∧ t = takeException e s := by
  rcases r with (e | f | q) | u <;> simp [settle, eq_comm]

theorem settle_eq_fault {s : State} {r : Except Stop State} {f : Fault} :
    settle s r = .fault f ↔ r = .error (.fault f) := by
  rcases r with (e | f' | q) | u <;> simp [settle]

theorem settle_eq_refused {s : State} {r : Except Stop State} {q : Refusal} :
    settle s r = .refused q ↔ r = .error (.refusal q) := by
  rcases r with (e | f | q') | u <;> simp [settle]

@[simp] theorem takeException_eq (e : Exc) (s : State) :
    takeException e s = { s with errcode := e.code, phase := .error } := rfl

@[simp] theorem start_eq (s : State) : start s = { s with errcode := 0, phase := .validate, errStores := [] } := rfl

/-- `InWord(i)` inside IMEM. -/
theorem inWord_eq {s : State} {i : Nat} (h : 4 * i + 3 < s.par.inCap) :
    inWord s i = .ok (s.imem.readWord (4 * i)) := if_pos h

/-- All that `InWord` can do. -/
theorem inWord_cases (s : State) (i : Nat) :
    (4 * i + 3 < s.par.inCap ∧ inWord s i = .ok (s.imem.readWord (4 * i))) ∨
      (s.par.inCap ≤ 4 * i + 3 ∧ inWord s i = .error (.fault (.imemAddress (4 * i)))) := by
  unfold inWord
  split
  · exact .inl ⟨by assumption, rfl⟩
  · exact .inr ⟨by omega, rfl⟩

/-- All that a byte read of OMEM can do. -/
theorem omemReadByte_cases (s : State) (a : Nat) :
    (a < s.par.outCap ∧ omemReadByte s a = .ok (s.omem.read a)) ∨
      (s.par.outCap ≤ a ∧ omemReadByte s a = .error (.fault (.omemAddress a))) := by
  unfold omemReadByte
  split
  · exact .inl ⟨by assumption, rfl⟩
  · exact .inr ⟨by omega, rfl⟩

theorem enabledBelow_iff (cap a : Nat) (be : BitVec 4) :
    enabledBelow cap a be = true ↔ ∀ k < 4, be.getLsbD k = true → a + k < cap := by
  simp only [enabledBelow, List.all_eq_true, List.mem_range, Bool.or_eq_true, Bool.not_eq_true',
    decide_eq_true_eq]
  refine forall_congr' fun k => forall_congr' fun _ => ?_
  cases be.getLsbD k <;> simp

/-- All that a masked word write of OMEM can do. -/
theorem omemWriteMasked_cases (s : State) (a : Nat) (v : Word) (be : BitVec 4) :
    (enabledBelow s.par.outCap a be = true ∧ omemWriteMasked s a v be = .ok (s.omem.writeMasked a v be)) ∨
      (enabledBelow s.par.outCap a be = false ∧
        omemWriteMasked s a v be = .error (.fault (.omemAddress a))) := by
  unfold omemWriteMasked
  cases enabledBelow s.par.outCap a be <;> simp

/-- The eight codes trap entry can write (R38, R221 to R224). -/
theorem Exc.code_mem (e : Exc) :
    e.code = 0x11 ∨ e.code = 0x21 ∨ e.code = 0x31 ∨ e.code = 0x41 ∨ e.code = 0x12 ∨ e.code = 0x22 ∨
      e.code = 0x32 ∨ e.code = 0x42 := by
  rcases e with d | d <;> cases d <;> decide

end Sys2Proof.Machine
end

