-- ==== Sys2Proof/Laws/Assembler.lean ====
section
/-! SUPPORT. What `Emit`, commit, `Flush` and `OutRead` can do. -/

namespace Sys2Proof.Machine

/-- Lane `j` of `ACC` after byte `b` is inserted in lane `k`. -/
theorem byteOf_insertLane (acc : Word) (b : Byte) {k j : Nat} (hk : k < 4) (hj : j < 4) :
    byteOf (insertLane acc k b) j = if j = k then b else byteOf acc j := by
  apply BitVec.eq_of_getLsbD_eq
  intro i hi
  unfold byteOf insertLane
  by_cases h : j = k
  · subst h
    rw [if_pos rfl]
    simp only [BitVec.getLsbD_extractLsb', BitVec.getLsbD_or, BitVec.getLsbD_and, BitVec.getLsbD_not,
      BitVec.getLsbD_shiftLeft, BitVec.getLsbD_setWidth]
    have h2 : (255#32).getLsbD i = true := by interval_cases i <;> rfl
    have e : 8 * j + i - 8 * j = i := by omega
    simp [hi, show 8 * j + i < 32 by omega, show i < 32 by omega, e, h2]
  · rw [if_neg h]
    simp only [BitVec.getLsbD_extractLsb', BitVec.getLsbD_or, BitVec.getLsbD_and, BitVec.getLsbD_not,
      BitVec.getLsbD_shiftLeft, BitVec.getLsbD_setWidth]
    rcases Nat.lt_or_gt_of_ne h with hlt | hgt
    · simp [hi, show 8 * j + i < 32 by omega, show 8 * j + i < 8 * k by omega]
    · have h2 : (255#32).getLsbD (8 * j + i - 8 * k) = false := by
        have : 8 ≤ 8 * j + i - 8 * k := by omega
        rw [BitVec.getLsbD_ofNat, show (255 : Nat) = 2 ^ 8 - 1 from rfl, Nat.testBit_two_pow_sub_one]
        simp [show ¬ 8 * j + i - 8 * k < 8 by omega]
      have h3 : b.getLsbD (8 * j + i - 8 * k) = false := BitVec.getLsbD_of_ge _ _ (by omega)
      simp [hi, show 8 * j + i < 32 by omega, h2, h3]

theorem lane_lt (s : State) : lane s < 4 := Nat.mod_lt _ (by omega)

theorem pendingBase_add_lane (s : State) : pendingBase s + lane s = s.wridx.toNat := by
  unfold pendingBase lane
  omega

/-- The write index does not wrap below the buffer's size (R26). -/
theorem toNat_wridx_succ {s : State} (h : s.wridx.toNat < s.osize.toNat) :
    (s.wridx + 1).toNat = s.wridx.toNat + 1 := by
  have := s.osize.isLt
  rw [BitVec.toNat_add]
  simp
  omega

/-- The state after `Emit`'s register writes and before its commit. -/
def afterInsert (b : Byte) (s : State) : State :=
  s.setEmitted (s.wridx + 1) (insertLane s.acc (lane s) b) b

/-- The enabled bytes of a commit: all four (R172). -/
theorem enabledBelow_all {cap a : Nat} : enabledBelow cap a 15#4 = true ↔ a + 3 < cap := by
  rw [enabledBelow_iff]
  constructor
  · intro h
    exact h 3 (by omega) (by decide)
  · intro h k hk _
    omega

/-- The enabled bytes of a flush with `m` pending lanes: the low `m` (R174). -/
theorem enabledBelow_low {cap a m : Nat} (hm : 1 ≤ m) (hm4 : m < 4) :
    enabledBelow cap a (BitVec.ofNat 4 (2 ^ m - 1)) = true ↔ a + m ≤ cap := by
  rw [enabledBelow_iff]
  interval_cases m
  · constructor
    · intro h
      have := h 0 (by omega) (by decide)
      omega
    · intro h k hk hb
      interval_cases k <;> first | omega | exact absurd hb (by decide)
  · constructor
    · intro h
      have := h 1 (by omega) (by decide)
      omega
    · intro h k hk hb
      interval_cases k <;> first | omega | exact absurd hb (by decide)
  · constructor
    · intro h
      have := h 2 (by omega) (by decide)
      omega
    · intro h k hk hb
      interval_cases k <;> first | omega | exact absurd hb (by decide)

/-- All that a successful `Emit` can be (R171, R172): the byte is inserted, and when that fills the word
the word is committed. -/
theorem emit_eq_ok {s t : State} {b : Byte} (h : emit b s = .ok t) :
    s.wridx.toNat < s.osize.toNat ∧
      ((lane s ≠ 3 ∧ t = afterInsert b s) ∨
        (lane s = 3 ∧ s.wridx.toNat < s.par.outCap ∧
          t = (afterInsert b s).setOutput 0
            (s.omem.writeMasked (pendingBase s) (insertLane s.acc (lane s) b) 15#4))) := by
  unfold emit at h
  split at h
  · exact absurd h (by simp [raiseCorrupt])
  · rename_i ho
    have hw := toNat_wridx_succ (s := s) (by omega)
    refine ⟨by omega, ?_⟩
    have hl : lane (s.setEmitted (s.wridx + 1) (insertLane s.acc (lane s) b) b) = (s.wridx.toNat + 1) % 4 := by
      simp [lane]
    dsimp only at h
    rw [hl] at h
    split at h
    · rename_i hz
      unfold commit at h
      obtain ⟨m, hm, h⟩ := bind_eq_ok.mp h
      have hb : s.wridx.toNat + 1 - 4 = pendingBase s := by unfold pendingBase; omega
      rcases omemWriteMasked_cases (s.setEmitted (s.wridx + 1) (insertLane s.acc (lane s) b) b)
        ((s.setEmitted (s.wridx + 1) (insertLane s.acc (lane s) b) b).wridx.toNat - 4)
        (s.setEmitted (s.wridx + 1) (insertLane s.acc (lane s) b) b).acc 15#4 with ⟨hc, hm'⟩ | ⟨_, hm'⟩
      · rw [hm'] at hm
        simp only [State.setEmitted_wridx, State.setEmitted_acc, State.setEmitted_omem, State.setEmitted_par,
          hw, hb] at hm hc
        refine .inr ⟨by unfold lane; omega, ?_, ?_⟩
        · have := enabledBelow_all.mp hc
          unfold pendingBase at this
          omega
        · rw [← Except.ok.inj h, ← Except.ok.inj hm]
          rfl
      · rw [hm'] at hm
        exact absurd hm (by simp)
    · exact .inl ⟨by unfold lane; omega, (Except.ok.inj h).symm⟩

/-- When `Emit` succeeds. -/
theorem emit_ok {s : State} {b : Byte} (h : s.wridx.toNat < s.osize.toNat) (hc : s.osize.toNat ≤ s.par.outCap) :
    ∃ t, emit b s = .ok t := by
  have hw := toNat_wridx_succ h
  unfold emit
  rw [if_neg (by omega)]
  dsimp only
  split
  · rename_i hz
    unfold commit
    have hl : (s.wridx.toNat + 1) % 4 = 0 := by simpa [lane, hw] using hz
    rcases omemWriteMasked_cases (s.setEmitted (s.wridx + 1) (insertLane s.acc (lane s) b) b)
      ((s.setEmitted (s.wridx + 1) (insertLane s.acc (lane s) b) b).wridx.toNat - 4)
      (s.setEmitted (s.wridx + 1) (insertLane s.acc (lane s) b) b).acc 15#4 with ⟨_, hm⟩ | ⟨hn, _⟩
    · rw [hm]
      exact ⟨_, rfl⟩
    · rw [← Bool.not_eq_true, enabledBelow_all] at hn
      simp only [State.setEmitted_wridx, State.setEmitted_par, hw] at hn
      omega
  · exact ⟨_, rfl⟩

/-- `Emit` at the end of the buffer (R171, R223). -/
theorem emit_overrun {s : State} {b : Byte} (h : s.osize.toNat ≤ s.wridx.toNat) :
    emit b s = raiseCorrupt .outputOverrun := by
  unfold emit
  rw [if_pos h]

/-- The one exception `Emit` raises, and when (R223). -/
theorem emit_eq_raised {s : State} {b : Byte} {e : Exc} (h : emit b s = .error (.raised e)) :
    s.osize.toNat ≤ s.wridx.toNat ∧ e = .corruptStream .outputOverrun := by
  by_cases ho : s.osize.toNat ≤ s.wridx.toNat
  · rw [emit_overrun ho] at h
    exact ⟨ho, by simpa [raiseCorrupt, eq_comm] using h⟩
  · unfold emit at h
    rw [if_neg ho] at h
    dsimp only at h
    split at h
    · unfold commit at h
      rcases bind_eq_error.mp h with h | ⟨m, _, h⟩
      · rcases omemWriteMasked_cases (s.setEmitted (s.wridx + 1) (insertLane s.acc (lane s) b) b)
          ((s.setEmitted (s.wridx + 1) (insertLane s.acc (lane s) b) b).wridx.toNat - 4)
          (s.setEmitted (s.wridx + 1) (insertLane s.acc (lane s) b) b).acc 15#4 with ⟨_, hm⟩ | ⟨_, hm⟩ <;>
        · rw [hm] at h
          simp at h
      · simp at h
    · simp at h

/-- `Emit` refuses nothing. -/
theorem emit_not_refused (s : State) (b : Byte) (r : Refusal) : emit b s ≠ .error (.refusal r) := by
  intro h
  unfold emit at h
  split at h
  · exact absurd h (by simp [raiseCorrupt])
  · dsimp only at h
    split at h
    · unfold commit at h
      rcases bind_eq_error.mp h with h | ⟨m, _, h⟩
      · rcases omemWriteMasked_cases (s.setEmitted (s.wridx + 1) (insertLane s.acc (lane s) b) b)
          ((s.setEmitted (s.wridx + 1) (insertLane s.acc (lane s) b) b).wridx.toNat - 4)
          (s.setEmitted (s.wridx + 1) (insertLane s.acc (lane s) b) b).acc 15#4 with ⟨_, hm⟩ | ⟨_, hm⟩ <;>
        · rw [hm] at h
          simp at h
      · simp at h
    · simp at h

/-- `Emit` touches `WRIDX`, `ACC`, `LASTB` and OMEM only; the last byte is the one emitted. -/
theorem emit_frame {s t : State} {b : Byte} (h : emit b s = .ok t) :
    ∃ a m, t = (s.setEmitted (s.wridx + 1) a b).setOutput a m := by
  rcases emit_eq_ok h with ⟨_, ⟨_, rfl⟩ | ⟨_, _, rfl⟩⟩
  · exact ⟨_, _, rfl⟩
  · exact ⟨0, _, rfl⟩

/-- All that `Flush` can do (R174). -/
theorem flush_cases (s : State) :
    (lane s = 0 ∧ flush s = .ok s) ∨
      (lane s ≠ 0 ∧ s.wridx.toNat ≤ s.par.outCap ∧ flush s = .ok (s.setOutput s.acc
        (s.omem.writeMasked (pendingBase s) s.acc (BitVec.ofNat 4 (2 ^ lane s - 1))))) ∨
      (lane s ≠ 0 ∧ s.par.outCap < s.wridx.toNat ∧
        flush s = .error (.fault (.omemAddress (pendingBase s)))) := by
  unfold flush
  by_cases h : lane s = 0
  · rw [if_pos h]
    exact .inl ⟨h, rfl⟩
  · rw [if_neg h]
    have hl := lane_lt s
    have hb := pendingBase_add_lane s
    refine .inr ?_
    rcases omemWriteMasked_cases s (pendingBase s) s.acc (BitVec.ofNat 4 (2 ^ lane s - 1)) with
      ⟨hc, hm⟩ | ⟨hc, hm⟩
    · rw [enabledBelow_low (by omega) hl] at hc
      rw [hm]
      exact .inl ⟨h, by omega, rfl⟩
    · rw [← Bool.not_eq_true, enabledBelow_low (by omega) hl] at hc
      rw [hm]
      exact .inr ⟨h, by omega, rfl⟩

/-- All that `OutRead` can do (R175). -/
theorem outRead_cases (j : Nat) (s : State) :
    (pendingBase s ≤ j ∧ outRead j s = .ok (byteOf s.acc (j % 4))) ∨
      (j < pendingBase s ∧ j < s.par.outCap ∧ outRead j s = .ok (s.omem.read j)) ∨
      (j < pendingBase s ∧ s.par.outCap ≤ j ∧ outRead j s = .error (.fault (.omemAddress j))) := by
  unfold outRead
  by_cases h : pendingBase s ≤ j
  · rw [if_pos h]
    exact .inl ⟨h, rfl⟩
  · rw [if_neg h]
    refine .inr ?_
    rcases omemReadByte_cases s j with ⟨hc, hr⟩ | ⟨hc, hr⟩
    · exact .inl ⟨by omega, hc, hr⟩
    · exact .inr ⟨by omega, hc, hr⟩

/-- The bit of an enable mask with `m` low bits. -/
theorem getLsbD_lowMask {m k : Nat} (hk : k < 4) :
    (BitVec.ofNat 4 (2 ^ m - 1)).getLsbD k = decide (k < m) := by
  rw [BitVec.getLsbD_ofNat, Nat.testBit_two_pow_sub_one]
  simp [hk]

end Sys2Proof.Machine
end

