-- ==== Sys2Proof/Laws/Operands.lean ====
section
/-! SUPPORT. The small lemmas of the operands and of the table predicate. -/

namespace Sys2Proof

theorem getLsbD_mask (n i : Nat) : (mask n).getLsbD i = (decide (i < 32) && decide (i < n)) := by
  unfold mask
  split
  · rename_i h
    simp only [BitVec.getLsbD_allOnes]
    by_cases hi : i < 32
    · simp [hi, show i < n by omega]
    · simp [hi]
  · rename_i h
    rw [BitVec.getLsbD_ofNat, Nat.testBit_two_pow_sub_one]

/-- A bit of `Field(lo, w)` is a window bit (R122). -/
theorem getLsbD_field (w : Word) (lo width i : Nat) :
    (field w lo width).getLsbD i = (decide (i < width) && w.getLsbD (lo + i)) := by
  unfold field
  rw [BitVec.getLsbD_and, BitVec.getLsbD_ushiftRight, getLsbD_mask]
  by_cases hi : i < 32
  · simp [hi, Bool.and_comm]
  · have : w.getLsbD (lo + i) = false := BitVec.getLsbD_of_ge _ _ (by omega)
    simp [this]

/-- `WF_TABLE` as R41 words it. -/
theorem wfTable_iff (t : CodeTable) :
    wfTable t = true ↔ ∀ (p : BitVec 2) (s : BitVec 4), codedLength t p s ≤ 32 := by
  simp only [wfTable, List.all_eq_true, List.mem_range, decide_eq_true_eq]
  constructor
  · intro h p s
    have := h p.toNat p.isLt s.toNat s.isLt
    simpa using this
  · intro h p _ s _
    exact h _ _

/-- Under `WF_TABLE` a coded symbol has 7 to 32 bits (R97). -/
theorem codedLength_bounds {t : CodeTable} (h : wfTable t = true) (p : BitVec 2) (s : BitVec 4) :
    7 ≤ codedLength t p s ∧ codedLength t p s ≤ 32 :=
  ⟨by unfold codedLength; omega, (wfTable_iff t).mp h p s⟩

/-- Under `WF_TABLE` every symbol has 7 to 32 bits (R97). -/
theorem symbolLength_bounds {t : CodeTable} (h : wfTable t = true) (i : Instr) :
    7 ≤ symbolLength t i ∧ symbolLength t i ≤ 32 := by
  cases i with
  | lit b => simp [symbolLength]
  | run p xa s xb => exact codedLength_bounds h p s
  | copy p xa s xb => exact codedLength_bounds h p s
  | endSym p xa s xb => exact codedLength_bounds h p s

/-- All that `classify` can answer (R95). -/
theorem classify_cases (t : CodeTable) (p : BitVec 2) (xa : Word) (s : BitVec 4) (xb : Word) :
    (Config.terminal.toNat ≤ (symValue t s xb).toNat ∧ classify t p xa s xb = .endSym p xa s xb) ∨
      (symValue t s xb = 0 ∧ classify t p xa s xb = .run p xa s xb) ∨
      (1 ≤ (symValue t s xb).toNat ∧ (symValue t s xb).toNat < Config.terminal.toNat ∧
        classify t p xa s xb = .copy p xa s xb) := by
  unfold classify
  by_cases h : Config.terminal.ule (symValue t s xb) = true
  · rw [if_pos h]
    exact .inl ⟨by simpa [BitVec.ule] using h, rfl⟩
  · rw [if_neg h]
    have h' : (symValue t s xb).toNat < Config.terminal.toNat := by
      simpa [BitVec.ule] using h
    by_cases h0 : symValue t s xb = 0
    · rw [if_pos h0]
      exact .inr (.inl ⟨h0, rfl⟩)
    · rw [if_neg h0]
      refine .inr (.inr ⟨?_, h', rfl⟩)
      rcases Nat.eq_zero_or_pos (symValue t s xb).toNat with hz | hp
      · exact absurd (BitVec.eq_of_toNat_eq (by simpa using hz)) h0
      · exact hp

/-- The checks of a coded symbol, as propositions (R93, R95). -/
theorem codedIllFormed_eq_none {t : CodeTable} {p : BitVec 2} {xa : Word} {s : BitVec 4} {xb : Word}
    {f : Word → Bool} :
    codedIllFormed? t p xa s xb f = none ↔
      codedLength t p s ≤ 32 ∧ xa.toNat < 2 ^ codeLenA t p ∧ xb.toNat < 2 ^ codeLenB t s ∧
        f (symValue t s xb) = true := by
  unfold codedIllFormed?
  by_cases h1 : 32 < codedLength t p s
  · rw [if_pos h1]
    simp
    omega
  · rw [if_neg h1]
    by_cases h2 : 2 ^ codeLenA t p ≤ xa.toNat
    · rw [if_pos h2]
      simp
      omega
    · rw [if_neg h2]
      by_cases h3 : 2 ^ codeLenB t s ≤ xb.toNat
      · rw [if_pos h3]
        simp
        omega
      · rw [if_neg h3]
        cases f (symValue t s xb)
        · simp
        · simp
          omega

theorem wellFormed_lit (t : CodeTable) (b : Byte) : (Instr.lit b).WellFormed t := rfl

theorem wellFormed_run {t : CodeTable} {p : BitVec 2} {xa : Word} {s : BitVec 4} {xb : Word} :
    (Instr.run p xa s xb).WellFormed t ↔
      codedLength t p s ≤ 32 ∧ xa.toNat < 2 ^ codeLenA t p ∧ xb.toNat < 2 ^ codeLenB t s ∧
        symValue t s xb = 0 := by
  simp only [Instr.WellFormed, Instr.illFormed?, codedIllFormed_eq_none, beq_iff_eq]

theorem wellFormed_copy {t : CodeTable} {p : BitVec 2} {xa : Word} {s : BitVec 4} {xb : Word} :
    (Instr.copy p xa s xb).WellFormed t ↔
      codedLength t p s ≤ 32 ∧ xa.toNat < 2 ^ codeLenA t p ∧ xb.toNat < 2 ^ codeLenB t s ∧
        symValue t s xb ≠ 0 ∧ (symValue t s xb).toNat < Config.terminal.toNat := by
  simp only [Instr.WellFormed, Instr.illFormed?, codedIllFormed_eq_none, Bool.and_eq_true, bne_iff_ne,
    BitVec.ult, decide_eq_true_eq]

theorem wellFormed_endSym {t : CodeTable} {p : BitVec 2} {xa : Word} {s : BitVec 4} {xb : Word} :
    (Instr.endSym p xa s xb).WellFormed t ↔
      codedLength t p s ≤ 32 ∧ xa.toNat < 2 ^ codeLenA t p ∧ xb.toNat < 2 ^ codeLenB t s ∧
        Config.terminal.toNat ≤ (symValue t s xb).toNat := by
  simp only [Instr.WellFormed, Instr.illFormed?, codedIllFormed_eq_none, BitVec.ule, decide_eq_true_eq]

/-- All that `decode` can answer (R141): a `LIT`, or the class the value of the coded symbol selects. -/
theorem decode_eq_ok {t : CodeTable} {w : Word} {i : Instr} (h : decode t w = .ok i) :
    (w.getLsbD 0 = false ∧ i = .lit (w.extractLsb' 1 8)) ∨
      (w.getLsbD 0 = true ∧ ∃ p xa s xb, codedLength t p s ≤ 32 ∧ i = classify t p xa s xb ∧
        p = w.extractLsb' 1 2 ∧ xa = field w 3 (codeLenA t p) ∧
        s = ((w >>> 3) >>> codeLenA t p).extractLsb' 0 4 ∧
        xb = (((w >>> 3) >>> codeLenA t p) >>> 4) &&& mask (codeLenB t s)) := by
  unfold decode at h
  split at h
  · rename_i h0
    exact .inl ⟨h0, (Except.ok.inj h).symm⟩
  · rename_i h0
    refine .inr ⟨by simpa using h0, ?_⟩
    dsimp only at h
    split at h
    · exact absurd h (by simp)
    · rename_i hlen
      exact ⟨_, _, _, _, by omega, (Except.ok.inj h).symm, rfl, rfl, rfl, rfl⟩

/-- Under `WF_TABLE` every window decodes (R152). -/
theorem decode_ok {t : CodeTable} (h : wfTable t = true) (w : Word) : ∃ i, decode t w = .ok i := by
  unfold decode
  split
  · exact ⟨_, rfl⟩
  · dsimp only
    rw [if_neg (by have := (codedLength_bounds h (w.extractLsb' 1 2)
                    (((w >>> 3) >>> codeLenA t (w.extractLsb' 1 2)).extractLsb' 0 4)).2; omega)]
    exact ⟨_, rfl⟩

/-- A decoded `COPY` has `1 <= sym <= 0x10001` (R95, R149). -/
theorem decode_copy_sym {t : CodeTable} {w : Word} {p : BitVec 2} {xa : Word} {s : BitVec 4} {xb : Word}
    (h : decode t w = .ok (.copy p xa s xb)) :
    1 ≤ (symValue t s xb).toNat ∧ (symValue t s xb).toNat ≤ 0x10001 := by
  rcases decode_eq_ok h with ⟨_, h⟩ | ⟨_, p', xa', s', xb', _, h, _⟩
  · exact absurd h (by simp)
  · rcases classify_cases t p' xa' s' xb' with ⟨_, hc⟩ | ⟨_, hc⟩ | ⟨h1, h2, hc⟩
    · rw [hc] at h
      exact absurd h (by simp)
    · rw [hc] at h
      exact absurd h (by simp)
    · rw [hc] at h
      injection h with e1 e2 e3 e4
      subst e3 e4
      have : Config.terminal.toNat = 0x10002 := rfl
      omega

end Sys2Proof
end

