-- ==== Sys2Proof/Laws/Reader.lean ====
section
/-! SUPPORT. What `Consume` and `InitWindow` can do. -/

namespace Sys2Proof.Machine

/-- `Consume(n)` without a refill. -/
theorem consume_slide {s : State} {len : Nat} (h1 : 1 ≤ len) (h2 : len ≤ 32) (h : len ≤ s.cnt.toNat) :
    consume len s = .ok (slide s len) := by
  unfold consume
  rw [if_neg (by omega), if_pos h]

/-- `Consume(n)` with a refill. -/
theorem consume_refill {s : State} {len : Nat} (h1 : 1 ≤ len) (h2 : len ≤ 32) (h : s.cnt.toNat < len)
    (hn : s.rdcur.toNat + 1 < s.n.toNat) (hc : 4 * s.rdcur.toNat + 3 < s.par.inCap) :
    consume len s = .ok (refill s len (s.imem.readWord (4 * s.rdcur.toNat))) := by
  unfold consume
  rw [if_neg (by omega), if_neg (by omega), if_neg (by omega), inWord_eq hc]
  rfl

/-- `Consume(n)` that would slide the window past the last payload word (R124). -/
theorem consume_overrun {s : State} {len : Nat} (h1 : 1 ≤ len) (h2 : len ≤ 32) (h : s.cnt.toNat < len)
    (hn : s.n.toNat ≤ s.rdcur.toNat + 1) : consume len s = raiseCorrupt .payloadOverrun := by
  unfold consume
  rw [if_neg (by omega), if_neg (by omega), if_pos hn]

/-- All that a successful `Consume` can be. -/
theorem consume_eq_ok {s t : State} {len : Nat} (h : consume len s = .ok t) :
    1 ≤ len ∧ len ≤ 32 ∧
      ((len ≤ s.cnt.toNat ∧ t = slide s len) ∨
        (s.cnt.toNat < len ∧ s.rdcur.toNat + 1 < s.n.toNat ∧ 4 * s.rdcur.toNat + 3 < s.par.inCap ∧
          t = refill s len (s.imem.readWord (4 * s.rdcur.toNat)))) := by
  by_cases hl : len = 0 ∨ 32 < len
  · simp [consume, hl] at h
  · refine ⟨by omega, by omega, ?_⟩
    by_cases hc : len ≤ s.cnt.toNat
    · rw [consume_slide (by omega) (by omega) hc] at h
      exact .inl ⟨hc, (Except.ok.inj h).symm⟩
    · by_cases hn : s.n.toNat ≤ s.rdcur.toNat + 1
      · rw [consume_overrun (by omega) (by omega) (by omega) hn] at h
        exact absurd h (by simp [raiseCorrupt])
      · rcases inWord_cases s s.rdcur.toNat with ⟨hi, _⟩ | ⟨_, hw⟩
        · rw [consume_refill (by omega) (by omega) (by omega) (by omega) hi] at h
          exact .inr ⟨by omega, by omega, hi, (Except.ok.inj h).symm⟩
        · exact absurd h (by simp [consume, hl, hc, hn, hw])

/-- The one exception `Consume` raises, and when (R124, R222). -/
theorem consume_eq_raised {s : State} {len : Nat} {e : Exc} (h : consume len s = .error (.raised e)) :
    1 ≤ len ∧ len ≤ 32 ∧ s.cnt.toNat < len ∧ s.n.toNat ≤ s.rdcur.toNat + 1 ∧
      e = .corruptStream .payloadOverrun := by
  by_cases hl : len = 0 ∨ 32 < len
  · simp [consume, hl] at h
  · by_cases hc : len ≤ s.cnt.toNat
    · rw [consume_slide (by omega) (by omega) hc] at h
      exact absurd h (by simp)
    · by_cases hn : s.n.toNat ≤ s.rdcur.toNat + 1
      · rw [consume_overrun (by omega) (by omega) (by omega) hn] at h
        refine ⟨by omega, by omega, by omega, hn, ?_⟩
        simpa [raiseCorrupt, eq_comm] using h
      · rcases inWord_cases s s.rdcur.toNat with ⟨hi, _⟩ | ⟨_, hw⟩
        · rw [consume_refill (by omega) (by omega) (by omega) (by omega) hi] at h
          exact absurd h (by simp)
        · exact absurd h (by simp [consume, hl, hc, hn, hw])

/-- `Consume` touches the four reader registers only. -/
theorem consume_frame {s t : State} {len : Nat} (h : consume len s = .ok t) :
    ∃ c l k r, t = s.setWindow c l k r := by
  rcases consume_eq_ok h with ⟨_, _, ⟨_, rfl⟩ | ⟨_, _, _, rfl⟩⟩
  · exact ⟨_, _, _, _, rfl⟩
  · exact ⟨_, _, _, _, rfl⟩

/-- `InitWindow` inside IMEM. -/
theorem initWindow_eq {s : State} (h : 19 < s.par.inCap) :
    initWindow s = .ok (s.setWindow (s.imem.readWord 12) (s.imem.readWord 16) 32 5) := by
  unfold initWindow
  rw [inWord_eq (by omega), inWord_eq (by omega)]
  rfl

/-- All that a successful `InitWindow` can be (R121). -/
theorem initWindow_eq_ok {s t : State} (h : initWindow s = .ok t) :
    19 < s.par.inCap ∧ t = s.setWindow (s.imem.readWord 12) (s.imem.readWord 16) 32 5 := by
  by_cases hc : 19 < s.par.inCap
  · rw [initWindow_eq hc] at h
    exact ⟨hc, (Except.ok.inj h).symm⟩
  · unfold initWindow at h
    obtain ⟨a, _, h⟩ := bind_eq_ok.mp h
    obtain ⟨b, hb, _⟩ := bind_eq_ok.mp h
    rcases inWord_cases s 4 with ⟨h4, _⟩ | ⟨_, h4⟩
    · omega
    · rw [h4] at hb
      exact absurd hb (by simp)

/-- `InitWindow` raises no exception (R121). -/
theorem initWindow_not_raised (s : State) (e : Exc) : initWindow s ≠ .error (.raised e) := by
  unfold initWindow
  intro h
  rcases bind_eq_error.mp h with h | ⟨a, _, h⟩
  · rcases inWord_cases s 3 with ⟨_, h3⟩ | ⟨_, h3⟩ <;> rw [h3] at h <;> simp at h
  · rcases bind_eq_error.mp h with h | ⟨b, _, h⟩
    · rcases inWord_cases s 4 with ⟨_, h4⟩ | ⟨_, h4⟩ <;> rw [h4] at h <;> simp at h
    · simp at h

end Sys2Proof.Machine
end

