-- ==== Sys2Proof/Laws/Engine.lean ====
section
/-! SUPPORT. What each step of the engine can do when it answers a next state, said once: every
invariant is a case analysis over these lemmas. -/

namespace Sys2Proof.Machine

/-- Trap entry as a state (R226). -/
abbrev trapped (e : Exc) (s : State) : State := { s with errcode := e.code, phase := .error }

/-- All that the `LIT` arm can do. -/
theorem execLit_next {b : Byte} {s t : State} (h : execLit b s = .next t) :
    (∃ u, consume 9 s = .ok u ∧ t = (u.setLitb b).setPhase .emitLiteral) ∨
      (s.cnt.toNat < 9 ∧ s.n.toNat ≤ s.rdcur.toNat + 1 ∧
        t = trapped (.corruptStream .payloadOverrun) s) := by
  rcases settle_eq_next.mp h with h | ⟨e, he, rfl⟩
  · obtain ⟨u, hu, h⟩ := bind_eq_ok.mp h
    exact .inl ⟨u, hu, (Except.ok.inj h).symm⟩
  · rcases bind_eq_error.mp he with h | ⟨u, _, h⟩
    · obtain ⟨_, _, hc, hn, rfl⟩ := consume_eq_raised h
      exact .inr ⟨hc, hn, rfl⟩
    · exact absurd h (by simp)

/-- All that a coded arm that consumes can do. -/
theorem readCoded_next {p : BitVec 2} {xa : Word} {sr : BitVec 4} {xb : Word} {q : Phase} {s t : State}
    (h : settle s (readCoded p xa sr xb q s) = .next t) :
    (∃ u, consume (codedLength s.par.table p sr) s = .ok u ∧
      t = (u.setCoded (symValue s.par.table sr xb) (repeatCount s.par.table p xa sr)).setPhase q) ∨
      (s.cnt.toNat < codedLength s.par.table p sr ∧ s.n.toNat ≤ s.rdcur.toNat + 1 ∧
        t = trapped (.corruptStream .payloadOverrun) s) := by
  rcases settle_eq_next.mp h with h | ⟨e, he, rfl⟩
  · obtain ⟨u, hu, h⟩ := bind_eq_ok.mp h
    exact .inl ⟨u, hu, (Except.ok.inj h).symm⟩
  · rcases bind_eq_error.mp he with h | ⟨u, _, h⟩
    · obtain ⟨_, _, hc, hn, rfl⟩ := consume_eq_raised h
      exact .inr ⟨hc, hn, rfl⟩
    · exact absurd h (by simp)

/-- All that the `END` arm can do. -/
theorem execEnd_next {s t : State} (h : execEnd s = .next t) :
    ∃ u, flush s = .ok u ∧ t = u.setPhase .terminate := by
  rcases settle_eq_next.mp h with h | ⟨e, he, _⟩
  · obtain ⟨u, hu, h⟩ := bind_eq_ok.mp h
    exact ⟨u, hu, (Except.ok.inj h).symm⟩
  · rcases bind_eq_error.mp he with h | ⟨u, _, h⟩
    · rcases flush_cases s with ⟨_, hf⟩ | ⟨_, _, hf⟩ | ⟨_, _, hf⟩ <;> rw [hf] at h <;> simp at h
    · exact absurd h (by simp)

/-- All that the `READ_SYMBOL` step can do. -/
theorem readSymbolStep_next {s t : State} (h : readSymbolStep s = .next t) :
    ∃ i, decode s.par.table s.cur = .ok i ∧ exec i s = .next t := by
  unfold readSymbolStep peek at h
  split at h
  · exact ⟨_, by assumption, h⟩
  · exact absurd h (by simp)

/-- All that `EMIT_LITERAL` can do (R178). -/
theorem emitLiteralStep_next {s t : State} (h : emitLiteralStep s = .next t) :
    (∃ u, emit s.litb s = .ok u ∧ t = u.setPhase .readSymbol) ∨
      (s.osize.toNat ≤ s.wridx.toNat ∧ t = trapped (.corruptStream .outputOverrun) s) := by
  rcases settle_eq_next.mp h with h | ⟨e, he, rfl⟩
  · obtain ⟨u, hu, h⟩ := bind_eq_ok.mp h
    exact .inl ⟨u, hu, (Except.ok.inj h).symm⟩
  · rcases bind_eq_error.mp he with h | ⟨u, _, h⟩
    · obtain ⟨ho, rfl⟩ := emit_eq_raised h
      exact .inr ⟨ho, rfl⟩
    · exact absurd h (by simp)

/-- All that `EMIT_RUN` can do (R176). -/
theorem emitRunStep_next {s t : State} (h : emitRunStep s = .next t) :
    (s.rem = 0 ∧ t = s.setPhase .readSymbol) ∨
      (s.rem ≠ 0 ∧ s.wridx ≠ 0 ∧ ∃ u, emit s.lastb s = .ok u ∧ t = u.setRem (s.rem - 1)) ∨
      (s.rem ≠ 0 ∧ s.wridx = 0 ∧ t = trapped (.corruptStream .runWithoutPrevious) s) ∨
      (s.rem ≠ 0 ∧ s.wridx ≠ 0 ∧ s.osize.toNat ≤ s.wridx.toNat ∧
        t = trapped (.corruptStream .outputOverrun) s) := by
  unfold emitRunStep at h
  by_cases h0 : s.rem = 0
  · rw [if_pos h0] at h
    exact .inl ⟨h0, (Host.Outcome.next.inj h).symm⟩
  · rw [if_neg h0] at h
    unfold emitRunByte at h
    by_cases hw : s.wridx = 0
    · rw [if_pos hw] at h
      exact .inr (.inr (.inl ⟨h0, hw, (Host.Outcome.next.inj h).symm⟩))
    · rw [if_neg hw] at h
      rcases settle_eq_next.mp h with h | ⟨e, he, rfl⟩
      · obtain ⟨u, hu, h⟩ := bind_eq_ok.mp h
        exact .inr (.inl ⟨h0, hw, u, hu, (Except.ok.inj h).symm⟩)
      · rcases bind_eq_error.mp he with h | ⟨u, _, h⟩
        · obtain ⟨ho, rfl⟩ := emit_eq_raised h
          exact .inr (.inr (.inr ⟨h0, hw, ho, rfl⟩))
        · exact absurd h (by simp)

/-- All that `EMIT_COPY` can do (R177). -/
theorem emitCopyStep_next {s t : State} (h : emitCopyStep s = .next t) :
    (s.rem = 0 ∧ t = s.setPhase .readSymbol) ∨
      (s.rem ≠ 0 ∧ 2 * s.sym.toNat ≤ s.wridx.toNat ∧ ∃ b u,
        outRead (s.wridx.toNat - 2 * s.sym.toNat) s = .ok b ∧ emit b s = .ok u ∧ t = u.setRem (s.rem - 1)) ∨
      (s.rem ≠ 0 ∧ s.wridx.toNat < 2 * s.sym.toNat ∧
        t = trapped (.corruptStream .backrefBeforeStart) s) ∨
      (s.rem ≠ 0 ∧ 2 * s.sym.toNat ≤ s.wridx.toNat ∧ s.osize.toNat ≤ s.wridx.toNat ∧
        t = trapped (.corruptStream .outputOverrun) s) := by
  unfold emitCopyStep at h
  by_cases h0 : s.rem = 0
  · rw [if_pos h0] at h
    exact .inl ⟨h0, (Host.Outcome.next.inj h).symm⟩
  · rw [if_neg h0] at h
    unfold emitCopyByte at h
    by_cases hw : s.wridx.toNat < 2 * s.sym.toNat
    · rw [if_pos hw] at h
      exact .inr (.inr (.inl ⟨h0, hw, (Host.Outcome.next.inj h).symm⟩))
    · rw [if_neg hw] at h
      rcases settle_eq_next.mp h with h | ⟨e, he, rfl⟩
      · obtain ⟨b, hb, h⟩ := bind_eq_ok.mp h
        obtain ⟨u, hu, h⟩ := bind_eq_ok.mp h
        exact .inr (.inl ⟨h0, by omega, b, u, hb, hu, (Except.ok.inj h).symm⟩)
      · rcases bind_eq_error.mp he with h | ⟨b, _, h⟩
        · rcases outRead_cases (s.wridx.toNat - 2 * s.sym.toNat) s with ⟨_, hr⟩ | ⟨_, _, hr⟩ | ⟨_, _, hr⟩ <;>
            rw [hr] at h <;> simp at h
        · rcases bind_eq_error.mp h with h | ⟨u, _, h⟩
          · obtain ⟨ho, rfl⟩ := emit_eq_raised h
            exact .inr (.inr (.inr ⟨h0, by omega, ho, rfl⟩))
          · exact absurd h (by simp)

/-- What each check of `VALIDATE` has found when it raises its detail: the ones before it pass (R193). -/
def failsAt (s : State) : FormatDetail → Prop
  | .lenMisaligned => s.inLen.toNat % 4 ≠ 0
  | .tooFewWords => s.inLen.toNat % 4 = 0 ∧ s.inLen.toNat / 4 ≤ 5
  | .badHeadSignature => s.inLen.toNat % 4 = 0 ∧ 5 < s.inLen.toNat / 4 ∧ s.imem.readWord 0 ≠ s.par.signature
  | .badTailSignature => s.inLen.toNat % 4 = 0 ∧ 5 < s.inLen.toNat / 4 ∧
      s.imem.readWord 0 = s.par.signature ∧
      s.imem.readWord (4 * (s.inLen.toNat / 4 - 1)) ≠ s.par.signature

/-- All that `VALIDATE` can do (R193): it raises the `FormatError` of the first check that fails, or
latches a container whose checks all pass. -/
theorem validateStep_next {s t : State} (h : validateStep s = .next t) :
    s.inLen.toNat ≤ s.par.inCap ∧
      ((∃ d, failsAt s d ∧ t = trapped (.formatError d) s) ∨
        (s.inLen.toNat % 4 = 0 ∧ 6 ≤ s.inLen.toNat / 4 ∧ s.imem.readWord 0 = s.par.signature ∧
          s.imem.readWord (4 * (s.inLen.toNat / 4 - 1)) = s.par.signature ∧
          (s.imem.readWord 8).toNat ≤ s.par.outCap ∧
          t = (s.setContainer (BitVec.ofNat 30 (s.inLen.toNat / 4)) (s.imem.readWord 8)).setPhase .prepare)) := by
  unfold validateStep at h
  by_cases hc : s.par.inCap < s.inLen.toNat
  · rw [if_pos hc] at h
    exact absurd h (by simp)
  rw [if_neg hc] at h
  refine ⟨by omega, ?_⟩
  by_cases h4 : s.inLen.toNat % 4 ≠ 0
  · rw [if_pos h4] at h
    exact .inl ⟨.lenMisaligned, h4, (Host.Outcome.next.inj h).symm⟩
  rw [if_neg h4] at h
  unfold wordCount at h
  by_cases h5 : s.inLen.toNat / 4 ≤ 5
  · rw [if_pos h5] at h
    exact .inl ⟨.tooFewWords, ⟨by omega, h5⟩, (Host.Outcome.next.inj h).symm⟩
  rw [if_neg h5] at h
  unfold validateWords wordCount at h
  rw [inWord_eq (by omega), ok_bind] at h
  by_cases h0 : s.imem.readWord (4 * 0) ≠ s.par.signature
  · rw [if_pos h0] at h
    exact .inl ⟨.badHeadSignature, ⟨by omega, by omega, h0⟩, (Host.Outcome.next.inj h).symm⟩
  rw [if_neg h0, inWord_eq (by omega), ok_bind] at h
  by_cases h1 : s.imem.readWord (4 * (s.inLen.toNat / 4 - 1)) ≠ s.par.signature
  · rw [if_pos h1] at h
    exact .inl ⟨.badTailSignature, ⟨by omega, by omega, not_not.mp h0, h1⟩,
      (Host.Outcome.next.inj h).symm⟩
  rw [if_neg h1, inWord_eq (by omega), ok_bind] at h
  by_cases h2 : s.par.outCap < (s.imem.readWord (4 * 2)).toNat
  · rw [if_pos h2] at h
    exact absurd h (by simp)
  rw [if_neg h2] at h
  exact .inr ⟨by omega, by omega, not_not.mp h0, not_not.mp h1, Nat.not_lt.mp h2,
    (Host.Outcome.next.inj h).symm⟩

/-- All that `PREPARE` can do (R194). -/
theorem prepareStep_next {s t : State} (h : prepareStep s = .next t) :
    s.osize.toNat ≤ s.par.outCap ∧ 19 < s.par.inCap ∧
      t = ((s.setWindow (s.imem.readWord 12) (s.imem.readWord 16) 32 5).clearOutput
        (s.omem.zeroFill s.osize.toNat)).setPhase .readSymbol := by
  unfold prepareStep zeroFillOutput at h
  by_cases hc : s.osize.toNat ≤ s.par.outCap
  · rw [if_pos hc, ok_bind] at h
    rcases settle_eq_next.mp h with h | ⟨e, he, rfl⟩
    · obtain ⟨u, hu, h⟩ := bind_eq_ok.mp h
      obtain ⟨hi, rfl⟩ := initWindow_eq_ok hu
      exact ⟨hc, hi, (Except.ok.inj h).symm⟩
    · rcases bind_eq_error.mp he with h | ⟨u, _, h⟩
      · exact absurd h (initWindow_not_raised s e)
      · exact absurd h (by simp)
  · rw [if_neg hc, error_bind] at h
    exact absurd h (by simp)

/-- `engineStep` with a good table is the phase's own step. -/
theorem withGoodTable_eq {s : State} (h : wfTable s.par.table = true)
    (o : Host.Outcome State Fault Refusal) : withGoodTable s o = o := by
  unfold withGoodTable
  rw [if_pos h]

theorem withGoodTable_next {s t : State} {o : Host.Outcome State Fault Refusal}
    (h : withGoodTable s o = .next t) : wfTable s.par.table = true ∧ o = .next t := by
  unfold withGoodTable at h
  split at h
  · exact ⟨by assumption, h⟩
  · exact absurd h (by simp)

/-- All that an engine step can do (R191). -/
theorem engineStep_next {s t : State} (h : engineStep s = .next t) :
    (s.busy = false ∧ t = s) ∨
      (wfTable s.par.table = true ∧
        ((s.phase = .validate ∧ validateStep s = .next t) ∨ (s.phase = .prepare ∧ prepareStep s = .next t) ∨
          (s.phase = .readSymbol ∧ readSymbolStep s = .next t) ∨
          (s.phase = .emitLiteral ∧ emitLiteralStep s = .next t) ∨
          (s.phase = .emitRun ∧ emitRunStep s = .next t) ∨
          (s.phase = .emitCopy ∧ emitCopyStep s = .next t))) := by
  unfold engineStep at h
  split at h <;> rename_i hp
  case h_1 | h_8 | h_9 => exact .inl ⟨by rw [State.busy, hp]; rfl, (Host.Outcome.next.inj h).symm⟩
  all_goals
    obtain ⟨hw, h⟩ := withGoodTable_next h
    exact .inr ⟨hw, by simp [hp, h]⟩

/-- With no host move pending a step is the engine's. -/
theorem step_engine {s : State} (h : s.hostMoves = []) : step s = engineStep s := by
  unfold step turn
  rw [h]

/-- All that a step can be: the engine's, with its move taken off if the host waited, or an access of
the host. -/
theorem step_cases (s : State) :
    (s.hostMoves = [] ∧ step s = engineStep s) ∨
      (∃ rest, s.hostMoves = .wait :: rest ∧ step s = engineStep (s.setHostMoves rest)) ∨
      (∃ m rest, m ≠ .wait ∧ s.hostMoves = m :: rest ∧ step s = hostMove m (s.setHostMoves rest)) := by
  unfold step turn
  cases hm : s.hostMoves with
  | nil => exact .inl ⟨rfl, rfl⟩
  | cons m rest =>
    cases m with
    | wait => exact .inr (.inl ⟨rest, rfl, rfl⟩)
    | writeReg no v => exact .inr (.inr ⟨_, rest, by simp, rfl, rfl⟩)
    | readReg no => exact .inr (.inr ⟨_, rest, by simp, rfl, rfl⟩)
    | writeByte sp a b => exact .inr (.inr ⟨_, rest, by simp, rfl, rfl⟩)
    | writeWord sp i v => exact .inr (.inr ⟨_, rest, by simp, rfl, rfl⟩)
    | readByte sp a => exact .inr (.inr ⟨_, rest, by simp, rfl, rfl⟩)
    | readWord sp i => exact .inr (.inr ⟨_, rest, by simp, rfl, rfl⟩)
    | reset => exact .inr (.inr ⟨_, rest, by simp, rfl, rfl⟩)

end Sys2Proof.Machine
end

