-- ==== Sys2Proof/Laws/HostPort.lean ====
section
/-! SUPPORT. What a host access can do. -/

namespace Sys2Proof.Machine

/-- A memory access of the host that answers a next state: the engine is not busy and the bytes exist. -/
theorem hostAccess_next {sp : Space} {a width : Nat} {s t u : State}
    (h : hostAccess sp a width s t = .next u) : s.busy = false ∧ a + width ≤ capOf sp s ∧ u = t := by
  unfold hostAccess at h
  split at h
  · exact absurd h (by simp)
  · rename_i hb
    split at h
    · exact ⟨by simpa using hb, by assumption, (Host.Outcome.next.inj h).symm⟩
    · exact absurd h (by simp)

/-- What a register write can do: `START`, a new `IN_LEN`, or nothing. -/
theorem writeReg_cases (r : HostReg) (v : Word) (s : State) :
    (s.busy = false ∧ v.getLsbD 0 = true ∧ r = .ctrl ∧ writeReg r v s = start s) ∨
      (s.busy = false ∧ r = .inLen ∧ writeReg r v s = s.setInLen v) ∨ writeReg r v s = s := by
  cases r with
  | ctrl =>
    unfold writeReg
    by_cases h : (v.getLsbD 0 && !s.busy) = true
    · have h' := h
      simp only [Bool.and_eq_true, Bool.not_eq_true'] at h'
      exact .inl ⟨h'.2, h'.1, rfl, if_pos h⟩
    · exact .inr (.inr (if_neg h))
  | inLen =>
    unfold writeReg
    by_cases h : s.busy = true
    · exact .inr (.inr (if_pos h))
    · exact .inr (.inl ⟨by simpa using h, rfl, if_neg h⟩)
  | status => exact .inr (.inr rfl)
  | outSize => exact .inr (.inr rfl)
  | outLen => exact .inr (.inr rfl)
  | errcode => exact .inr (.inr rfl)

/-- A register read touches what the host got and the free-value counter only. -/
theorem readReg_frame (r : HostReg) (s : State) : ∃ v k, readReg r s = s.setHostData v k := by
  unfold readReg returnData returnFree
  split
  · exact ⟨_, _, rfl⟩
  · exact ⟨_, _, rfl⟩

/-- Which addresses are noted after a store. -/
theorem mem_noteStores {a width x : Nat} {noted : List Nat} :
    x ∈ noteStores a noted width ↔ a ≤ x ∧ x < a + width ∨ x ∈ noted := by
  induction width with
  | zero =>
    simp only [noteStores]
    exact ⟨.inr, fun h => h.elim (fun h => by omega) id⟩
  | succ width ih =>
    simp only [noteStores, List.mem_insert_iff, ih, ← or_assoc]
    exact or_congr_left (by omega)

/-- A store of the host to IMEM. -/
@[simp] theorem storeMem_imem (a width : Nat) (m : Memory) (s : State) :
    storeMem .imem a width m s = { s with imem := m } := rfl

/-- A store of the host to OMEM: outside `ERROR` nothing is noted. -/
theorem storeMem_omem {s : State} (h : s.failed = false) (a width : Nat) (m : Memory) :
    storeMem .omem a width m s = { s with omem := m } := by
  unfold storeMem
  rw [h]
  rfl

/-- What a store of the host can do: one of the memories, and OMEM's notes in `ERROR`. -/
theorem storeMem_cases (sp : Space) (a width : Nat) (m : Memory) (s : State) :
    (sp = .imem ∧ storeMem sp a width m s = s.setImem m) ∨
      (sp = .omem ∧ ∃ l, (s.failed = false → l = s.errStores) ∧
        (∀ x, x ∈ l ↔ s.failed = true ∧ a ≤ x ∧ x < a + width ∨ x ∈ s.errStores) ∧
        storeMem sp a width m s = s.setOmem m l) := by
  cases sp with
  | imem => exact .inl ⟨rfl, rfl⟩
  | omem =>
    refine .inr ⟨rfl, _, fun h => if_neg (by simp [h]), fun x => ?_, rfl⟩
    by_cases h : s.failed = true
    · rw [if_pos h, mem_noteStores]
      simp only [h, true_and]
    · rw [if_neg h]
      simp only [h, false_and, false_or, Bool.false_eq_true]

/-- A byte is open exactly in `ERROR`, in OMEM, where the host has not stored. -/
theorem byteIsOpen_iff (sp : Space) (a : Nat) (s : State) :
    byteIsOpen sp a s = true ↔ sp = .omem ∧ s.failed = true ∧ a ∉ s.errStores := by
  cases sp <;> simp [byteIsOpen]

/-- A byte that is not open reads as it stands. -/
theorem hostByte_stands {sp : Space} {a k : Nat} {s : State} (h : byteIsOpen sp (a + k) s = false) :
    hostByte sp a k s = (memOf sp s).read (a + k) :=
  if_neg (by simp [h])

/-- An open byte is one byte of the free word. -/
theorem hostByte_open {sp : Space} {a k : Nat} {s : State} (h : byteIsOpen sp (a + k) s = true) :
    hostByte sp a k s = byteOf (Config.unspecifiedRead s.freeIdx) k :=
  if_pos h

/-- The counter stays if no byte of the read was open. -/
theorem freeAfterRead_stays {sp : Space} {a width : Nat} {s : State}
    (h : ∀ k < width, byteIsOpen sp (a + k) s = false) : freeAfterRead sp a width s = s.freeIdx := by
  refine if_neg ?_
  simp only [List.any_eq_true, List.mem_range, not_exists, not_and]
  intro k hk
  simp [h k hk]

/-- The counter counts on if a byte of the read was open. -/
theorem freeAfterRead_counts {sp : Space} {a width k : Nat} {s : State} (hk : k < width)
    (h : byteIsOpen sp (a + k) s = true) : freeAfterRead sp a width s = s.freeIdx + 1 :=
  if_pos (List.any_eq_true.mpr ⟨k, List.mem_range.mpr hk, h⟩)

/-- A byte read of a byte that is not open returns it. -/
theorem readMemByte_stands {sp : Space} {a : Nat} {s : State} (h : byteIsOpen sp a s = false) :
    readMemByte sp a s = returnData (((memOf sp s).read a).setWidth 32) s := by
  have h0 : ∀ k < 1, byteIsOpen sp (a + k) s = false := by
    intro k hk
    rwa [show a + k = a by omega]
  unfold readMemByte returnData
  rw [hostByte_stands (h0 0 (by omega)), freeAfterRead_stays h0, Nat.add_zero]

/-- A word read of four bytes that are not open returns the little-endian word. -/
theorem readMemWord_stands {sp : Space} {a : Nat} {s : State}
    (h : ∀ k < 4, byteIsOpen sp (a + k) s = false) :
    readMemWord sp a s = returnData ((memOf sp s).readWord a) s := by
  unfold readMemWord returnData
  rw [freeAfterRead_stays h, hostByte_stands (h 3 (by omega)), hostByte_stands (h 2 (by omega)),
    hostByte_stands (h 1 (by omega)), hostByte_stands (h 0 (by omega))]
  rfl

/-- Byte `k` of what a word read returns. -/
theorem byteOf_readMemWord (sp : Space) (a k : Nat) (h : k < 4) (s : State) :
    byteOf (readMemWord sp a s).hostData k = hostByte sp a k s :=
  byteOf_append (fun k => hostByte sp a k s) k h

/-- All that a host move can do when it answers a next state. -/
theorem hostMove_next {m : HostMove} {s t : State} (h : hostMove m s = .next t) :
    t = s ∨ (s.busy = false ∧ t = start s) ∨ (s.busy = false ∧ ∃ v, t = s.setInLen v) ∨
      (∃ v k, t = s.setHostData v k) ∨ t = hardwareReset s ∨
      (s.busy = false ∧ ∃ sp a b, t = storeMem sp a 1 ((memOf sp s).write a b) s) ∨
      (s.busy = false ∧ ∃ sp a v, t = storeMem sp a 4 ((memOf sp s).writeWord a v) s) := by
  cases m with
  | wait => exact .inl (Host.Outcome.next.inj h).symm
  | writeReg no v =>
    simp only [hostMove] at h
    split at h
    · rename_i r _
      rw [← Host.Outcome.next.inj h]
      rcases writeReg_cases r v s with ⟨hb, _, _, hw⟩ | ⟨hb, _, hw⟩ | hw
      · exact .inr (.inl ⟨hb, hw⟩)
      · exact .inr (.inr (.inl ⟨hb, v, hw⟩))
      · exact .inl hw
    · exact absurd h (by simp)
  | readReg no =>
    simp only [hostMove] at h
    split at h
    · rename_i r _
      rw [← Host.Outcome.next.inj h]
      exact .inr (.inr (.inr (.inl (readReg_frame r s))))
    · exact absurd h (by simp)
  | writeByte sp a b =>
    obtain ⟨hb, _, rfl⟩ := hostAccess_next h
    exact .inr (.inr (.inr (.inr (.inr (.inl ⟨hb, sp, a, b, rfl⟩)))))
  | writeWord sp i v =>
    obtain ⟨hb, _, rfl⟩ := hostAccess_next h
    exact .inr (.inr (.inr (.inr (.inr (.inr ⟨hb, sp, 4 * i, v, rfl⟩)))))
  | readByte sp a =>
    obtain ⟨_, _, rfl⟩ := hostAccess_next h
    exact .inr (.inr (.inr (.inl ⟨_, _, rfl⟩)))
  | readWord sp i =>
    obtain ⟨_, _, rfl⟩ := hostAccess_next h
    exact .inr (.inr (.inr (.inl ⟨_, _, rfl⟩)))
  | reset => exact .inr (.inr (.inr (.inr (.inl (Host.Outcome.next.inj h).symm))))

end Sys2Proof.Machine
end

