-- ==== Sys2Proof/Laws/Output.lean ====
section
/-! SUPPORT. What `Emit`, `OutRead` and `Flush` do to the logical output image `OUT` (R45). -/

namespace Sys2Proof.Safety

open Sys2Proof.Machine

/-- `OUT` at an index that is not pending is OMEM. -/
theorem outImage_committed {s : State} {j : Nat} (h : j < pendingBase s ∨ s.wridx.toNat ≤ j) :
    outImage s j = s.omem.read j := by
  unfold outImage
  rw [if_neg (by omega)]

/-- `OUT` at a pending index is a lane of `ACC`. -/
theorem outImage_pending {s : State} {j : Nat} (h : pendingBase s ≤ j) (h' : j < s.wridx.toNat) :
    outImage s j = byteOf s.acc (j % 4) := by
  unfold outImage
  rw [if_pos ⟨h, h'⟩]

/-- `OUT` depends on `WRIDX`, `ACC` and OMEM only. -/
theorem outImage_congr {s t : State} (hw : t.wridx = s.wridx) (ha : t.acc = s.acc) (hm : t.omem = s.omem) :
    outImage t = outImage s := by
  funext j
  unfold outImage pendingBase
  rw [hw, ha, hm]

/-- After a successful `Emit` the write index is one higher, the last byte is the byte emitted. -/
theorem emit_wridx {s t : State} {b : Byte} (h : emit b s = .ok t) :
    t.wridx.toNat = s.wridx.toNat + 1 ∧ t.wridx = s.wridx + 1 ∧ t.lastb = b ∧
      s.wridx.toNat < s.osize.toNat := by
  have hw := toNat_wridx_succ (emit_eq_ok h).1
  obtain ⟨a, m, rfl⟩ := emit_frame h
  exact ⟨hw, rfl, rfl, (emit_eq_ok h).1⟩

/-- `Emit(b)` appends `b` to the logical output and changes no other byte of it. -/
theorem outImage_emit {s t : State} {b : Byte} (wf : s.omem.wf = true) (h : emit b s = .ok t) (j : Nat) :
    outImage t j = if j = s.wridx.toNat then b else outImage s j := by
  obtain ⟨ho, hc⟩ := emit_eq_ok h
  have hw := toNat_wridx_succ ho
  have hl := lane_lt s
  have hb := pendingBase_add_lane s
  have hlane : lane s = s.wridx.toNat % 4 := rfl
  rcases hc with ⟨h3, rfl⟩ | ⟨h3, _, rfl⟩
  · have e1 : (afterInsert b s).wridx.toNat = s.wridx.toNat + 1 := hw
    have e2 : pendingBase (afterInsert b s) = pendingBase s := by
      unfold pendingBase
      rw [e1]
      omega
    by_cases hj : pendingBase s ≤ j ∧ j < s.wridx.toNat + 1
    · rw [outImage_pending (by omega) (by omega)]
      show byteOf (insertLane s.acc (lane s) b) (j % 4) = _
      rw [byteOf_insertLane _ _ hl (by omega)]
      by_cases hjw : j = s.wridx.toNat
      · rw [if_pos (by omega), if_pos hjw]
      · rw [if_neg (by omega), if_neg hjw, outImage_pending hj.1 (by omega)]
    · rw [outImage_committed (by omega), if_neg (by omega), outImage_committed (by omega)]
      rfl
  · have e1 : ∀ m, ((afterInsert b s).setOutput 0 m).wridx.toNat = s.wridx.toNat + 1 := fun _ => hw
    have e2 : ∀ m, pendingBase ((afterInsert b s).setOutput 0 m) = s.wridx.toNat + 1 := by
      intro m
      show (s.wridx + 1).toNat / 4 * 4 = _
      rw [hw]
      omega
    rw [outImage_committed (by rw [e1, e2]; omega)]
    show (s.omem.writeMasked (pendingBase s) (insertLane s.acc (lane s) b) 15#4).read j = _
    rw [Memory.read_writeMasked wf]
    by_cases hj : pendingBase s ≤ j ∧ j < pendingBase s + 4
    · have hen : (15#4).getLsbD (j - pendingBase s) = true := by
        have : j - pendingBase s < 4 := by omega
        generalize j - pendingBase s = k at this
        interval_cases k <;> rfl
      rw [if_pos ⟨hj.1, hj.2, hen⟩, byteOf_insertLane _ _ hl (by omega)]
      by_cases hjw : j = s.wridx.toNat
      · rw [if_pos (by omega), if_pos hjw]
      · rw [if_neg (by omega), if_neg hjw, outImage_pending hj.1 (by omega)]
        congr 1
        unfold pendingBase at *
        omega
    · rw [if_neg (fun h => hj ⟨h.1, h.2.1⟩), if_neg (by omega), outImage_committed (by omega)]

/-- All that a successful `Emit` does, read over `ACC`, OMEM and the logical output at once. -/
theorem emitted_of_emit {s t : State} {b : Byte} (wf : s.omem.wf = true) (h : emit b s = .ok t) :
    ∃ a m, Emitted s b a m ∧ t = { s with wridx := s.wridx + 1, acc := a, lastb := b, omem := m } := by
  have hi := outImage_emit wf h
  have hl := lane_lt s
  have hb := pendingBase_add_lane s
  have hlane : lane s = s.wridx.toNat % 4 := rfl
  have hpb : pendingBase s = s.wridx.toNat / 4 * 4 := rfl
  rcases emit_eq_ok h with ⟨_, ⟨h3, rfl⟩ | ⟨h3, _, rfl⟩⟩
  · refine ⟨_, s.omem, ⟨?_, fun j => ?_, fun j => ?_⟩, rfl⟩
    · rw [if_neg (hlane ▸ h3)]
      rfl
    · rw [if_neg (fun e => h3 e.1)]
    · exact (congrFun (outImage_congr rfl rfl rfl) j).trans (hi j)
  · refine ⟨_, _, ⟨?_, fun j => ?_, fun j => ?_⟩, rfl⟩
    · rw [if_pos (hlane ▸ h3)]
    · rw [Memory.read_writeMasked wf, hpb]
      by_cases hj : s.wridx.toNat / 4 * 4 ≤ j ∧ j ≤ s.wridx.toNat
      · have hen : (15#4).getLsbD (j - s.wridx.toNat / 4 * 4) = true := by
          have : j - s.wridx.toNat / 4 * 4 < 4 := by omega
          generalize j - s.wridx.toNat / 4 * 4 = k at this
          interval_cases k <;> rfl
        rw [if_pos ⟨hj.1, by omega, hen⟩, if_pos ⟨hlane ▸ h3, hj⟩, byteOf_insertLane _ _ hl (by omega)]
        by_cases hw : j = s.wridx.toNat
        · rw [if_pos hw, if_pos (by omega)]
        · rw [if_neg hw, if_neg (by omega), outImage_pending (by omega) (by omega)]
          congr 1
          omega
      · rw [if_neg (by omega), if_neg (by omega)]
    · exact (congrFun (outImage_congr rfl rfl rfl) j).trans (hi j)

/-- `OutRead(j)` of an emitted byte is `OUT[j]` (R175, R45). -/
theorem outRead_eq {s : State} {j : Nat} (h : j < s.wridx.toNat) (hc : s.wridx.toNat ≤ s.par.outCap) :
    outRead j s = .ok (outImage s j) := by
  rcases outRead_cases j s with ⟨hp, hr⟩ | ⟨hp, _, hr⟩ | ⟨hp, ho, _⟩
  · rw [hr, outImage_pending hp h]
  · rw [hr, outImage_committed (.inl hp)]
  · omega

/-- OMEM after a successful `Flush` (R174): the pending lanes are in it, every other byte as before. -/
theorem flush_omem {s t : State} (wf : s.omem.wf = true) (h : flush s = .ok t) :
    ∃ m, t = { s with omem := m } ∧ m.wf = true ∧
      ∀ j, m.read j = if pendingBase s ≤ j ∧ j < s.wridx.toNat then byteOf s.acc (j % 4) else s.omem.read j := by
  have hb := pendingBase_add_lane s
  have hl := lane_lt s
  rcases flush_cases s with ⟨h0, hf⟩ | ⟨h0, _, hf⟩ | ⟨_, _, hf⟩
  · rw [hf] at h
    refine ⟨s.omem, (Except.ok.inj h).symm, wf, fun j => ?_⟩
    rw [if_neg (by omega)]
  · rw [hf] at h
    refine ⟨_, (Except.ok.inj h).symm, Memory.wf_writeMasked wf _ _ _, fun j => ?_⟩
    rw [Memory.read_writeMasked wf]
    by_cases hj : pendingBase s ≤ j ∧ j < s.wridx.toNat
    · have hen := getLsbD_lowMask (m := lane s) (k := j - pendingBase s) (by omega)
      rw [if_pos ⟨hj.1, by omega, by rw [hen]; simp; omega⟩, if_pos hj]
      congr 1
      unfold pendingBase at *
      omega
    · rw [if_neg hj, if_neg]
      rintro ⟨h1, h2, h3⟩
      rw [getLsbD_lowMask (by omega)] at h3
      simp at h3
      omega
  · rw [hf] at h
    exact absurd h (by simp)

end Sys2Proof.Safety
end

