-- ==== Sys2Proof/Laws/PerInstr.lean ====
section
/-! SUPPORT. Facts about every instruction as syntax, one lemma per constructor: the tag bit of an
encoded symbol (R92, R93, stage 1 of R95). -/

namespace Sys2Proof.Laws

/-- Bit 0 of a coded symbol's number is 1, whatever its fields (R93). -/
theorem encodeCoded_tag (t : CodeTable) (p : BitVec 2) (xa : Word) (s : BitVec 4) (xb : Word) :
    (encodeCoded t p xa s xb).getLsbD 0 = true := by
  unfold encodeCoded
  simp only [BitVec.getLsbD_or]
  simp

/-- Bit 0 of a symbol's number is 0 exactly for `LIT` (R95, stage 1). -/
def EncodeTag.Statement (i : Instr) : Prop :=
  ∀ t : CodeTable, (encode t i).getLsbD 0 = false ↔ ∃ b, i = .lit b

theorem EncodeTag.lit (byte : Byte) : EncodeTag.Statement (.lit byte) := by
  intro t
  simp [encode]

theorem EncodeTag.run (p : BitVec 2) (xa : Word) (s : BitVec 4) (xb : Word) :
    EncodeTag.Statement (.run p xa s xb) := by
  intro t
  simp [encode, encodeCoded_tag]

theorem EncodeTag.copy (p : BitVec 2) (xa : Word) (s : BitVec 4) (xb : Word) :
    EncodeTag.Statement (.copy p xa s xb) := by
  intro t
  simp [encode, encodeCoded_tag]

theorem EncodeTag.endSym (p : BitVec 2) (xa : Word) (s : BitVec 4) (xb : Word) :
    EncodeTag.Statement (.endSym p xa s xb) := by
  intro t
  simp [encode, encodeCoded_tag]

end Sys2Proof.Laws
end

