-- ==== Sys2Proof/Tests/Slice0.lean ====
section
/-! SUPPORT. Tests: expected values come from spec/95_test_vectors.md (the section is named at each test),
and one witness per statement of Certificates/Slice0/Obligations.lean that has hypotheses. -/

namespace Sys2Proof.Tests

open Sys2Proof.Machine Sys2Proof.Safety

/-! ## States for the tests -/

/-- The spec's own test parameters (95_test_vectors.md section 1) with small memories. -/
def par : Params := ⟨Config.testSignature, Config.testTable, 28, 8⟩

/-- A container word list as IMEM. -/
def words (ws : List Word) : Memory := (ws.zipIdx).foldl (fun m p => m.writeWord (4 * p.2) p.1) []

/-- A container with the test signature at both ends. -/
def container (size : Word) (stream : List Word) : List Word :=
  [Config.testSignature, 0, size] ++ stream ++ [Config.testSignature]

/-- A call that has just been started on a container. -/
def call (ws : List Word) : State :=
  { State.reset with
    par := par, imem := words ws, inLen := BitVec.ofNat 32 (4 * ws.length), phase := .validate }

/-- The same call in mid-decode: `RDCUR = r`, `CNT = k`, `w` bytes emitted, all still in `ACC`. -/
def mid (ws : List Word) (r k w : Nat) (acc : Word) (last : Byte) (ph : Phase) : State :=
  let s : State := { call ws with
    n := BitVec.ofNat 30 ws.length, osize := ws.getD 2 0, rdcur := BitVec.ofNat 32 r
    cnt := BitVec.ofNat 6 k, la := (words ws).readWord (4 * (r - 1)), wridx := BitVec.ofNat 32 w
    acc := acc, lastb := last, phase := ph }
  { s with cur := s.windowAt s.streamPos }

/-- A state of a given phase with host moves pending. -/
def host (ph : Phase) (ms : List HostMove) : State :=
  { State.reset with par := par, phase := ph, hostMoves := ms }

/-- The next state, if there is one. -/
def after (o : Host.Outcome State Fault Refusal) : Option State :=
  match o with
  | .next s => some s
  | .fault _ => none
  | .refused _ => none

theorem next_of_after {o : Host.Outcome State Fault Refusal} {t : State} (h : after o = some t) :
    o = .next t := by
  cases o <;> simp_all [after]

/-- The refusal, if there is one. -/
def refusal (o : Host.Outcome State Fault Refusal) : Option Refusal :=
  match o with
  | .next _ => none
  | .fault _ => none
  | .refused r => some r

/-- `EngineInv` of a decode state that has committed nothing, as one computed check. -/
def invCheck (s : State) : Bool :=
  s.imem.wf && decide (s.omem = []) && decide (s.errcode = 0) && decoding s.phase &&
    decide (6 ≤ s.n.toNat) && decide (4 * s.n.toNat = s.inLen.toNat) &&
    decide (s.inLen.toNat ≤ s.par.inCap) && decide (s.osize = s.imem.readWord 8) &&
    decide (s.osize.toNat ≤ s.par.outCap) && decide (5 ≤ s.rdcur.toNat) &&
    decide (s.rdcur.toNat + 1 ≤ s.n.toNat) && decide (s.cnt.toNat ≤ 32) &&
    decide (s.la = s.streamWord (s.rdcur.toNat - 4)) && decide (s.cur = s.windowAt s.streamPos) &&
    decide (s.wridx.toNat ≤ s.osize.toNat) &&
    ((List.range 4).all fun k => decide (k < lane s) || decide (byteOf s.acc k = 0)) &&
    (decide (s.wridx.toNat = 0) || decide (s.lastb = outImage s (s.wridx.toNat - 1))) &&
    (decide (s.phase ≠ .emitCopy) || (decide (1 ≤ s.sym.toNat) && decide (s.sym.toNat ≤ 0x10001))) &&
    decide (s.errStores = [])

theorem inv_of_check {s : State} (h : invCheck s = true) : EngineInv s := by
  simp only [invCheck, Bool.and_eq_true, Bool.or_eq_true, decide_eq_true_eq, List.all_eq_true,
    List.mem_range, and_assoc] at h
  obtain ⟨h1, h2, h3, h4, h5, h6, h7, h8, h9, h10, h11, h12, h13, h14, h15, h16, h17, h18, h19⟩ := h
  refine ⟨h1, by rw [h2]; rfl, fun _ => h3, fun e => ?_, fun _ => ⟨h5, h6, h7, h8, h9⟩,
    fun _ => ⟨h10, h11, h12, h13, fun i hi => ?_⟩, fun _ => ⟨h15, fun k hk hl => ?_, fun j _ _ => ?_⟩,
    fun _ hw => ?_, fun e => ?_, fun _ => h19⟩
  · rw [e] at h4
    exact Bool.noConfusion h4
  · rw [h14]
    unfold State.windowAt
    rw [BitVec.getLsbD_ofFnLE, dif_pos hi]
  · rcases h16 k hk with h | h
    · omega
    · exact h
  · rw [h2]
    rfl
  · rcases h17 with h | h
    · omega
    · exact h
  · rcases h18 with h | h
    · exact absurd e h
    · exact h

/-- `EngineInv` of a call that has just been started. -/
theorem inv_of_start {s : State} (hi : s.imem.wf = true) (ho : s.omem.wf = true) (he : s.errcode = 0)
    (hp : s.phase = .validate) (hn : s.errStores = []) : EngineInv s := by
  refine ⟨hi, ho, fun _ => he, ?_, ?_, ?_, ?_, ?_, ?_, fun _ => hn⟩ <;> rw [hp] <;> intro h
  · exact Phase.noConfusion h
  · rcases h with h | h
    · exact Phase.noConfusion h
    · exact Bool.noConfusion h
  · exact Bool.noConfusion h
  · exact Bool.noConfusion h
  · exact Bool.noConfusion h
  · exact Phase.noConfusion h

/-! ## Tables and well-formedness -/

/-- Section 1: `WF_TABLE(TEST_TABLE)` holds. -/
theorem test_wfTable : wfTable Config.testTable = true := by decide

/-- Section 4, last variant: `TAB[3][0] = 10` makes a 33-bit symbol possible. -/
theorem test_wfTable_rejects : wfTable (Config.testTable.set 12 10) = false := by decide

theorem test_illFormed_longer :
    (Instr.copy 3 0 13 0).illFormed? (Config.testTable.set 12 10) = some .longerThanWindow := by decide

/-- Row 3 has `A = 4`: `xa = 16` does not fit. -/
theorem test_illFormed_xa : (Instr.copy 3 16 1 0).illFormed? Config.testTable = some .xaTooWide := by decide

/-- Row `4 + 2` has `B = 1`: `xb = 2` does not fit. -/
theorem test_illFormed_xb : (Instr.copy 0 0 2 2).illFormed? Config.testTable = some .xbTooWide := by decide

/-- Row `4 + 1` gives `sym = 1`, which is `COPY`. -/
theorem test_illFormed_class : (Instr.run 0 0 1 0).illFormed? Config.testTable = some .classMismatch := by
  decide

/-! ## Decoding: the number of each symbol written out from R92 and R93 -/

/-- `byte << 1` with `byte = 0x41`; the other bits of the window are `CA190882`'s (section 4). -/
theorem test_decode_lit : decode Config.testTable 0xCA190882 = .ok (.lit 0x41) := by decide

/-- `1 | 2 << 1 | 1 << 3 | 0 << 5`: tag 1, `p = 10`, `xa = 01`, `s = 0000`. -/
theorem test_decode_run : decode Config.testTable 0b0000_01_10_1#32 = .ok (.run 2 1 0 0) := by decide

/-- Tag 1, `p = 11`, `xa = 1111`, `s = 1001`, `xb = 10101011`: `00055CFF` of section 4. -/
theorem test_decode_copy :
    decode Config.testTable 0b10101011_1001_1111_11_1#32 = .ok (.copy 3 15 9 171) := by decide

/-- Tag 1, `p = 01`, `xa = 0`, `s = 1101`, `xb = 1010101000000010`: `00AA02D3` of section 4. -/
theorem test_decode_end :
    decode Config.testTable 0b1010101000000010_1101_0_01_1#32 = .ok (.endSym 1 0 13 43522) := by decide

/-- The largest `sym` that is not `END` (section 4). -/
theorem test_decode_boundary : decode Config.testTable 0x00AA01D3 = .ok (.copy 1 0 13 43521) := by decide

/-- Section 4, fifth variant: `TAB[4+2][2] = FFFFFFFF` compares unsigned. -/
theorem test_decode_unsigned :
    decode (Config.testTable.set 26 0xFFFFFFFF) 0x11 = .ok (.endSym 0 0 2 0) := by decide

/-- Section 4, fourth variant: `sym` wraps to 0 before it is compared. -/
theorem test_decode_wrap :
    decode (Config.testTable.set 26 0xFFFFFFFF) 0x91 = .ok (.run 0 0 2 1) := by decide

/-- Section 1: `COPY p=3 xa=3 s=2 xb=0` is `0x11F`. -/
theorem test_encode_copy : encode Config.testTable (.copy 3 3 2 0) = 0x11F := by decide

/-- Section 4: counts 28 and 12; first variant: the inner sum wraps. -/
theorem test_repeatCount :
    repeatCount Config.testTable 3 15 9 = 28 ∧ repeatCount Config.testTable 2 2 12 = 12 ∧
      repeatCount (Config.testTable.set 17 0xFFFFFFFD) 0 0 0 = 2 := by decide

/-- R92: the table's row of `LIT` with `byte = 0xFF`. -/
theorem test_decodeTableWord : decodeTableWord 16 0x1FE = some (.lit 0xFF) := by decide

/-! ## The Bitstream Reader: sequence A of section 3 -/

/-- The container of section 3. -/
def section3 : State :=
  { mid [0xA5A5A5A5, 0, 0, 0x89ABCDEF, 0x01234567, 0xDEADBEEF, 0x0BADF00D, 0xA5A5A5A5] 5 0 0 0 0 .readSymbol
    with par := { par with inCap := 32 } }

/-- `Consume(7)` from `T = 32`: refill with `k = 7`. -/
theorem test_consume_refill :
    (consume 7 section3).map (fun t => (t.cur, t.la, t.cnt, t.rdcur)) =
      .ok (0xDE02468A, 0xDEADBEEF, 25, 6) := by decide

/-- `Consume(9)` from `T = 0`. -/
theorem test_consume_slide :
    (consume 9 { section3 with cur := 0x89ABCDEF, cnt := 32 }).map (fun t => (t.cur, t.cnt, t.rdcur)) =
      .ok (0xB3C4D5E6, 23, 5) := by decide

/-! ## The Output Assembler: section 5 -/

/-- The state after A4: three bytes pending. -/
def afterA4 : State := { host .emitCopy [] with osize := 6, wridx := 3, acc := 0x00616261, lastb := 0x61 }

/-- A5: the fourth byte commits the word. -/
theorem test_emit_commits :
    (emit 0x62 afterA4).map (fun t => (t.wridx, t.acc, t.omem)) =
      .ok (4, 0, [(0, 0x61), (1, 0x62), (2, 0x61), (3, 0x62)]) := by decide

/-- A9: `Flush` writes the two pending lanes, at addresses 4 and 5. -/
theorem test_flush :
    (flush { afterA4 with wridx := 6, acc := 0x00006261, omem := [(0, 0x61)] }).map
      (fun t => (t.wridx, t.acc, t.omem)) = .ok (6, 0x6261, [(0, 0x61), (4, 0x61), (5, 0x62)]) := by decide

/-! ## One step each -/

/-- Program P3 of section 8, whose container is in section 5's trace. -/
def p3 : List Word := container 6 [0xE46D88C2, 0x00000001]

/-- Section 5, step 1. -/
theorem test_lit :
    (after (step (mid p3 5 32 0 0 0 .readSymbol))).map (fun t => (t.phase, t.cur, t.cnt, t.litb)) =
      some (.emitLiteral, 0x00F236C4, 23, 0x61) := by decide +kernel

/-- Section 5, step 2. -/
theorem test_emitLiteral :
    (after (step { mid p3 5 23 0 0 0 .emitLiteral with litb := 0x61 })).map
      (fun t => (t.phase, t.wridx, t.acc, t.lastb)) = some (.readSymbol, 1, 0x61, 0x61) := by decide

/-- Section 5, step 5. -/
theorem test_copy :
    (after (step (mid p3 5 14 2 0x6261 0x62 .readSymbol))).map
      (fun t => (t.phase, t.cur, t.cnt, t.sym, t.rem)) = some (.emitCopy, 0x79, 6, 1, 4) := by decide +kernel

/-- Section 5, step 6: the source byte is forwarded from `ACC`. -/
theorem test_emitCopy :
    (after (step { mid p3 5 6 2 0x6261 0x62 .emitCopy with sym := 1, rem := 4 })).map
      (fun t => (t.phase, t.wridx, t.acc, t.lastb, t.rem)) = some (.emitCopy, 3, 0x616261, 0x61, 3) := by
  decide

/-- Section 5, step 11. -/
theorem test_end :
    (after (step { mid p3 5 6 2 0x6261 0x62 .readSymbol with wridx := 6, omem := [(0, 0x61)] })).map
      (fun t => (t.phase, t.cnt, t.wridx, t.omem)) =
      some (.terminate, 6, 6, [(0, 0x61), (4, 0x61), (5, 0x62)]) := by decide +kernel

/-- `RUN p=2 xa=1 s=0 xb=0` (section 1: count 6, 9 bits). -/
theorem test_run :
    (after (step (mid (container 8 [0x0D, 0]) 5 32 1 0x41 0x41 .readSymbol))).map
      (fun t => (t.phase, t.cnt, t.sym, t.rem)) = some (.emitRun, 23, 0, 6) := by decide +kernel

/-- Section 7, F3: a run before any byte. -/
theorem test_emitRun_without_previous :
    (after (step { mid (container 8 [0x3C81, 0]) 5 25 0 0 0 .emitRun with rem := 2 })).map
      (fun t => (t.phase, t.errcode, t.rem)) = some (.error, 0x42, 2) := by decide

/-- Section 6: a `START` right after reset, then `VALIDATE` (E4). -/
theorem test_start_after_reset :
    (after (step { State.reset with hostMoves := [.writeReg 0 1] })).map (fun t => (t.status, t.errcode)) =
      some (0x11, 0) := by decide

/-- E4 (section 6): `IN_LEN = 0`. -/
theorem test_validate_too_few :
    (after (step { call [] with par := par })).map (fun t => (t.status, t.errcode)) =
      some (0x84, 0x21) := by decide

/-- The table word of `END p=0 xa=0 s=15 xb=0`, `0x79`, is the first symbol after reset. -/
theorem test_withFetchWord :
    (after (step (State.reset.withFetchWord 8 0x79))).map (fun t => t.phase) = some .terminate := by decide

/-! ## Witnesses: for each statement with hypotheses, states that meet them, at the edges of each clause.
The theorem `witness_<Name>` belongs to `Obligations.<Name>`. -/

theorem wf_call_table (ws : List Word) : wfTable (call ws).par.table = true := test_wfTable

/-- 19 bits of a `COPY`. -/
theorem witness_DecodeOfEncodedSymbol :
    wfTable Config.testTable = true ∧ (Instr.copy 3 15 9 171).WellFormed Config.testTable ∧
      ∀ k < symbolLength Config.testTable (.copy 3 15 9 171),
        (0xFFFD5CFF#32).getLsbD k = (encode Config.testTable (.copy 3 15 9 171)).getLsbD k :=
  ⟨test_wfTable, by decide, by decide⟩

theorem witness_EncodeOfDecodedWindow :
    decode Config.testTable 0xFFFD5CFF = .ok (.copy 3 15 9 171) := by decide

theorem witness_EveryWindowIsOneSymbol : wfTable Config.testTable = true := test_wfTable

/-- One window of each class, the value of `sym` at the edges 0, 1, `0x10001` and `0x10002`. -/
theorem witness_ClassIsSelectedByValue :
    decode Config.testTable 0 = .ok (.lit 0) ∧ decode Config.testTable 1 = .ok (.run 0 0 0 0) ∧
      decode Config.testTable 0x3C89 = .ok (.copy 0 0 1 0) ∧
      decode Config.testTable 0x00AA01D3 = .ok (.copy 1 0 13 43521) ∧
      decode Config.testTable 0x79 = .ok (.endSym 0 0 15 0) := by decide

/-- `TEST_TABLE` with an unread cell of each kind changed: columns 3, 1 of a primary row, and row 20. -/
def unreadChanged : CodeTable := ((Config.testTable.set 1 0).set 3 0).set 80 0

theorem witness_DecodeReadsListedCells :
    Config.testTable ≠ unreadChanged ∧
    (∀ p : BitVec 2, tab Config.testTable (primaryRow p) 0 = tab unreadChanged (primaryRow p) 0 ∧
      tab Config.testTable (primaryRow p) 2 = tab unreadChanged (primaryRow p) 2) ∧
    (∀ sr : BitVec 4, tab Config.testTable (secondaryRow sr) 0 = tab unreadChanged (secondaryRow sr) 0 ∧
      tab Config.testTable (secondaryRow sr) 1 = tab unreadChanged (secondaryRow sr) 1 ∧
      tab Config.testTable (secondaryRow sr) 2 = tab unreadChanged (secondaryRow sr) 2) := by decide +kernel

/-- Seven words: one payload word. -/
def seven : List Word := container 8 [0x0790FEFC, 0x12345678, 0x9ABCDEF0]

/-- Six words: no payload. -/
def six : List Word := container 8 [0x0790FEFC, 0x12345678]

/-- The whole invariant in a decode phase, away from a refill and next to one. -/
theorem inv_seven (k : Nat) (h : k = 32 ∨ k = 9 ∨ k = 8 ∨ k = 0) :
    EngineInv (mid seven 5 k 0 0 0 .readSymbol) := by
  rcases h with rfl | rfl | rfl | rfl <;> exact inv_of_check (by decide +kernel)

/-- The last word of the stream: `T` reaches `32 * (N - 5)` at `CNT = 0`. -/
theorem inv_six (k : Nat) (h : k = 32 ∨ k = 9 ∨ k = 8 ∨ k = 0) :
    EngineInv (mid six 5 k 0 0 0 .readSymbol) := by
  rcases h with rfl | rfl | rfl | rfl <;> exact inv_of_check (by decide +kernel)

/-- A `Consume` that just fits the window, and one that needs the only payload word. -/
theorem witness_ConsumeKeepsWindow :
    WindowInv (mid seven 5 9 0 0 0 .readSymbol) ∧
      (∃ t, consume 9 (mid seven 5 9 0 0 0 .readSymbol) = .ok t) ∧
      (∃ t, consume 10 (mid seven 5 9 0 0 0 .readSymbol) = .ok t) :=
  ⟨(inv_seven 9 (by decide)).window rfl, ⟨_, rfl⟩, ⟨_, rfl⟩⟩

theorem witness_ConsumeFollowsFetchLaw :
    WindowInv (mid seven 5 32 0 0 0 .readSymbol) ∧
      (∃ t, consume 32 (mid seven 5 32 0 0 0 .readSymbol) = .ok t) ∧
      WindowInv (mid seven 5 0 0 0 0 .readSymbol) ∧
      (∃ t, consume 1 (mid seven 5 0 0 0 0 .readSymbol) = .ok t) :=
  ⟨(inv_seven 32 (by decide)).window rfl, ⟨_, rfl⟩, (inv_seven 0 (by decide)).window rfl, ⟨_, rfl⟩⟩

/-- `T + n` at `32 * (N - 5)` and one above it. -/
theorem witness_ConsumeOverrunsPastStream :
    WindowInv (mid six 5 9 0 0 0 .readSymbol) ∧
      (mid six 5 9 0 0 0 .readSymbol).streamPos + 9 = 32 * ((mid six 5 9 0 0 0 .readSymbol).n.toNat - 5) ∧
      (mid six 5 9 0 0 0 .readSymbol).streamPos + 10 =
        32 * ((mid six 5 9 0 0 0 .readSymbol).n.toNat - 5) + 1 :=
  ⟨(inv_six 9 (by decide)).window rfl, by decide, by decide⟩

/-- `CNT` at 9 and at 8, with the refill's word the last payload word and the last one IMEM has. -/
theorem witness_LitReads :
    9 ≤ (mid seven 5 9 0 0 0 .readSymbol).cnt.toNat ∧ (mid seven 5 8 0 0 0 .readSymbol).cnt.toNat < 9 ∧
      (mid seven 5 8 0 0 0 .readSymbol).rdcur.toNat + 2 = (mid seven 5 8 0 0 0 .readSymbol).n.toNat ∧
      4 * (mid seven 5 8 0 0 0 .readSymbol).rdcur.toNat + 3 <
        (mid seven 5 8 0 0 0 .readSymbol).par.inCap := by decide

/-- `RUN p=2 xa=1 s=0` has 9 bits. -/
theorem witness_RunReads :
    (9 = 7 + (Config.testTable[4 * (BitVec.toNat 2#2)]!).toNat +
        (Config.testTable[4 * (4 + (BitVec.toNat 0#4))]!).toNat ∧ 9 ≤ 32) ∧
      9 = (mid seven 5 9 0 0 0 .readSymbol).cnt.toNat ∧
      9 = (mid seven 5 8 0 0 0 .readSymbol).cnt.toNat + 1 ∧
      (mid seven 5 8 0 0 0 .readSymbol).rdcur.toNat + 1 < (mid seven 5 8 0 0 0 .readSymbol).n.toNat ∧
      4 * (mid seven 5 8 0 0 0 .readSymbol).rdcur.toNat + 3 <
        (mid seven 5 8 0 0 0 .readSymbol).par.inCap := by decide

/-- `COPY p=0 xa=0 s=3` has 9 bits. -/
theorem witness_CopyReads :
    (9 = 7 + (Config.testTable[4 * (BitVec.toNat 0#2)]!).toNat +
        (Config.testTable[4 * (4 + (BitVec.toNat 3#4))]!).toNat ∧ 9 ≤ 32) ∧
      9 = (mid seven 5 9 0 0 0 .readSymbol).cnt.toNat ∧
      9 = (mid seven 5 8 0 0 0 .readSymbol).cnt.toNat + 1 ∧
      (mid seven 5 8 0 0 0 .readSymbol).rdcur.toNat + 1 < (mid seven 5 8 0 0 0 .readSymbol).n.toNat ∧
      4 * (mid seven 5 8 0 0 0 .readSymbol).rdcur.toNat + 3 <
        (mid seven 5 8 0 0 0 .readSymbol).par.inCap := by decide

/-- A partial last word, and a full buffer of `OUT_CAP` bytes. -/
theorem witness_EndFlushes :
    ((mid six 5 9 3 0x434241 0x43 .readSymbol).omem.wf = true ∧
      (mid six 5 9 3 0x434241 0x43 .readSymbol).wridx.toNat ≤
        (mid six 5 9 3 0x434241 0x43 .readSymbol).par.outCap) ∧
    ({ mid six 5 9 0 0 0 .readSymbol with wridx := 8, omem := [(0, 0x41)] }.omem.wf = true ∧
      { mid six 5 9 0 0 0 .readSymbol with wridx := 8 }.wridx.toNat =
        (mid six 5 9 0 0 0 .readSymbol).par.outCap) := by decide

/-- Each of the three symbols, one bit short. -/
theorem witness_SymbolPayloadOverrun :
    wfTable (mid six 5 8 0 0 0 .readSymbol).par.table = true ∧
      (∀ i ∈ [Instr.lit 0x30, .run 2 1 0 0, .copy 0 0 3 0],
        (∀ p xa sr xb, i ≠ .endSym p xa sr xb) ∧
        (mid six 5 8 0 0 0 .readSymbol).cnt.toNat < symbolLength Config.testTable i) ∧
      (mid six 5 8 0 0 0 .readSymbol).n.toNat = (mid six 5 8 0 0 0 .readSymbol).rdcur.toNat + 1 := by
  refine ⟨test_wfTable, ?_, by decide⟩
  intro i hi
  simp only [List.mem_cons, List.not_mem_nil, or_false] at hi
  rcases hi with rfl | rfl | rfl <;> exact ⟨by simp, by decide⟩

theorem witness_StepRunsDecodedSymbol :
    (mid p3 5 32 0 0 0 .readSymbol).phase = .readSymbol ∧
      (mid p3 5 32 0 0 0 .readSymbol).hostMoves = [] ∧
      wfTable (mid p3 5 32 0 0 0 .readSymbol).par.table = true ∧
      decode (mid p3 5 32 0 0 0 .readSymbol).par.table (mid p3 5 32 0 0 0 .readSymbol).cur =
        .ok (.lit 0x61) :=
  ⟨rfl, rfl, test_wfTable, by decide +kernel⟩

/-- A two-byte buffer with one byte pending, and with both. -/
def small : List Word := container 2 [0x0790FEFC, 0x12345678]

theorem witness_EmitLiteralAppends :
    (EngineInv (mid small 5 23 1 0x41 0x41 .emitLiteral) ∧
      (mid small 5 23 1 0x41 0x41 .emitLiteral).wridx.toNat + 1 =
        (mid small 5 23 1 0x41 0x41 .emitLiteral).osize.toNat) ∧
    (EngineInv (mid small 5 23 2 0x4241 0x42 .emitLiteral) ∧
      (mid small 5 23 2 0x4241 0x42 .emitLiteral).wridx.toNat =
        (mid small 5 23 2 0x4241 0x42 .emitLiteral).osize.toNat) :=
  ⟨⟨inv_of_check (by decide +kernel), by decide⟩, inv_of_check (by decide +kernel), by decide⟩

/-- The four cases of `EMIT_RUN`: `REM` 0 and 1, `WRIDX` 0, 1 and `OSIZE`. -/
theorem witness_EmitRunStepCases :
    EngineInv (mid small 5 23 0 0 0 .emitRun) ∧ (mid small 5 23 0 0 0 .emitRun).rem = 0 ∧
      EngineInv { mid small 5 23 0 0 0 .emitRun with rem := 1 } ∧
      (mid small 5 23 0 0 0 .emitRun).wridx = 0 ∧
      EngineInv { mid small 5 23 2 0x4241 0x42 .emitRun with rem := 1 } ∧
      (mid small 5 23 2 0x4241 0x42 .emitRun).wridx = (mid small 5 23 2 0x4241 0x42 .emitRun).osize ∧
      EngineInv { mid small 5 23 1 0x41 0x41 .emitRun with rem := 1 } ∧
      (mid small 5 23 1 0x41 0x41 .emitRun).wridx ≠ 0 ∧
      (mid small 5 23 1 0x41 0x41 .emitRun).wridx ≠ (mid small 5 23 1 0x41 0x41 .emitRun).osize :=
  ⟨inv_of_check (by decide +kernel), rfl, inv_of_check (by decide +kernel), rfl,
    inv_of_check (by decide +kernel), by decide, inv_of_check (by decide +kernel), by decide, by decide⟩

/-- The four cases of `EMIT_COPY` at `SYM = 1`: `WRIDX` 1 (too little), 2 (enough, and full or not). -/
theorem witness_EmitCopyStepCases :
    EngineInv { mid small 5 23 1 0x41 0x41 .emitCopy with sym := 1, rem := 0 } ∧
      EngineInv { mid small 5 23 1 0x41 0x41 .emitCopy with sym := 1, rem := 1 } ∧
      (mid small 5 23 1 0x41 0x41 .emitCopy).wridx.toNat < 2 * 1 ∧
      EngineInv { mid small 5 23 2 0x4241 0x42 .emitCopy with sym := 1, rem := 1 } ∧
      (mid small 5 23 2 0x4241 0x42 .emitCopy).wridx = (mid small 5 23 2 0x4241 0x42 .emitCopy).osize ∧
      EngineInv { mid six 5 23 2 0x4241 0x42 .emitCopy with sym := 1, rem := 1 } ∧
      2 * 1 = (mid six 5 23 2 0x4241 0x42 .emitCopy).wridx.toNat ∧
      (mid six 5 23 2 0x4241 0x42 .emitCopy).wridx ≠ (mid six 5 23 2 0x4241 0x42 .emitCopy).osize :=
  ⟨inv_of_check (by decide +kernel), inv_of_check (by decide +kernel), by decide,
    inv_of_check (by decide +kernel), by decide, inv_of_check (by decide +kernel), by decide, by decide⟩

/-- A six-word container whose stream holds `v` at position `T = 32 - k`. -/
def at_ (size v : Word) (k : Nat) : List Word := container size [v <<< (32 - k), v >>> k]

/-- `LIT 0x41` is `0x82`: nine bits left of the last word, eight bits left, and a full buffer. -/
theorem witness_LitWholeEffect :
    (EngineInv (mid (at_ 1 0x82 9) 5 9 0 0 0 .readSymbol) ∧
      decode Config.testTable (mid (at_ 1 0x82 9) 5 9 0 0 0 .readSymbol).cur = .ok (.lit 0x41) ∧
      (mid (at_ 1 0x82 9) 5 9 0 0 0 .readSymbol).streamPos + 9 = 32 ∧
      (mid (at_ 1 0x82 9) 5 9 0 0 0 .readSymbol).wridx.toNat + 1 =
        (mid (at_ 1 0x82 9) 5 9 0 0 0 .readSymbol).osize.toNat) ∧
    (EngineInv (mid (at_ 1 0x82 8) 5 8 0 0 0 .readSymbol) ∧
      decode Config.testTable (mid (at_ 1 0x82 8) 5 8 0 0 0 .readSymbol).cur = .ok (.lit 0x41) ∧
      32 + 1 = (mid (at_ 1 0x82 8) 5 8 0 0 0 .readSymbol).streamPos + 9) ∧
    (EngineInv (mid (at_ 0 0x82 9) 5 9 0 0 0 .readSymbol) ∧
      decode Config.testTable (mid (at_ 0 0x82 9) 5 9 0 0 0 .readSymbol).cur = .ok (.lit 0x41) ∧
      (mid (at_ 0 0x82 9) 5 9 0 0 0 .readSymbol).wridx.toNat =
        (mid (at_ 0 0x82 9) 5 9 0 0 0 .readSymbol).osize.toNat) :=
  ⟨⟨inv_of_check (by decide +kernel), by decide +kernel, by decide, by decide⟩,
    ⟨inv_of_check (by decide +kernel), by decide +kernel, by decide⟩,
    inv_of_check (by decide +kernel), by decide +kernel, by decide⟩

/-- `RUN p=0 xa=0 s=0 xb=0` is `0x01`, 7 bits, count 2: six bits left, a buffer with just enough room,
no byte before it, and a buffer one byte short. -/
theorem witness_RunWholeEffect :
    (EngineInv (mid (at_ 3 0x01 6) 5 6 1 0x41 0x41 .readSymbol) ∧
      decode Config.testTable (mid (at_ 3 0x01 6) 5 6 1 0x41 0x41 .readSymbol).cur = .ok (.run 0 0 0 0) ∧
      32 + 1 = (mid (at_ 3 0x01 6) 5 6 1 0x41 0x41 .readSymbol).streamPos +
        codedLength Config.testTable 0 0) ∧
    (EngineInv (mid (at_ 3 0x01 7) 5 7 1 0x41 0x41 .readSymbol) ∧
      decode Config.testTable (mid (at_ 3 0x01 7) 5 7 1 0x41 0x41 .readSymbol).cur = .ok (.run 0 0 0 0) ∧
      (mid (at_ 3 0x01 7) 5 7 1 0x41 0x41 .readSymbol).streamPos + codedLength Config.testTable 0 0 = 32 ∧
      1 + (repeatCount Config.testTable 0 0 0).toNat = 3) ∧
    (EngineInv (mid (at_ 3 0x01 7) 5 7 0 0 0 .readSymbol) ∧
      decode Config.testTable (mid (at_ 3 0x01 7) 5 7 0 0 0 .readSymbol).cur = .ok (.run 0 0 0 0) ∧
      (repeatCount Config.testTable 0 0 0).toNat ≠ 0) ∧
    (EngineInv (mid (at_ 2 0x01 7) 5 7 1 0x41 0x41 .readSymbol) ∧
      decode Config.testTable (mid (at_ 2 0x01 7) 5 7 1 0x41 0x41 .readSymbol).cur = .ok (.run 0 0 0 0) ∧
      2 + 1 = 1 + (repeatCount Config.testTable 0 0 0).toNat) :=
  ⟨⟨inv_of_check (by decide +kernel), by decide +kernel, by decide⟩,
    ⟨inv_of_check (by decide +kernel), by decide +kernel, by decide, by decide⟩,
    ⟨inv_of_check (by decide +kernel), by decide +kernel, by decide⟩,
    inv_of_check (by decide +kernel), by decide +kernel, by decide⟩

/-- A table in which `RUN p=0 xa=0 s=0` and `COPY p=0 xa=0 s=1` have count 0 (section 4, second variant). -/
def zeroCount : CodeTable := ((Config.testTable.set 17 0xFFFFFFF5).set 21 0xFFFFFFF5).set 2 0

/-- The count 0 of both whole-effect statements: nothing before it, no room. -/
theorem witness_WholeEffect_zero :
    wfTable zeroCount = true ∧
      EngineInv { mid (at_ 0 0x01 7) 5 7 0 0 0 .readSymbol with par := { par with table := zeroCount } } ∧
      decode zeroCount (mid (at_ 0 0x01 7) 5 7 0 0 0 .readSymbol).cur = .ok (.run 0 0 0 0) ∧
      (repeatCount zeroCount 0 0 0).toNat = 0 ∧
      EngineInv { mid (at_ 0 0x09 7) 5 7 0 0 0 .readSymbol with par := { par with table := zeroCount } } ∧
      decode zeroCount (mid (at_ 0 0x09 7) 5 7 0 0 0 .readSymbol).cur = .ok (.copy 0 0 1 0) ∧
      (repeatCount zeroCount 0 0 1).toNat = 0 :=
  ⟨by decide, inv_of_check (by decide +kernel), by decide +kernel, by decide,
    inv_of_check (by decide +kernel), by decide +kernel, by decide⟩

/-- `COPY p=0 xa=0 s=1 xb=0` is `0x09`, 7 bits, distance 2, count 2: the same four edges. -/
theorem witness_CopyWholeEffect :
    (EngineInv (mid (at_ 4 0x09 6) 5 6 2 0x4241 0x42 .readSymbol) ∧
      decode Config.testTable (mid (at_ 4 0x09 6) 5 6 2 0x4241 0x42 .readSymbol).cur = .ok (.copy 0 0 1 0) ∧
      32 + 1 = (mid (at_ 4 0x09 6) 5 6 2 0x4241 0x42 .readSymbol).streamPos +
        codedLength Config.testTable 0 1) ∧
    (EngineInv (mid (at_ 4 0x09 7) 5 7 2 0x4241 0x42 .readSymbol) ∧
      decode Config.testTable (mid (at_ 4 0x09 7) 5 7 2 0x4241 0x42 .readSymbol).cur = .ok (.copy 0 0 1 0) ∧
      (mid (at_ 4 0x09 7) 5 7 2 0x4241 0x42 .readSymbol).streamPos + codedLength Config.testTable 0 1 = 32 ∧
      2 * (symValue Config.testTable 1 0).toNat = 2 ∧
      2 + (repeatCount Config.testTable 0 0 1).toNat = 4) ∧
    (EngineInv (mid (at_ 4 0x09 7) 5 7 1 0x41 0x41 .readSymbol) ∧
      decode Config.testTable (mid (at_ 4 0x09 7) 5 7 1 0x41 0x41 .readSymbol).cur = .ok (.copy 0 0 1 0) ∧
      (repeatCount Config.testTable 0 0 1).toNat ≠ 0 ∧ 1 < 2 * (symValue Config.testTable 1 0).toNat) ∧
    (EngineInv (mid (at_ 3 0x09 7) 5 7 2 0x4241 0x42 .readSymbol) ∧
      decode Config.testTable (mid (at_ 3 0x09 7) 5 7 2 0x4241 0x42 .readSymbol).cur = .ok (.copy 0 0 1 0) ∧
      3 + 1 = 2 + (repeatCount Config.testTable 0 0 1).toNat) :=
  ⟨⟨inv_of_check (by decide +kernel), by decide +kernel, by decide⟩,
    ⟨inv_of_check (by decide +kernel), by decide +kernel, by decide, by decide, by decide⟩,
    ⟨inv_of_check (by decide +kernel), by decide +kernel, by decide, by decide⟩,
    inv_of_check (by decide +kernel), by decide +kernel, by decide⟩

/-- `END` with three pending bytes and a buffer of eight. -/
def ending : State := mid (at_ 8 0x79 7) 5 7 3 0x434241 0x43 .readSymbol

theorem witness_TerminateLeavesResult :
    EngineInv ending ∧ ending.hostMoves = [] ∧ ending.phase ≠ .terminate ∧
      (after (step ending)).map (fun t => t.phase) = some .terminate :=
  ⟨inv_of_check (by decide +kernel), rfl, by decide, by decide +kernel⟩

/-- `START` in each of the three halted phases, a busy phase, and a value with bit 0 = 0. -/
theorem witness_StartCommand :
    (∀ ph ∈ [Phase.idle, .terminate, .error, .prepare],
      (host ph [.writeReg 0 0xFFFFFFFF]).hostMoves = .writeReg 0 0xFFFFFFFF :: []) ∧
    (host .idle [.writeReg 0 0xFFFFFFFE]).hostMoves = .writeReg 0 0xFFFFFFFE :: [] ∧
    (0xFFFFFFFF#32).getLsbD 0 = true ∧ (0xFFFFFFFE#32).getLsbD 0 = false := by decide

/-- The premises every `VALIDATE` case shares. -/
def validating (s : State) : Prop :=
  s.phase = .validate ∧ s.hostMoves = [] ∧ wfTable s.par.table = true ∧ s.inLen.toNat ≤ s.par.inCap

/-- E1 (length 23), E3 (20), E5, E6 and E9 of section 6, on containers with six words. -/
theorem witness_ValidateChecksInOrder :
    (validating { call six with inLen := 23 } ∧ (23#32).toNat % 4 ≠ 0) ∧
    (validating { call six with inLen := 20 } ∧ (20#32).toNat / 4 = 5) ∧
    (validating (call (0xA5A5A5A4 :: six.tail)) ∧
      (call (0xA5A5A5A4 :: six.tail)).imem.readWord 0 ≠ Config.testSignature) ∧
    (validating (call (six.take 5 ++ [0])) ∧
      (call (six.take 5 ++ [0])).imem.readWord 0 = Config.testSignature ∧
      (call (six.take 5 ++ [0])).imem.readWord (4 * (24 / 4 - 1)) ≠ Config.testSignature) ∧
    (validating (call six) ∧ (call six).inLen.toNat = 24 ∧
      (call six).imem.readWord 0 = Config.testSignature ∧
      (call six).imem.readWord (4 * (24 / 4 - 1)) = Config.testSignature ∧
      ((call six).imem.readWord 8).toNat = (call six).par.outCap) :=
  ⟨⟨⟨rfl, rfl, test_wfTable, by decide⟩, by decide⟩, ⟨⟨rfl, rfl, test_wfTable, by decide⟩, by decide⟩,
    ⟨⟨rfl, rfl, test_wfTable, by decide⟩, by decide +kernel⟩,
    ⟨⟨rfl, rfl, test_wfTable, by decide⟩, by decide +kernel, by decide +kernel⟩,
    ⟨rfl, rfl, test_wfTable, by decide⟩, by decide, by decide +kernel, by decide +kernel, by decide +kernel⟩

/-- A full-size buffer, `N = 6`. -/
def preparing : State := { call six with phase := .prepare, n := 6, osize := 8 }

theorem witness_PrepareInitialises :
    preparing.phase = .prepare ∧ preparing.hostMoves = [] ∧ wfTable preparing.par.table = true ∧
      20 ≤ preparing.par.inCap ∧ preparing.osize.toNat = preparing.par.outCap ∧ preparing.n.toNat = 6 ∧
      ∃ t, step preparing = .next t :=
  ⟨rfl, rfl, test_wfTable, by decide, by decide, by decide, ⟨_, rfl⟩⟩

theorem witness_HaltedStandsStill :
    (halted (host .idle []) ∧ halted (host .terminate []) ∧ halted (host .error [])) ∧
      (host .idle []).hostMoves = [] :=
  ⟨⟨.inl rfl, .inr (.inl rfl), .inr (.inr rfl)⟩, rfl⟩

/-- A step from each phase, and the faulting ones. -/
theorem witness_PhaseTransitions :
    ∀ s ∈ [host .idle [], host .terminate [], host .error [], call six, preparing,
        mid p3 5 32 0 0 0 .readSymbol, mid (at_ 8 0x01 7) 5 7 0 0 0 .readSymbol,
        mid (at_ 8 0x09 7) 5 7 0 0 0 .readSymbol, ending, mid (at_ 8 0x82 8) 5 8 0 0 0 .readSymbol,
        mid small 5 23 1 0 0 .emitLiteral, mid small 5 23 2 0 0 .emitLiteral,
        mid small 5 23 0 0 0 .emitRun, { mid small 5 23 0 0 0 .emitRun with rem := 1 },
        { mid small 5 23 1 0 0 .emitRun with rem := 1 }, { mid small 5 23 1 0 0 .emitCopy with sym := 1 },
        { mid small 5 23 1 0 0 .emitCopy with sym := 1, rem := 1 },
        { mid six 5 23 2 0 0 .emitCopy with sym := 1, rem := 1 }],
      s.hostMoves = [] ∧ (after (step s)).isSome = true := by decide +kernel

/-- A faulting step of each of the three kinds of phase. -/
theorem witness_FaultingStepChangesErrorOnly :
    ∀ s ∈ [{ call six with inLen := 23 }, mid (at_ 8 0x82 8) 5 8 0 0 0 .readSymbol,
        mid small 5 23 2 0 0 .emitLiteral],
      s.hostMoves = [] ∧ s.phase ≠ .error ∧
        (after (step s)).map (fun t => t.phase) = some .error := by decide +kernel

/-- The invariant, and a next state, for an engine step and for a host step. -/
theorem witness_StepKeepsEngineInv :
    EngineInv (mid p3 5 32 0 0 0 .readSymbol) ∧
      (after (step (mid p3 5 32 0 0 0 .readSymbol))).isSome = true ∧
      EngineInv { call six with hostMoves := [.readReg 1] } ∧
      (after (step { call six with hostMoves := [.readReg 1] })).isSome = true :=
  ⟨inv_of_check (by decide +kernel), by decide +kernel,
    inv_of_start (by decide +kernel) rfl rfl rfl rfl, by decide +kernel⟩

/-- The three refusals: a bad table, `IN_LEN` one above `IN_CAP`, word 2 one above `OUT_CAP`. -/
theorem witness_EngineNeverFaults :
    (EngineInv { call six with par := { par with table := Config.testTable.set 12 10 } } ∧
      refusal (step { call six with par := { par with table := Config.testTable.set 12 10 } }) =
        some .tableNotWellFormed) ∧
    (EngineInv { call six with inLen := 29 } ∧
      refusal (step { call six with inLen := 29 }) = some .containerExceedsInCap) ∧
    (EngineInv (call (container 9 [0, 0])) ∧
      refusal (step (call (container 9 [0, 0]))) = some .outputExceedsOutCap) :=
  ⟨⟨inv_of_start (by decide +kernel) rfl rfl rfl rfl, by decide +kernel⟩,
    ⟨inv_of_start (by decide +kernel) rfl rfl rfl rfl, by decide +kernel⟩,
    inv_of_start (by decide +kernel) rfl rfl rfl rfl, by decide +kernel⟩

theorem witness_EngineStaysInBuffer :
    EngineInv ending ∧ ending.hostMoves = [] ∧ (after (step ending)).isSome = true :=
  ⟨inv_of_check (by decide +kernel), rfl, by decide +kernel⟩

/-- A refill, with every byte of IMEM but the four of word `RDCUR = 5` changed. -/
theorem witness_DecodeReadsNextWordOnly :
    decoding (mid seven 5 8 0 0 0 .readSymbol).phase = true ∧
      (mid seven 5 8 0 0 0 .readSymbol).hostMoves = [] ∧
      (Memory.writeWord [] 20 0x9ABCDEF0).readWord (4 * (mid seven 5 8 0 0 0 .readSymbol).rdcur.toNat) =
        (mid seven 5 8 0 0 0 .readSymbol).imem.readWord (4 * (mid seven 5 8 0 0 0 .readSymbol).rdcur.toNat) ∧
      (Memory.writeWord [] 20 0x9ABCDEF0) ≠ (mid seven 5 8 0 0 0 .readSymbol).imem ∧
      (after (step (mid seven 5 8 0 0 0 .readSymbol))).isSome = true :=
  ⟨rfl, rfl, by decide +kernel, by decide +kernel, by decide +kernel⟩

theorem witness_ParametersNeverChange :
    (after (step { call six with hostMoves := [.reset] })).isSome = true := by decide +kernel

/-- The container of program P3, whose call runs through every kind of step. -/
theorem witness_EveryCallHalts :
    EngineInv (call p3) ∧ (call p3).phase = .validate ∧ (call p3).hostMoves = [] ∧
      wfTable (call p3).par.table = true ∧ (call p3).inLen.toNat ≤ (call p3).par.inCap ∧
      ((call p3).imem.readWord 8).toNat ≤ (call p3).par.outCap :=
  ⟨inv_of_start (by decide +kernel) rfl rfl rfl rfl, rfl, rfl, test_wfTable, by decide, by decide +kernel⟩

/-- Each result of `decompress`: done, failed and refused. -/
theorem witness_CallComputesDecompress :
    EngineInv (call p3) ∧ (call p3).phase = .validate ∧ (call p3).hostMoves = [] ∧
      decompress (call p3) = .done [0x61, 0x62, 0x61, 0x62, 0x61, 0x62] ∧
      decompress (call small) = .failed (.corruptStream .outputOverrun) ∧
      decompress { call six with inLen := 29 } = .refused .containerExceedsInCap :=
  ⟨inv_of_start (by decide +kernel) rfl rfl rfl rfl, rfl, rfl, by decide +kernel, by decide +kernel,
    by decide +kernel⟩

/-- `k` steps, if each has a next state. -/
def stepN (k : Nat) (s : State) : Option State :=
  match k with
  | 0 => some s
  | k + 1 => (after (step s)).bind (stepN k)

theorem runs_of_stepN {k : Nat} {s t : State} (h : stepN k s = some t) : runs k s t := by
  induction k generalizing s with
  | zero => exact Option.some.inj h
  | succ k ih =>
    obtain ⟨u, hu, h⟩ := Option.bind_eq_some_iff.mp h
    exact ⟨u, next_of_after hu, ih h⟩

/-- A container that ends at once (F7b of section 7). -/
def empty : List Word := container 4 [0x79, 0]

/-- The same container with other registers and another OMEM. -/
def emptyAgain : State := { call empty with cur := 7, lastb := 9, wridx := 3, acc := 1, omem := [(0, 1), (6, 2)] }

theorem witness_NoStatePersists :
    EngineInv (call empty) ∧ EngineInv emptyAgain ∧ emptyAgain ≠ call empty ∧ emptyAgain.phase = .validate ∧
      emptyAgain.imem = (call empty).imem ∧ emptyAgain.inLen = (call empty).inLen ∧
      emptyAgain.par = (call empty).par ∧ ∃ t, runs 3 (call empty) t ∧ t.phase = .terminate := by
  refine ⟨inv_of_start (by decide +kernel) rfl rfl rfl rfl, inv_of_start (by decide +kernel) rfl rfl rfl rfl,
    by decide +kernel, rfl, rfl, rfl, rfl, ?_⟩
  have h : (stepN 3 (call empty)).map (fun t => t.phase) = some .terminate := by decide +kernel
  obtain ⟨t, ht, hp⟩ := Option.map_eq_some_iff.mp h
  exact ⟨t, runs_of_stepN ht, hp⟩

theorem witness_InLenWrite :
    (host .idle [.writeReg 2 7]).hostMoves = .writeReg 2 7 :: [] ∧ (host .idle []).busy = false ∧
      (host .emitCopy [.writeReg 2 7]).hostMoves = .writeReg 2 7 :: [] ∧
      (host .emitCopy []).busy = true := by decide

/-- `OUT_SIZE` about to be read after a `CorruptStream`. -/
def corrupted : State := takeException (.corruptStream .outputOverrun) (host .emitRun [.readReg 3])

theorem witness_ResultRegisterReads :
    (∀ no ∈ [0, 1, 2, 3, 4, 5], (host .terminate [.readReg no]).hostMoves = .readReg no :: []) ∧
      (host .terminate []).phase = .terminate ∧ (host .terminate []).busy = false ∧
      (host .error [.readReg 5]).busy = false ∧
      corrupted.hostMoves = .readReg 3 :: [] ∧ corrupted.phase = .error ∧
      corrupted.errcode.extractLsb' 0 2 = 2#2 := by decide

/-- The last word of each memory, OMEM in `ERROR` too. -/
theorem witness_HostWordIsLittleEndian :
    (host .idle []).imem.wf = true ∧ (host .idle []).omem.wf = true ∧ (host .idle []).busy = false ∧
      4 * 6 + 4 = (host .idle []).par.inCap ∧ 4 * 1 + 4 = (host .error []).par.outCap ∧
      (host .error []).busy = false ∧
      (host .idle [.writeWord .imem 6 0x01020304, .readWord .imem 6]).hostMoves =
        [.writeWord .imem 6 0x01020304, .readWord .imem 6] ∧
      (host .error [.writeWord .omem 1 0x01020304, .readWord .omem 1]).hostMoves =
        [.writeWord .omem 1 0x01020304, .readWord .omem 1] := by decide

theorem witness_HostMemoryRefusedWhileBusy :
    ∀ m ∈ [HostMove.readByte .omem 0, .writeByte .imem 0 0, .readWord .omem 0, .writeWord .imem 0 0],
      (host .validate [m]).hostMoves = m :: [] ∧ (host .validate [m]).busy = true ∧
        (host .emitCopy [m]).busy = true := by decide

/-- An OMEM word about to be read in `ERROR`, of which the host has stored the first byte. -/
def stored : State := { host .error [.readWord .omem 1] with errStores := [4] }

/-- Every form: busy, `IDLE`, `ERROR` after a `FormatError`, OMEM in `ERROR` at its last byte and word, of which
the host has stored one byte. -/
theorem witness_UnspecifiedReadsAreFree :
    (∀ no ∈ [0, 2, 3, 4, 5], (host .validate [.readReg no]).hostMoves = .readReg no :: [] ∧
      (host .emitCopy [.readReg no]).busy = true) ∧
    (host .idle [.readReg 3]).phase = .idle ∧ (host .error [.readReg 4]).phase = .error ∧
    BitVec.extractLsb' 0 2 (0x41 : Word) = 1#2 ∧
    (host .error [.readByte .omem 7]).hostMoves = .readByte .omem 7 :: [] ∧
    7 < (host .error []).par.outCap ∧ 7 ∉ (host .error []).errStores ∧
    stored.hostMoves = .readWord .omem 1 :: [] ∧ 4 * 1 + 4 = stored.par.outCap ∧ stored.phase = .error ∧
    4 * 1 + 3 ∉ stored.errStores := by decide

theorem witness_HostReadsResult :
    (host .terminate []).busy = false ∧ (host .error []).busy = false ∧
      (host .terminate [.readByte .omem 7]).hostMoves = .readByte .omem 7 :: [] ∧
      7 + 1 = (host .terminate []).par.outCap ∧
      (host .terminate [.readWord .omem 1]).hostMoves = .readWord .omem 1 :: [] ∧
      4 * 1 + 4 = (host .terminate []).par.outCap ∧
      (host .idle [.readByte .imem 27]).hostMoves = .readByte .imem 27 :: [] ∧
      27 + 1 = (host .idle []).par.inCap ∧
      (host .idle [.readWord .imem 6]).hostMoves = .readWord .imem 6 :: [] ∧
      4 * 6 + 4 = (host .idle []).par.inCap ∧
      ({ stored with errStores := [4, 5, 6, 7] } : State).busy = false ∧
      ∀ k < 4, 4 * 1 + k ∈ ({ stored with errStores := [4, 5, 6, 7] } : State).errStores := by
  decide

theorem witness_HardwareResetMove :
    (host .emitRun [.reset]).hostMoves = .reset :: [] := by decide

theorem witness_OtherRegisterNumbers :
    (∀ no ∈ [1, 3, 4, 5], (host .error [.writeReg no 1]).hostMoves = .writeReg no 1 :: []) ∧
      (host .idle [.writeReg 6 1]).hostMoves = .writeReg 6 1 :: [] ∧
      (host .idle [.readReg 6]).hostMoves = .readReg 6 :: [] := by decide

/-- The last byte of each memory, OMEM in `ERROR` too. -/
theorem witness_HostByteStores :
    (host .idle []).busy = false ∧ (host .error []).busy = false ∧ (host .idle []).imem.wf = true ∧
      (host .idle []).omem.wf = true ∧
      (host .idle [.writeByte .imem 27 1]).hostMoves = .writeByte .imem 27 1 :: [] ∧
      27 + 1 = (host .idle []).par.inCap ∧
      (host .error [.writeByte .omem 7 1]).hostMoves = .writeByte .omem 7 1 :: [] ∧
      7 + 1 = (host .error []).par.outCap := by decide

/-- R203 and U4: in `ERROR` the host reads back the byte it has stored, and that read is no free value. -/
theorem test_error_store_reads_back :
    (stepN 2 (host .error [.writeByte .omem 3 0x5A, .readByte .omem 3])).map
      (fun t => (t.hostData, t.freeIdx, t.errStores)) = some (0x5A, 0, [3]) := by decide

end Sys2Proof.Tests
end

/-! ## `INV_WINDOW` (R25): what a window reads, and that `InitWindow` and `Consume` keep it -/

namespace Sys2Proof.Safety

open Sys2Proof.Machine

/-- Bit `i` of stream word `X[j]` is stream bit `32 * j + i` (R91). -/
theorem streamBit_word (s : State) (j i : Nat) (hi : i < 32) :
    s.streamBit (32 * j + i) = (s.streamWord j).getLsbD i := by
  unfold State.streamBit
  rw [show (32 * j + i) / 32 = j by omega, show (32 * j + i) % 32 = i by omega]

/-- `INV_WINDOW` depends on the reader's registers, `N` and IMEM only. -/
theorem WindowInv.congr {s t : State} (h : WindowInv s) (hcur : t.cur = s.cur) (hla : t.la = s.la)
    (hcnt : t.cnt = s.cnt) (hrd : t.rdcur = s.rdcur) (hn : t.n = s.n) (hm : t.imem = s.imem) :
    WindowInv t where
  rdcur_low := hrd ▸ h.rdcur_low
  rdcur_high := hrd ▸ hn ▸ h.rdcur_high
  cnt_le := hcnt ▸ h.cnt_le
  la_eq := by
    unfold State.streamWord
    rw [hla, hrd, hm]
    exact h.la_eq
  cur_bits i hi := by
    unfold State.streamBit State.streamWord State.streamPos
    rw [hcur, hrd, hcnt, hm]
    exact h.cur_bits i hi

/-- The window and `LA` together hold the stream from `T` to the end of `X[F+1]` (R22, R25). -/
theorem WindowInv.la_bits {s : State} (h : WindowInv s) {i : Nat} (hi : i < 32) :
    s.la.getLsbD i = s.streamBit (s.streamPos + s.cnt.toNat + i) := by
  have hpos : s.streamPos + s.cnt.toNat = 32 * (s.rdcur.toNat - 4) := by
    have := h.cnt_le
    have := h.rdcur_low
    unfold State.streamPos
    omega
  rw [hpos, streamBit_word _ _ _ hi, h.la_eq]

/-- Sliding inside the fetched words moves the stream position (R123). -/
theorem streamPos_slide {s : State} {len : Nat} (h : WindowInv s) (hc : len ≤ s.cnt.toNat) :
    (slide s len).streamPos = s.streamPos + len := by
  have := h.cnt_le
  have := h.rdcur_low
  simp only [State.streamPos, slide, State.setWindow_cnt, State.setWindow_rdcur, BitVec.toNat_ofNat]
  omega

theorem WindowInv.slide {s : State} {len : Nat} (h : WindowInv s) (hc : len ≤ s.cnt.toNat) :
    WindowInv (slide s len) where
  rdcur_low := h.rdcur_low
  rdcur_high := h.rdcur_high
  cnt_le := by
    have := h.cnt_le
    simp only [Machine.slide, State.setWindow_cnt, BitVec.toNat_ofNat]
    omega
  la_eq := h.la_eq
  cur_bits i hi := by
    have hcnt := h.cnt_le
    rw [streamPos_slide h hc]
    change (s.cur >>> len ||| s.la <<< (s.cnt.toNat - len)).getLsbD i = s.streamBit (s.streamPos + len + i)
    have hcur : i + len < 32 → s.cur.getLsbD (len + i) = s.streamBit (s.streamPos + len + i) := by
      intro hlt
      rw [h.cur_bits _ (by omega), Nat.add_assoc]
    have hla : s.cnt.toNat ≤ i + len →
        s.la.getLsbD (i - (s.cnt.toNat - len)) = s.streamBit (s.streamPos + len + i) := by
      intro hle
      rw [h.la_bits (by omega)]
      congr 1
      omega
    rw [BitVec.getLsbD_or, BitVec.getLsbD_ushiftRight, BitVec.getLsbD_shiftLeft]
    by_cases hlo : i + len < 32
    · rw [hcur hlo]
      by_cases hhi : s.cnt.toNat ≤ i + len
      · simp [hla hhi, hi]
      · simp [show i < s.cnt.toNat - len by omega]
    · rw [BitVec.getLsbD_of_ge s.cur _ (by omega), hla (by omega)]
      simp [hi, show ¬ i < s.cnt.toNat - len by omega]

/-- The number of the next word does not wrap below the container's word count (R24). -/
theorem toNat_rdcur_succ {s : State} (hn : s.rdcur.toNat + 1 < s.n.toNat) :
    (s.rdcur + 1).toNat = s.rdcur.toNat + 1 := by
  have := s.n.isLt
  rw [BitVec.toNat_add]
  simp
  omega

/-- Fetching the next word moves the stream position as well (R123). -/
theorem streamPos_refill {s : State} {len : Nat} (h : WindowInv s) (h2 : len ≤ 32)
    (hc : s.cnt.toNat < len) (hn : s.rdcur.toNat + 1 < s.n.toNat) (w : Word) :
    (refill s len w).streamPos = s.streamPos + len := by
  have := h.cnt_le
  have := h.rdcur_low
  simp only [State.streamPos, refill, State.setWindow_cnt, State.setWindow_rdcur, BitVec.toNat_ofNat,
    toNat_rdcur_succ hn]
  omega

theorem WindowInv.refill {s : State} {len : Nat} (h : WindowInv s) (h2 : len ≤ 32)
    (hc : s.cnt.toNat < len) (hn : s.rdcur.toNat + 1 < s.n.toNat) :
    WindowInv (refill s len (s.imem.readWord (4 * s.rdcur.toNat))) where
  rdcur_low := by
    have := h.rdcur_low
    simp only [Machine.refill, State.setWindow_rdcur, toNat_rdcur_succ hn]
    omega
  rdcur_high := by
    simp only [Machine.refill, State.setWindow_rdcur, State.setWindow_n, toNat_rdcur_succ hn]
    omega
  cnt_le := by
    simp only [Machine.refill, State.setWindow_cnt, BitVec.toNat_ofNat]
    omega
  la_eq := by
    have := h.rdcur_low
    simp only [Machine.refill, State.setWindow_la, State.setWindow_rdcur, State.streamWord,
      State.setWindow_imem, toNat_rdcur_succ hn]
    congr 1
    omega
  cur_bits i hi := by
    have hcnt := h.cnt_le
    have hlow := h.rdcur_low
    rw [streamPos_refill h h2 hc hn]
    change (s.la >>> (len - s.cnt.toNat) ||| s.imem.readWord (4 * s.rdcur.toNat)
      <<< (32 - (len - s.cnt.toNat))).getLsbD i = s.streamBit (s.streamPos + len + i)
    rw [BitVec.getLsbD_or, BitVec.getLsbD_ushiftRight, BitVec.getLsbD_shiftLeft]
    by_cases hlo : i + (len - s.cnt.toNat) < 32
    · rw [h.la_bits (by omega),
        show s.streamPos + s.cnt.toNat + (len - s.cnt.toNat + i) = s.streamPos + len + i by omega]
      simp [show i < 32 - (len - s.cnt.toNat) by omega]
    · have hbit : s.streamPos + len + i =
          32 * (s.rdcur.toNat - 3) + (i - (32 - (len - s.cnt.toNat))) := by
        unfold State.streamPos
        omega
      rw [BitVec.getLsbD_of_ge s.la _ (by omega), hbit, streamBit_word _ _ _ (by omega),
        State.streamWord, show 3 + (s.rdcur.toNat - 3) = s.rdcur.toNat by omega]
      simp [hi, show ¬ i < 32 - (len - s.cnt.toNat) by omega]

/-- R126: a `Consume` that raises nothing keeps `INV_WINDOW` and moves `T` by the bits consumed. -/
theorem consume_keeps_window {s t : State} {len : Nat} (h : WindowInv s) (hu : consume len s = .ok t) :
    WindowInv t ∧ t.streamPos = s.streamPos + len := by
  obtain ⟨_, h2, ⟨hc, rfl⟩ | ⟨hc, hn, _, rfl⟩⟩ := consume_eq_ok hu
  · exact ⟨h.slide hc, streamPos_slide h hc⟩
  · exact ⟨h.refill h2 hc hn, streamPos_refill h h2 hc hn _⟩

/-- `InitWindow` establishes `INV_WINDOW` at `T = 0` (R121). -/
theorem windowInv_init {s : State} (h6 : 6 ≤ s.n.toNat) :
    WindowInv (s.setWindow (s.imem.readWord 12) (s.imem.readWord 16) 32 5) where
  rdcur_low := Nat.le_refl 5
  rdcur_high := h6
  cnt_le := Nat.le_refl 32
  la_eq := rfl
  cur_bits i hi := by
    have hpos : (s.setWindow (s.imem.readWord 12) (s.imem.readWord 16) 32 5).streamPos = 32 * 0 := rfl
    rw [hpos, streamBit_word _ _ _ hi]
    rfl

end Sys2Proof.Safety

/-! ## What an engine step can be, and what every engine step leaves unchanged (R191) -/

namespace Sys2Proof.Safety

open Sys2Proof.Machine

/-- The ways an engine step that answers a next state can go (R191), one constructor for each; every
invariant and every frame of the engine is a case analysis over them. -/
inductive EngineMove (s : State) : State → Prop where
  /-- `IDLE`, `TERMINATE` and `ERROR` are halted (R196, R197). -/
  | stay (hb : s.busy = false) : EngineMove s s
  /-- Trap entry (R226). -/
  | trap (e : Exc) (hb : s.busy = true) : EngineMove s (trapped e s)
  /-- `VALIDATE` accepts the container (R193). -/
  | latch (hp : s.phase = .validate) (haligned : s.inLen.toNat % 4 = 0) (hwords : 6 ≤ s.inLen.toNat / 4)
      (hin : s.inLen.toNat ≤ s.par.inCap) (hout : (s.imem.readWord 8).toNat ≤ s.par.outCap) :
      EngineMove s
        ((s.setContainer (BitVec.ofNat 30 (s.inLen.toNat / 4)) (s.imem.readWord 8)).setPhase .prepare)
  /-- `PREPARE` (R194). -/
  | prepare (hp : s.phase = .prepare) :
      EngineMove s (((s.setWindow (s.imem.readWord 12) (s.imem.readWord 16) 32 5).clearOutput
        (s.omem.zeroFill s.osize.toNat)).setPhase .readSymbol)
  /-- `READ_SYMBOL` on a `LIT` (R141, R142). -/
  | lit (hp : s.phase = .readSymbol) (b : Byte) (u : State) (hu : consume 9 s = .ok u) :
      EngineMove s ((u.setLitb b).setPhase .emitLiteral)
  /-- `READ_SYMBOL` on a `RUN` or a `COPY`; the value of a `COPY` is in range (R95, R141). -/
  | coded (hp : s.phase = .readSymbol) (len : Nat) (v c : Word) (q : Phase) (u : State)
      (hu : consume len s = .ok u)
      (hq : q = .emitRun ∨ q = .emitCopy ∧ 1 ≤ v.toNat ∧ v.toNat ≤ 0x10001) :
      EngineMove s ((u.setCoded v c).setPhase q)
  /-- `READ_SYMBOL` on an `END` (R150). -/
  | finish (hp : s.phase = .readSymbol) (u : State) (hu : flush s = .ok u) :
      EngineMove s (u.setPhase .terminate)
  /-- `EMIT_LITERAL` (R178). -/
  | emitLit (hp : s.phase = .emitLiteral) (u : State) (hu : emit s.litb s = .ok u) :
      EngineMove s (u.setPhase .readSymbol)
  /-- One byte of a `RUN` or a `COPY` (R176, R177). -/
  | emitByte (hp : s.phase = .emitRun ∨ s.phase = .emitCopy) (b : Byte) (u : State)
      (hu : emit b s = .ok u) : EngineMove s (u.setRem (s.rem - 1))
  /-- The step that leaves a `RUN` or a `COPY` (D22). -/
  | leave (hp : s.phase = .emitRun ∨ s.phase = .emitCopy) : EngineMove s (s.setPhase .readSymbol)

theorem busy_eq_true_of_phase {s : State} {p : Phase} (h : s.phase = p) (hp : p.busy = true) :
    s.busy = true := by
  rw [State.busy, h, hp]

/-- The moves of `READ_SYMBOL`, by the class of the symbol (R95, R141). -/
theorem engineMove_of_readSymbol {s t : State} (hp : s.phase = .readSymbol)
    (h : readSymbolStep s = .next t) : EngineMove s t := by
  have hb : s.busy = true := busy_eq_true_of_phase hp rfl
  obtain ⟨i, hdec, hexec⟩ := readSymbolStep_next h
  cases i with
  | lit b =>
    obtain ⟨u, hu, rfl⟩ | ⟨_, _, rfl⟩ := execLit_next hexec
    · exact .lit hp b u hu
    · exact .trap _ hb
  | run p xa sr xb =>
    obtain ⟨u, hu, rfl⟩ | ⟨_, _, rfl⟩ := readCoded_next hexec
    · exact .coded hp _ _ _ _ u hu (.inl rfl)
    · exact .trap _ hb
  | copy p xa sr xb =>
    obtain ⟨u, hu, rfl⟩ | ⟨_, _, rfl⟩ := readCoded_next hexec
    · exact .coded hp _ _ _ _ u hu (.inr ⟨rfl, decode_copy_sym hdec⟩)
    · exact .trap _ hb
  | endSym p xa sr xb =>
    obtain ⟨u, hu, rfl⟩ := execEnd_next hexec
    exact .finish hp u hu

/-- Every engine step that answers a next state is one of the moves. -/
theorem engineStep_move {s t : State} (h : engineStep s = .next t) : EngineMove s t := by
  obtain ⟨hb, rfl⟩ | ⟨_, hstep⟩ := engineStep_next h
  · exact .stay hb
  rcases hstep with ⟨hp, h⟩ | ⟨hp, h⟩ | ⟨hp, h⟩ | ⟨hp, h⟩ | ⟨hp, h⟩ | ⟨hp, h⟩
  · obtain ⟨hin, ⟨d, _, rfl⟩ | ⟨h4, h6, _, _, hout, rfl⟩⟩ := validateStep_next h
    · exact .trap _ (busy_eq_true_of_phase hp rfl)
    · exact .latch hp h4 h6 hin hout
  · obtain ⟨_, _, rfl⟩ := prepareStep_next h
    exact .prepare hp
  · exact engineMove_of_readSymbol hp h
  · obtain ⟨u, hu, rfl⟩ | ⟨_, rfl⟩ := emitLiteralStep_next h
    · exact .emitLit hp u hu
    · exact .trap _ (busy_eq_true_of_phase hp rfl)
  · obtain ⟨_, rfl⟩ | ⟨_, _, u, hu, rfl⟩ | ⟨_, _, rfl⟩ | ⟨_, _, _, rfl⟩ := emitRunStep_next h
    · exact .leave (.inl hp)
    · exact .emitByte (.inl hp) _ u hu
    all_goals exact .trap _ (busy_eq_true_of_phase hp rfl)
  · obtain ⟨_, rfl⟩ | ⟨_, _, b, u, _, hu, rfl⟩ | ⟨_, _, rfl⟩ | ⟨_, _, _, rfl⟩ := emitCopyStep_next h
    · exact .leave (.inr hp)
    · exact .emitByte (.inr hp) b u hu
    all_goals exact .trap _ (busy_eq_true_of_phase hp rfl)

/-- `Flush` touches OMEM only. -/
theorem flush_frame {s t : State} (h : flush s = .ok t) : ∃ m, t = s.setOutput s.acc m := by
  rcases flush_cases s with ⟨_, hf⟩ | ⟨_, _, hf⟩ | ⟨_, _, hf⟩ <;> rw [hf] at h
  · exact ⟨s.omem, (Except.ok.inj h).symm⟩
  · exact ⟨_, (Except.ok.inj h).symm⟩
  · exact absurd h (by simp)

/-- What no step of the engine touches: the container, its length, the parameters, the host's side. -/
structure EngineFrame (s t : State) : Prop where
  imem : t.imem = s.imem
  inLen : t.inLen = s.inLen
  par : t.par = s.par
  hostMoves : t.hostMoves = s.hostMoves
  hostData : t.hostData = s.hostData
  freeIdx : t.freeIdx = s.freeIdx
  errStores : t.errStores = s.errStores

theorem EngineMove.frame {s t : State} (h : EngineMove s t) : EngineFrame s t := by
  cases h with
  | stay | trap | latch | prepare | leave => constructor <;> rfl
  | lit _ b u hu | coded _ _ _ _ _ u hu =>
    obtain ⟨_, _, _, _, rfl⟩ := consume_frame hu
    constructor <;> rfl
  | finish _ u hu =>
    obtain ⟨_, rfl⟩ := flush_frame hu
    constructor <;> rfl
  | emitLit _ u hu | emitByte _ b u hu =>
    obtain ⟨_, _, rfl⟩ := emit_frame hu
    constructor <;> rfl

end Sys2Proof.Safety

/-! ## `EngineInv` in parts: what holds in every phase, and what every decode phase has -/

namespace Sys2Proof.Safety

open Sys2Proof.Machine

/-- The part of `EngineInv` that speaks of every phase: canonical memories, `ERRCODE` (R38) and the model's
own note of the host's stores (log 23). -/
structure BaseInv (s : State) : Prop where
  imem_wf : s.imem.wf = true
  omem_wf : s.omem.wf = true
  no_error : s.phase ≠ .error → s.errcode = 0
  error_code : s.phase = .error → ∃ e : Exc, s.errcode = e.code
  no_stores : s.phase ≠ .error → s.errStores = []

/-- The part of `EngineInv` that every decode phase has. -/
structure DecodeInv (s : State) : Prop where
  call : CallInv s
  window : WindowInv s
  lanes : LaneInv s
  last_byte : 1 ≤ s.wridx.toNat → s.lastb = outImage s (s.wridx.toNat - 1)

theorem EngineInv.base {s : State} (h : EngineInv s) : BaseInv s :=
  ⟨h.imem_wf, h.omem_wf, h.no_error, h.error_code, h.no_stores⟩

theorem EngineInv.decode {s : State} (h : EngineInv s) (hd : decoding s.phase = true) : DecodeInv s :=
  ⟨h.call (.inr hd), h.window hd, h.lanes hd, h.last_byte hd⟩

/-- `EngineInv` from its parts. -/
theorem BaseInv.engineInv {s : State} (h : BaseInv s) (hcall : s.phase = .prepare → CallInv s)
    (hdec : decoding s.phase = true → DecodeInv s)
    (hsym : s.phase = .emitCopy → 1 ≤ s.sym.toNat ∧ s.sym.toNat ≤ 0x10001) : EngineInv s where
  imem_wf := h.imem_wf
  omem_wf := h.omem_wf
  no_error := h.no_error
  error_code := h.error_code
  call hp := hp.elim hcall fun hd => (hdec hd).call
  window hd := (hdec hd).window
  lanes hd := (hdec hd).lanes
  last_byte hd := (hdec hd).last_byte
  copy_sym := hsym
  no_stores := h.no_stores

/-- The phases in which a call has latched its container: `PREPARE` and the decode phases. Only there
does `EngineInv` say more than `BaseInv`. -/
def inCall (p : Phase) : Bool := p = .prepare || decoding p

/-- Outside a call the whole invariant is `BaseInv`. -/
theorem BaseInv.engineInv_of_not_inCall {s : State} (h : BaseInv s) (hp : inCall s.phase = false) :
    EngineInv s := by
  obtain ⟨hprep, hdec⟩ : s.phase ≠ .prepare ∧ decoding s.phase = false := by simpa [inCall] using hp
  exact h.engineInv (fun hq => absurd hq hprep) (fun hq => absurd hq (by simp [hdec]))
    (fun hq => absurd hdec (by simp [hq, decoding]))

theorem not_inCall_of_not_busy {s : State} (h : s.busy = false) : inCall s.phase = false := by
  revert h
  unfold State.busy
  cases s.phase <;> decide

/-- A step from one phase outside `ERROR` to another keeps `BaseInv` if it leaves IMEM, `ERRCODE` and the note
of the host's stores alone and OMEM canonical. -/
theorem BaseInv.of_frame {s t : State} (h : BaseInv s) (hs : s.phase ≠ .error) (ht : t.phase ≠ .error)
    (himem : t.imem = s.imem) (homem : t.omem.wf = true) (herr : t.errcode = s.errcode)
    (hnote : t.errStores = s.errStores) : BaseInv t where
  imem_wf := himem ▸ h.imem_wf
  omem_wf := homem
  no_error _ := herr.trans (h.no_error hs)
  error_code hp := absurd hp ht
  no_stores _ := hnote.trans (h.no_stores hs)

/-- Trap entry gives the invariant: `ERROR` asks no more than the code of an exception (R226). -/
theorem BaseInv.trapped {s : State} (h : BaseInv s) (e : Exc) : EngineInv (trapped e s) :=
  BaseInv.engineInv_of_not_inCall
    ⟨h.imem_wf, h.omem_wf, fun hp => absurd rfl hp, fun _ => ⟨e, rfl⟩, fun hp => absurd rfl hp⟩ rfl

end Sys2Proof.Safety

/-! ## What each operation of a decode step does to `DecodeInv` -/

namespace Sys2Proof.Safety

open Sys2Proof.Machine

/-- `DecodeInv` says nothing of `PHASE`, `LITB`, `SYM` and `REM`. -/
theorem DecodeInv.of_operands {s : State} (h : DecodeInv s) (p : Phase) (b : Byte) (v c : Word) :
    DecodeInv { s with phase := p, litb := b, sym := v, rem := c } where
  call := ⟨h.call.words_ge, h.call.words_eq, h.call.fits_in, h.call.size_eq, h.call.fits_out⟩
  window := h.window.congr rfl rfl rfl rfl rfl rfl
  lanes := ⟨h.lanes.wridx_le, h.lanes.free_lanes, h.lanes.omem_zero⟩
  last_byte := h.last_byte

/-- A `Consume` that raises nothing keeps it (R126). -/
theorem DecodeInv.consume {s t : State} {len : Nat} (h : DecodeInv s) (hu : consume len s = .ok t) :
    DecodeInv t := by
  have hwindow := (consume_keeps_window h.window hu).1
  obtain ⟨_, _, _, _, rfl⟩ := consume_frame hu
  exact ⟨⟨h.call.words_ge, h.call.words_eq, h.call.fits_in, h.call.size_eq, h.call.fits_out⟩, hwindow,
    ⟨h.lanes.wridx_le, h.lanes.free_lanes, h.lanes.omem_zero⟩, h.last_byte⟩

/-- `Emit` keeps OMEM canonical. -/
theorem emit_keeps_wf {s t : State} {b : Byte} (wf : s.omem.wf = true) (hu : emit b s = .ok t) :
    t.omem.wf = true := by
  obtain ⟨_, ⟨_, rfl⟩ | ⟨_, _, rfl⟩⟩ := emit_eq_ok hu
  · exact wf
  · rw [State.setOutput_omem]
    exact Memory.wf_writeMasked wf _ _ _

theorem byteOf_zero (k : Nat) : byteOf 0 k = 0 := by
  simp [byteOf]

/-- `Emit` keeps `INV_ACC` (R173): the byte leaves the lanes above it free, or the word is committed and all
four are. -/
theorem LaneInv.emit {s t : State} {b : Byte} (h : LaneInv s) (wf : s.omem.wf = true)
    (hu : emit b s = .ok t) : LaneInv t := by
  obtain ⟨hw, _, _, hlt⟩ := emit_wridx hu
  obtain ⟨a, m, hem, rfl⟩ := emitted_of_emit wf hu
  simp only at hw
  refine ⟨?_, ?_, ?_⟩
  · simp only [hw]
    exact hlt
  · intro k hk hle
    simp only [lane, hw] at hle
    change byteOf a k = 0
    rw [hem.acc]
    by_cases h3 : s.wridx.toNat % 4 = 3
    · rw [if_pos h3, byteOf_zero]
    · rw [if_neg h3, byteOf_insertLane _ _ (by omega) hk, if_neg (by omega)]
      exact h.free_lanes k hk (by unfold lane; omega)
  · intro j hle hj
    simp only [pendingBase, hw] at hle
    change m.read j = 0
    rw [hem.omem j, if_neg (by omega)]
    exact h.omem_zero j (by unfold pendingBase; omega) hj

/-- `Emit` keeps it: the byte emitted is the last one of the output (R28, R171). -/
theorem DecodeInv.emit {s t : State} {b : Byte} (h : DecodeInv s) (wf : s.omem.wf = true)
    (hu : emit b s = .ok t) : DecodeInv t := by
  have hlanes := h.lanes.emit wf hu
  have hlast : t.lastb = outImage t (t.wridx.toNat - 1) := by
    obtain ⟨hw, _, hb, _⟩ := emit_wridx hu
    rw [outImage_emit wf hu, hw, if_pos (by omega), hb]
  obtain ⟨_, _, rfl⟩ := emit_frame hu
  exact ⟨⟨h.call.words_ge, h.call.words_eq, h.call.fits_in, h.call.size_eq, h.call.fits_out⟩,
    h.window.congr rfl rfl rfl rfl rfl rfl, hlanes, fun _ => hlast⟩

/-- `PREPARE` establishes it (R194). -/
theorem decodeInv_prepared {s : State} (h : CallInv s) :
    DecodeInv (((s.setWindow (s.imem.readWord 12) (s.imem.readWord 16) 32 5).clearOutput
      (s.omem.zeroFill s.osize.toNat)).setPhase .readSymbol) where
  call := ⟨h.words_ge, h.words_eq, h.fits_in, h.size_eq, h.fits_out⟩
  window := (windowInv_init h.words_ge).congr rfl rfl rfl rfl rfl rfl
  lanes :=
    { wridx_le := Nat.zero_le _
      free_lanes := fun k _ _ => byteOf_zero k
      omem_zero := fun j _ hj => (Memory.read_zeroFill s.omem s.osize.toNat j).trans (if_pos hj) }
  last_byte hw := absurd hw (by simp)

/-- What `VALIDATE` latches is `CallInv` (R193). -/
theorem callInv_latched {s : State} (haligned : s.inLen.toNat % 4 = 0) (hwords : 6 ≤ s.inLen.toNat / 4)
    (hin : s.inLen.toNat ≤ s.par.inCap) (hout : (s.imem.readWord 8).toNat ≤ s.par.outCap) :
    CallInv ((s.setContainer (BitVec.ofNat 30 (s.inLen.toNat / 4)) (s.imem.readWord 8)).setPhase
      .prepare) := by
  have hn : (BitVec.ofNat 30 (s.inLen.toNat / 4)).toNat = s.inLen.toNat / 4 := by
    have := s.inLen.isLt
    rw [BitVec.toNat_ofNat]
    omega
  refine ⟨?_, ?_, hin, rfl, hout⟩
  · change 6 ≤ (BitVec.ofNat 30 (s.inLen.toNat / 4)).toNat
    omega
  · change 4 * (BitVec.ofNat 30 (s.inLen.toNat / 4)).toNat = s.inLen.toNat
    omega

end Sys2Proof.Safety

/-! ## `EngineInv` is kept by every step -/

namespace Sys2Proof.Safety

open Sys2Proof.Machine

/-- A decode phase's `EngineInv` from the old `BaseInv` and the new `DecodeInv`. -/
theorem engineInv_of_decoding {s t : State} (hs : BaseInv s) (hse : s.phase ≠ .error)
    (hframe : EngineFrame s t) (herr : t.errcode = s.errcode) (hwf : t.omem.wf = true)
    (hp : decoding t.phase = true) (hdec : DecodeInv t)
    (hsym : t.phase = .emitCopy → 1 ≤ t.sym.toNat ∧ t.sym.toNat ≤ 0x10001) : EngineInv t := by
  have hne : t.phase ≠ .error := fun h => by simp [h, decoding] at hp
  exact (hs.of_frame hse hne hframe.imem hwf herr hframe.errStores).engineInv (fun _ => hdec.call)
    (fun _ => hdec) hsym

/-- Every move of the engine keeps the invariant. -/
theorem EngineMove.keeps_engineInv {s t : State} (h : EngineInv s) (hm : EngineMove s t) :
    EngineInv t := by
  have hb := h.base
  have hframe := hm.frame
  cases hm with
  | stay => exact h
  | trap e => exact hb.trapped e
  | latch hp haligned hwords hin hout =>
    refine BaseInv.engineInv (hb.of_frame ?_ ?_ rfl h.omem_wf rfl rfl)
      (fun _ => callInv_latched haligned hwords hin hout) ?_ ?_
    all_goals simp [hp, decoding]
  | prepare hp =>
    exact engineInv_of_decoding hb (by simp [hp]) hframe rfl (Memory.wf_zeroFill h.omem_wf _) rfl
      (decodeInv_prepared (h.call (.inl hp))) (by simp)
  | lit hp b u hu =>
    have hdec := ((h.decode (by simp [hp, decoding])).consume hu).of_operands .emitLiteral b u.sym u.rem
    obtain ⟨_, _, _, _, rfl⟩ := consume_frame hu
    exact engineInv_of_decoding hb (by simp [hp]) hframe rfl h.omem_wf rfl hdec (by simp)
  | coded hp len v c q u hu hq =>
    have hdec := ((h.decode (by simp [hp, decoding])).consume hu).of_operands q u.litb v c
    obtain ⟨_, _, _, _, rfl⟩ := consume_frame hu
    refine engineInv_of_decoding hb (by simp [hp]) hframe rfl h.omem_wf ?_ hdec ?_
    · rcases hq with rfl | ⟨rfl, _⟩ <;> rfl
    · rcases hq with rfl | ⟨rfl, hv⟩
      · simp
      · exact fun _ => hv
  | finish hp u hu =>
    obtain ⟨m, rfl, hwf, _⟩ := flush_omem h.omem_wf hu
    exact BaseInv.engineInv_of_not_inCall
      (hb.of_frame (by simp [hp]) (by simp) rfl hwf rfl rfl) rfl
  | emitLit hp u hu =>
    have hdec := ((h.decode (by simp [hp, decoding])).emit h.omem_wf hu).of_operands .readSymbol u.litb
      u.sym u.rem
    have hwf := emit_keeps_wf h.omem_wf hu
    obtain ⟨_, _, rfl⟩ := emit_frame hu
    exact engineInv_of_decoding hb (by simp [hp]) hframe rfl hwf rfl hdec (by simp)
  | emitByte hp b u hu =>
    have hpd : decoding s.phase = true := by rcases hp with hp | hp <;> simp [hp, decoding]
    have hdec := ((h.decode hpd).emit h.omem_wf hu).of_operands u.phase u.litb u.sym (s.rem - 1)
    have hwf := emit_keeps_wf h.omem_wf hu
    obtain ⟨_, _, rfl⟩ := emit_frame hu
    exact engineInv_of_decoding hb (by rcases hp with hp | hp <;> simp [hp]) hframe rfl hwf hpd hdec
      h.copy_sym
  | leave hp =>
    have hpd : decoding s.phase = true := by rcases hp with hp | hp <;> simp [hp, decoding]
    exact engineInv_of_decoding hb (by rcases hp with hp | hp <;> simp [hp]) hframe rfl h.omem_wf rfl
      ((h.decode hpd).of_operands .readSymbol s.litb s.sym s.rem) (by simp)

/-- The invariant says nothing of the host's moves and of what its reads return. -/
theorem EngineInv.of_hostSide {s : State} (h : EngineInv s) (ms : List HostMove) (v : Word) (k : Nat) :
    EngineInv { s with hostMoves := ms, hostData := v, freeIdx := k } := by
  have hcall (hc : CallInv s) : CallInv { s with hostMoves := ms, hostData := v, freeIdx := k } :=
    ⟨hc.words_ge, hc.words_eq, hc.fits_in, hc.size_eq, hc.fits_out⟩
  have hbase : BaseInv { s with hostMoves := ms, hostData := v, freeIdx := k } :=
    ⟨h.imem_wf, h.omem_wf, h.no_error, h.error_code, h.no_stores⟩
  refine hbase.engineInv (fun hp => hcall (h.call (.inl hp))) (fun hd => ?_) h.copy_sym
  have hdec := h.decode hd
  exact ⟨hcall hdec.call, hdec.window.congr rfl rfl rfl rfl rfl rfl,
    ⟨hdec.lanes.wridx_le, hdec.lanes.free_lanes, hdec.lanes.omem_zero⟩, hdec.last_byte⟩

/-- A store of the host while the engine is not busy keeps the invariant, if the memory stored is
canonical (R203, log 23). -/
theorem EngineInv.storeMem {s : State} (h : EngineInv s) (hb : s.busy = false) (sp : Space)
    (a width : Nat) {m : Memory} (wf : m.wf = true) : EngineInv (storeMem sp a width m s) := by
  have hq := not_inCall_of_not_busy hb
  rcases storeMem_cases sp a width m s with ⟨_, ht⟩ | ⟨_, l, hl, _, ht⟩ <;> rw [ht]
  · exact BaseInv.engineInv_of_not_inCall
      ⟨wf, h.omem_wf, h.no_error, h.error_code, h.no_stores⟩ hq
  · refine BaseInv.engineInv_of_not_inCall
      ⟨h.imem_wf, wf, h.no_error, h.error_code, fun hp => ?_⟩ hq
    exact (hl (by simpa [State.failed] using hp)).trans (h.no_stores hp)

theorem EngineInv.memOf_wf {s : State} (h : EngineInv s) (sp : Space) : (memOf sp s).wf = true := by
  cases sp with
  | imem => exact h.imem_wf
  | omem => exact h.omem_wf

/-- Hardware reset establishes the invariant in any state (R250, logs 2, 3 and 18). -/
theorem engineInv_hardwareReset (s : State) : EngineInv (hardwareReset s) :=
  BaseInv.engineInv_of_not_inCall
    ⟨rfl, rfl, fun _ => rfl, fun hp => (nomatch hp), fun _ => rfl⟩ rfl

/-- Every move of the host keeps the invariant. -/
theorem hostMove_keeps_engineInv {m : HostMove} {s t : State} (h : EngineInv s)
    (hm : hostMove m s = .next t) : EngineInv t := by
  obtain rfl | ⟨hb, rfl⟩ | ⟨hb, v, rfl⟩ | ⟨v, k, rfl⟩ | rfl | ⟨hb, sp, a, b, rfl⟩ | ⟨hb, sp, a, v, rfl⟩ :=
    hostMove_next hm
  · exact h
  · exact BaseInv.engineInv_of_not_inCall
      ⟨h.imem_wf, h.omem_wf, fun _ => rfl, fun hp => (nomatch hp), fun _ => rfl⟩ rfl
  · exact BaseInv.engineInv_of_not_inCall
      ⟨h.imem_wf, h.omem_wf, h.no_error, h.error_code, h.no_stores⟩ (not_inCall_of_not_busy hb)
  · exact h.of_hostSide s.hostMoves v k
  · exact engineInv_hardwareReset s
  · exact h.storeMem hb sp a 1 (Memory.wf_write (h.memOf_wf sp) a b)
  · exact h.storeMem hb sp a 4 (Memory.wf_writeWord (h.memOf_wf sp) a v)

/-- Settles O32: a step is a move of the engine or of the host, and each keeps the invariant. -/
theorem stepKeepsEngineInv : Obligations.StepKeepsEngineInv := by
  intro s t h hstep
  obtain ⟨_, he⟩ | ⟨rest, _, he⟩ | ⟨m, rest, _, _, hh⟩ := step_cases s
  · exact (engineStep_move (he.symm.trans hstep)).keeps_engineInv h
  · exact (engineStep_move (he.symm.trans hstep)).keeps_engineInv (h.of_hostSide rest s.hostData s.freeIdx)
  · exact hostMove_keeps_engineInv (h.of_hostSide rest s.hostData s.freeIdx) (hh.symm.trans hstep)

/-- Settles O30: at reset the engine is `IDLE`, outside any call. -/
theorem resetMeetsEngineInv : Obligations.ResetMeetsEngineInv :=
  engineInv_hardwareReset State.reset

end Sys2Proof.Safety

/-! ## The engine never faults from the invariant -/

namespace Sys2Proof.Safety

open Sys2Proof.Machine

/-- An operation ends in a value or in an exception of the spec: no fault, no refusal. -/
def Completes {α : Type} (x : Except Stop α) : Prop :=
  (∃ a, x = .ok a) ∨ ∃ e, x = .error (.raised e)

theorem completes_ok {α : Type} (a : α) : Completes (.ok a : Except Stop α) := .inl ⟨a, rfl⟩

theorem completes_raiseCorrupt {α : Type} (d : CorruptDetail) :
    Completes (raiseCorrupt d : Except Stop α) := .inr ⟨_, rfl⟩

/-- A sequence completes if its parts do. -/
theorem Completes.bind {α β : Type} {x : Except Stop α} {f : α → Except Stop β} (h : Completes x)
    (hf : ∀ a, x = .ok a → Completes (f a)) : Completes (x >>= f) := by
  rcases h with ⟨a, rfl⟩ | ⟨e, rfl⟩
  · exact hf a rfl
  · exact .inr ⟨e, rfl⟩

/-- A step whose operation completes answers a next state: its effect, or trap entry (R226). -/
theorem Completes.settle {r : Except Stop State} (h : Completes r) (s : State) :
    ∃ t, settle s r = .next t := by
  rcases h with ⟨a, rfl⟩ | ⟨e, rfl⟩
  · exact ⟨a, rfl⟩
  · exact ⟨_, rfl⟩

/-- `Consume` of a symbol's length reads no word beyond the container (R69, R123). -/
theorem consume_completes {s : State} {len : Nat} (hc : CallInv s) (h1 : 1 ≤ len) (h2 : len ≤ 32) :
    Completes (consume len s) := by
  by_cases hcnt : len ≤ s.cnt.toNat
  · rw [consume_slide h1 h2 hcnt]
    exact completes_ok _
  by_cases hn : s.n.toNat ≤ s.rdcur.toNat + 1
  · rw [consume_overrun h1 h2 (by omega) hn]
    exact completes_raiseCorrupt _
  · have hin : 4 * s.rdcur.toNat + 3 < s.par.inCap := by
      have := hc.words_eq
      have := hc.fits_in
      omega
    rw [consume_refill h1 h2 (by omega) (by omega) hin]
    exact completes_ok _

/-- `Emit` writes no byte beyond `OSIZE` (R69, R171). -/
theorem emit_completes {s : State} (hc : s.osize.toNat ≤ s.par.outCap) (b : Byte) :
    Completes (emit b s) := by
  by_cases ho : s.osize.toNat ≤ s.wridx.toNat
  · rw [emit_overrun ho]
    exact completes_raiseCorrupt _
  · exact .inl (emit_ok (by omega) hc)

/-- `Flush` writes no byte beyond `WRIDX` (R174). -/
theorem flush_completes {s : State} (h : s.wridx.toNat ≤ s.par.outCap) : Completes (flush s) := by
  rcases flush_cases s with ⟨_, hf⟩ | ⟨_, _, hf⟩ | ⟨_, hlt, _⟩
  · exact hf ▸ completes_ok _
  · exact hf ▸ completes_ok _
  · omega

/-- The write index stays within OMEM (R26, R65). -/
theorem DecodeInv.wridx_le_outCap {s : State} (h : DecodeInv s) : s.wridx.toNat ≤ s.par.outCap :=
  h.lanes.wridx_le.trans h.call.fits_out

theorem readCoded_completes {s : State} (h : CallInv s) (hw : wfTable s.par.table = true) (p : BitVec 2)
    (xa : Word) (sr : BitVec 4) (xb : Word) (q : Phase) : Completes (readCoded p xa sr xb q s) := by
  have hlen := codedLength_bounds hw p sr
  exact (consume_completes h (by omega) hlen.2).bind fun _ _ => completes_ok _

/-- Every symbol's arm answers a next state (R152). -/
theorem exec_answers {s : State} (h : DecodeInv s) (hw : wfTable s.par.table = true) (i : Instr) :
    ∃ t, exec i s = .next t := by
  cases i with
  | lit b =>
    exact ((consume_completes h.call (by omega) (by omega)).bind fun _ _ => completes_ok _).settle s
  | run p xa sr xb => exact (readCoded_completes h.call hw p xa sr xb _).settle s
  | copy p xa sr xb => exact (readCoded_completes h.call hw p xa sr xb _).settle s
  | endSym p xa sr xb =>
    exact ((flush_completes h.wridx_le_outCap).bind fun _ _ => completes_ok _).settle s

/-- Under `WF_TABLE` the `READ_SYMBOL` step answers a next state (R152). -/
theorem readSymbolStep_answers {s : State} (h : DecodeInv s) (hw : wfTable s.par.table = true) :
    ∃ t, readSymbolStep s = .next t := by
  obtain ⟨i, hi⟩ := decode_ok hw s.cur
  unfold readSymbolStep peek
  rw [hi]
  exact exec_answers h hw i

theorem emitLiteralStep_answers {s : State} (h : DecodeInv s) : ∃ t, emitLiteralStep s = .next t :=
  ((emit_completes h.call.fits_out s.litb).bind fun _ _ => completes_ok _).settle s

theorem emitRunStep_answers {s : State} (h : DecodeInv s) : ∃ t, emitRunStep s = .next t := by
  have hbyte : Completes (emitRunByte s) := by
    unfold emitRunByte
    split
    · exact completes_raiseCorrupt _
    · exact (emit_completes h.call.fits_out _).bind fun _ _ => completes_ok _
  unfold emitRunStep
  split
  · exact ⟨_, rfl⟩
  · exact hbyte.settle s

/-- `EMIT_COPY` reads a byte already emitted, since `SYM` is at least 1 (R29, R177). -/
theorem emitCopyStep_answers {s : State} (h : DecodeInv s) (hsym : 1 ≤ s.sym.toNat) :
    ∃ t, emitCopyStep s = .next t := by
  have hbyte : Completes (emitCopyByte s) := by
    unfold emitCopyByte
    split
    · exact completes_raiseCorrupt _
    · rw [outRead_eq (by omega) h.wridx_le_outCap, ok_bind]
      exact (emit_completes h.call.fits_out _).bind fun _ _ => completes_ok _
  unfold emitCopyStep
  split
  · exact ⟨_, rfl⟩
  · exact hbyte.settle s

/-- Within the container's call `PREPARE` answers a next state (R194). -/
theorem prepareStep_answers {s : State} (h : CallInv s) : ∃ t, prepareStep s = .next t := by
  have hin : 19 < s.par.inCap := by
    have := h.words_ge
    have := h.words_eq
    have := h.fits_in
    omega
  unfold prepareStep zeroFillOutput
  rw [if_pos h.fits_out, ok_bind, initWindow_eq hin, ok_bind]
  exact ⟨_, rfl⟩

/-- All that `VALIDATE` can answer besides a next state: the two refusals (R66, log 12). -/
theorem validateStep_answers (s : State) :
    (∃ t, validateStep s = .next t) ∨
      (s.par.inCap < s.inLen.toNat ∧ validateStep s = .refused .containerExceedsInCap) ∨
      (s.par.outCap < (s.imem.readWord 8).toNat ∧ validateStep s = .refused .outputExceedsOutCap) := by
  unfold validateStep
  by_cases hin : s.par.inCap < s.inLen.toNat
  · rw [if_pos hin]
    exact .inr (.inl ⟨hin, rfl⟩)
  rw [if_neg hin]
  by_cases h4 : s.inLen.toNat % 4 ≠ 0
  · rw [if_pos h4]
    exact .inl ⟨_, rfl⟩
  rw [if_neg h4]
  unfold validateWords wordCount
  by_cases h5 : s.inLen.toNat / 4 ≤ 5
  · rw [if_pos h5]
    exact .inl ⟨_, rfl⟩
  rw [if_neg h5, inWord_eq (by omega), inWord_eq (by omega), inWord_eq (by omega)]
  simp only [ok_bind]
  split
  · exact .inl ⟨_, rfl⟩
  split
  · exact .inl ⟨_, rfl⟩
  split
  · exact .inr (.inr ⟨by assumption, rfl⟩)
  · exact .inl ⟨_, rfl⟩

/-- With a good table every engine step outside `VALIDATE` answers a next state. -/
theorem engineStep_answers {s : State} (h : EngineInv s) (hw : wfTable s.par.table = true)
    (hv : s.phase ≠ .validate) : ∃ t, engineStep s = .next t := by
  unfold engineStep
  split <;> rename_i hp
  case h_1 | h_8 | h_9 => exact ⟨s, rfl⟩
  case h_2 => exact absurd hp hv
  case h_3 => exact withGoodTable_eq hw _ ▸ prepareStep_answers (h.call (.inl hp))
  all_goals
    have hdec := h.decode (by rw [hp]; rfl)
    rw [withGoodTable_eq hw]
  case h_4 => exact readSymbolStep_answers hdec hw
  case h_5 => exact emitLiteralStep_answers hdec
  case h_6 => exact emitRunStep_answers hdec
  case h_7 => exact emitCopyStep_answers hdec (h.copy_sym hp).1

/-- All that an engine step can answer from the invariant: a next state, or one of the three refusals. -/
theorem engineStep_total {s : State} (h : EngineInv s) :
    (∃ t, engineStep s = .next t) ∨
      (wfTable s.par.table = false ∧ engineStep s = .refused .tableNotWellFormed) ∨
      (s.phase = .validate ∧ s.par.inCap < s.inLen.toNat ∧
        engineStep s = .refused .containerExceedsInCap) ∨
      (s.phase = .validate ∧ s.par.outCap < (s.imem.readWord 8).toNat ∧
        engineStep s = .refused .outputExceedsOutCap) := by
  by_cases hw : wfTable s.par.table = true
  · by_cases hv : s.phase = .validate
    · have he : engineStep s = validateStep s := by
        unfold engineStep
        rw [hv]
        exact withGoodTable_eq hw _
      rw [he]
      rcases validateStep_answers s with ht | ⟨hin, hr⟩ | ⟨hout, hr⟩
      · exact .inl ht
      · exact .inr (.inr (.inl ⟨hv, hin, hr⟩))
      · exact .inr (.inr (.inr ⟨hv, hout, hr⟩))
    · exact .inl (engineStep_answers h hw hv)
  · have hbad (o : Host.Outcome State Fault Refusal) :
        withGoodTable s o = .refused .tableNotWellFormed := if_neg hw
    unfold engineStep
    split
    case h_1 | h_8 | h_9 => exact .inl ⟨s, rfl⟩
    all_goals exact .inr (.inl ⟨by simpa using hw, hbad _⟩)

/-- Settles O33, by what an engine step can answer from the invariant. -/
theorem engineNeverFaults : Obligations.EngineNeverFaults := by
  intro s h hm
  rw [step_engine hm]
  obtain ⟨t, he⟩ | ⟨hw, he⟩ | ⟨hp, hin, he⟩ | ⟨hp, hout, he⟩ := engineStep_total h <;> rw [he]
  · exact ⟨fun f hf => (nomatch hf), fun r hr => (nomatch hr)⟩
  · refine ⟨fun f hf => (nomatch hf), fun r hr => ?_⟩
    exact .inl ⟨(Host.Outcome.refused.inj hr).symm, hw⟩
  · refine ⟨fun f hf => (nomatch hf), fun r hr => ?_⟩
    exact .inr (.inl ⟨(Host.Outcome.refused.inj hr).symm, hp, hin⟩)
  · refine ⟨fun f hf => (nomatch hf), fun r hr => ?_⟩
    exact .inr (.inr ⟨(Host.Outcome.refused.inj hr).symm, hp, hout⟩)

end Sys2Proof.Safety

/-! ## What the engine does not write, and the parameters -/

namespace Sys2Proof.Safety

open Sys2Proof.Machine

/-- `Emit` writes no byte of OMEM at `OSIZE` or above (R171, R223). -/
theorem emit_keeps_above {s t : State} {b : Byte} (wf : s.omem.wf = true) (hu : emit b s = .ok t)
    {a : Nat} (ha : s.osize.toNat ≤ a) : t.omem.read a = s.omem.read a := by
  obtain ⟨_, _, _, hlt⟩ := emit_wridx hu
  obtain ⟨_, m, hem, rfl⟩ := emitted_of_emit wf hu
  exact (hem.omem a).trans (if_neg (by omega))

/-- No engine step writes a byte of OMEM at `OSIZE` or above (R69). -/
theorem EngineMove.keeps_above {s t : State} (h : EngineInv s) (hm : EngineMove s t) {a : Nat}
    (ha : s.osize.toNat ≤ a) : t.omem.read a = s.omem.read a := by
  cases hm with
  | stay | trap | latch | leave => rfl
  | prepare => exact (Memory.read_zeroFill s.omem _ a).trans (if_neg (by omega))
  | lit _ b u hu | coded _ _ _ _ _ u hu =>
    obtain ⟨_, _, _, _, rfl⟩ := consume_frame hu
    rfl
  | finish hp u hu =>
    have := (h.lanes (by simp [hp, decoding])).wridx_le
    obtain ⟨m, rfl, _, hread⟩ := flush_omem h.omem_wf hu
    exact (hread a).trans (if_neg (by omega))
  | emitLit _ u hu | emitByte _ b u hu => exact emit_keeps_above h.omem_wf hu ha

/-- Settles O34, by the frame of the engine's moves and the bound of each on OMEM. -/
theorem engineStaysInBuffer : Obligations.EngineStaysInBuffer := by
  intro s t h hmoves hstep
  have hm := engineStep_move (step_engine hmoves ▸ hstep)
  have hf := hm.frame
  exact ⟨hf.imem, hf.inLen, hf.par, hf.hostMoves.trans hmoves, hf.hostData, hf.freeIdx, hf.errStores,
    fun _ ha => hm.keeps_above h ha⟩

theorem storeMem_par (sp : Space) (a width : Nat) (m : Memory) (s : State) :
    (storeMem sp a width m s).par = s.par := by
  cases sp <;> rfl

/-- No move of the host changes the parameters. -/
theorem hostMove_par {m : HostMove} {s t : State} (h : hostMove m s = .next t) : t.par = s.par := by
  obtain rfl | ⟨_, rfl⟩ | ⟨_, v, rfl⟩ | ⟨v, k, rfl⟩ | rfl | ⟨_, sp, a, b, rfl⟩ | ⟨_, sp, a, v, rfl⟩ :=
    hostMove_next h
  iterate 5 rfl
  · exact storeMem_par sp a 1 _ s
  · exact storeMem_par sp a 4 _ s

/-- Settles O36: a step is a move of the engine or of the host, and neither changes the parameters. -/
theorem parametersNeverChange : Obligations.ParametersNeverChange := by
  intro s t hstep
  obtain ⟨_, he⟩ | ⟨rest, _, he⟩ | ⟨m, rest, _, _, hh⟩ := step_cases s
  · have hm := engineStep_move (he.symm.trans hstep)
    exact hm.frame.par
  · have hm := engineStep_move (he.symm.trans hstep)
    exact hm.frame.par
  · have hpar := hostMove_par (hh.symm.trans hstep)
    exact hpar

end Sys2Proof.Safety

/-! ## The Code Table's cells (R42) -/

namespace Sys2Proof

/-- R42: the tables agree on every cell a decode may read. -/
structure ListedCellsAgree (t t' : CodeTable) : Prop where
  lenA (p : BitVec 2) : tab t (primaryRow p) 0 = tab t' (primaryRow p) 0
  baseCount (p : BitVec 2) : tab t (primaryRow p) 2 = tab t' (primaryRow p) 2
  lenB (sr : BitVec 4) : tab t (secondaryRow sr) 0 = tab t' (secondaryRow sr) 0
  lengthAdjust (sr : BitVec 4) : tab t (secondaryRow sr) 1 = tab t' (secondaryRow sr) 1
  baseSym (sr : BitVec 4) : tab t (secondaryRow sr) 2 = tab t' (secondaryRow sr) 2

namespace ListedCellsAgree

variable {t t' : CodeTable} (h : ListedCellsAgree t t')
include h

theorem codeLenA_eq (p : BitVec 2) : codeLenA t p = codeLenA t' p :=
  congrArg BitVec.toNat (h.lenA p)

theorem codeLenB_eq (sr : BitVec 4) : codeLenB t sr = codeLenB t' sr :=
  congrArg BitVec.toNat (h.lenB sr)

theorem codedLength_eq (p : BitVec 2) (sr : BitVec 4) : codedLength t p sr = codedLength t' p sr := by
  unfold codedLength
  rw [h.codeLenA_eq, h.codeLenB_eq]

theorem symValue_eq (sr : BitVec 4) (xb : Word) : symValue t sr xb = symValue t' sr xb :=
  congrArg (· + xb) (h.baseSym sr)

theorem repeatCount_eq (p : BitVec 2) (xa : Word) (sr : BitVec 4) :
    repeatCount t p xa sr = repeatCount t' p xa sr := by
  unfold repeatCount
  rw [h.baseCount, h.lengthAdjust]

theorem classify_eq (p : BitVec 2) (xa : Word) (sr : BitVec 4) (xb : Word) :
    classify t p xa sr xb = classify t' p xa sr xb := by
  unfold classify
  rw [h.symValue_eq]

theorem decode_eq (w : Word) : decode t w = decode t' w := by
  unfold decode
  simp only [h.codeLenA_eq, h.codeLenB_eq, h.codedLength_eq, h.classify_eq]

end ListedCellsAgree

/-- Settles O5: each field of a decode is a function of the listed cells. -/
theorem decodeReadsListedCells : Obligations.DecodeReadsListedCells := by
  intro t t' w hprimary hsecondary
  have h : ListedCellsAgree t t' := {
    lenA := fun p => (hprimary p).1
    baseCount := fun p => (hprimary p).2
    lenB := fun sr => (hsecondary sr).1
    lengthAdjust := fun sr => (hsecondary sr).2.1
    baseSym := fun sr => (hsecondary sr).2.2 }
  exact ⟨h.decode_eq w, fun p xa sr xb =>
    ⟨h.codedLength_eq p sr, h.symValue_eq sr xb, h.repeatCount_eq p xa sr⟩⟩

end Sys2Proof

/-! ## The registers the host sees (R32 to R38) -/

namespace Sys2Proof.Machine

/-- `ERRCODE.CLASS` of a taken exception is its class (R38, R226). -/
theorem errClass_code (e : Exc) : (errClass e.code).toNat = e.classCode.toNat := by
  rcases e with d | d <;> cases d <;> rfl

/-- `ERRCODE.DETAIL` of a taken exception is its detail (R38, R226). -/
theorem errDetail_code (e : Exc) : (errDetail e.code).toNat = e.detailCode.toNat := by
  rcases e with d | d <;> cases d <;> rfl

/-- Settles O29, exception by exception. -/
theorem errorCodes : Obligations.ErrorCodes :=
  ⟨rfl, rfl, rfl, rfl, rfl, rfl, rfl, rfl, fun e => ⟨errClass_code e, errDetail_code e⟩⟩

/-- Settles O31: the reset state holds these values. -/
theorem resetRegisters : Obligations.ResetRegisters := ⟨rfl, rfl, rfl, rfl⟩

theorem busy_iff (s : State) :
    s.busy = true ↔ s.phase = .validate ∨ s.phase = .prepare ∨ s.phase = .readSymbol ∨
      s.phase = .emitLiteral ∨ s.phase = .emitRun ∨ s.phase = .emitCopy := by
  unfold State.busy
  cases s.phase <;> simp [Phase.busy]

theorem done_iff (s : State) : s.done = true ↔ s.phase = .terminate := decide_eq_true_iff

theorem failed_iff (s : State) : s.failed = true ↔ s.phase = .error := decide_eq_true_iff

theorem mismatch_iff (s : State) : s.mismatch = true ↔ s.phase = .terminate ∧ s.wridx ≠ s.osize := by
  unfold State.mismatch
  rw [Bool.and_eq_true, done_iff, decide_eq_true_iff]

/-- `STATUS` as a number: its flags and its `PHASE` field by their weights (R34). -/
theorem status_toNat (s : State) :
    s.status.toNat = (if s.busy then 1 else 0) + (if s.done then 2 else 0) + (if s.failed then 4 else 0) +
      (if s.mismatch then 8 else 0) + 16 * s.phase.bits.toNat := by
  unfold State.status
  generalize s.phase.bits = p, s.busy = b, s.done = d, s.failed = f, s.mismatch = m
  revert p b d f m
  decide

/-- Settles O40, by the weights of the flags in `STATUS` and one `↔` for each flag. -/
theorem statusFollowsPhase : Obligations.StatusFollowsPhase := by
  intro s
  refine ⟨?_, busy_iff s, done_iff s, failed_iff s, mismatch_iff s, ?_, ?_, ?_, ?_⟩
  · rw [status_toNat]
    cases s.phase <;> rfl
  all_goals
    simp only [← Bool.not_eq_true, busy_iff, done_iff, failed_iff]
    cases s.phase <;> simp

/-- A pending access of the host is the step. -/
theorem step_host {s : State} {m : HostMove} {rest : List HostMove} (h : s.hostMoves = m :: rest)
    (hm : m ≠ .wait) : step s = hostMove m (s.setHostMoves rest) := by
  obtain ⟨h', _⟩ | ⟨_, h', _⟩ | ⟨m', rest', _, h', hstep⟩ := step_cases s <;> rw [h] at h'
  · exact nomatch h'
  · exact absurd (List.cons.inj h').1 hm
  · obtain ⟨rfl, rfl⟩ := List.cons.inj h'
    exact hstep

/-- The step that writes a register of the six (R32). -/
theorem step_writeReg {s : State} {no : Nat} {v : Word} {rest : List HostMove} {r : HostReg}
    (h : s.hostMoves = .writeReg no v :: rest) (hr : hostReg? no = some r) :
    step s = .next (writeReg r v (s.setHostMoves rest)) := by
  rw [step_host h (by simp)]
  unfold hostMove
  simp only [hr]

/-- The step that reads a register of the six where the spec gives its value (R33 to R38). -/
theorem step_readReg {s : State} {no : Nat} {rest : List HostMove} {r : HostReg}
    (h : s.hostMoves = .readReg no :: rest) (hr : hostReg? no = some r) (hs : readSpecified r s = true) :
    step s = .next { s with hostData := regView r s, hostMoves := rest } := by
  have hread : readReg r (s.setHostMoves rest) = returnData (regView r s) (s.setHostMoves rest) := by
    unfold readReg
    cases r <;> exact if_pos hs
  rw [step_host h (by simp)]
  unfold hostMove
  simp only [hr, hread]
  rfl

/-- Settles O41. The host's move is taken off the list first, which leaves `BUSY` as it is. -/
theorem inLenWrite : Obligations.InLenWrite := by
  intro s v rest h
  rw [step_writeReg h (r := .inLen) rfl]
  by_cases hb : s.busy = true
  · rw [if_pos hb]
    exact congrArg Host.Outcome.next (if_pos hb)
  · rw [if_neg hb]
    exact congrArg Host.Outcome.next (if_neg hb)

/-- Settles O42: in each case the spec gives the value, so the read returns the register's view. -/
theorem resultRegisterReads : Obligations.ResultRegisterReads := by
  intro s rest
  refine ⟨fun h => step_readReg h (r := .status) rfl rfl,
    fun h hb => step_readReg h (r := .ctrl) rfl (by simp [readSpecified, hb]),
    fun h hb => step_readReg h (r := .inLen) rfl (by simp [readSpecified, hb]),
    fun h hp => step_readReg h (r := .outSize) rfl ?_,
    fun h hp => step_readReg h (r := .outLen) rfl ((done_iff s).mpr hp),
    fun h hb => step_readReg h (r := .errcode) rfl (by simp [readSpecified, hb])⟩
  rcases hp with hp | ⟨hp, hclass⟩
  · simp [readSpecified, (done_iff s).mpr hp]
  · simp [readSpecified, (failed_iff s).mpr hp, errClass, hclass]

/-- The six registers of R32 are all there are. -/
theorem hostReg?_eq_none {no : Nat} (h : 6 ≤ no) : hostReg? no = none := by
  obtain ⟨k, rfl⟩ := Nat.exists_eq_add_of_le' h
  rfl

/-- Settles O48: four numbers name read-only registers, six and more name none. -/
theorem otherRegisterNumbers : Obligations.OtherRegisterNumbers := by
  intro s no v rest
  constructor
  · rintro h (rfl | rfl | rfl | rfl)
    · exact step_writeReg h (r := .status) rfl
    · exact step_writeReg h (r := .outSize) rfl
    · exact step_writeReg h (r := .outLen) rfl
    · exact step_writeReg h (r := .errcode) rfl
  · rintro (h | h) hno <;>
      · rw [step_host h (by simp)]
        simp only [hostMove, hostReg?_eq_none hno]

end Sys2Proof.Machine

/-! ## The memories the host sees (R61, R62, R203) -/

namespace Sys2Proof.Machine

/-- R61: a word is its four bytes by their weights, byte 0 lowest. -/
theorem toNat_eq_bytes (v : Word) :
    v.toNat = (byteOf v 0).toNat + 256 * (byteOf v 1).toNat + 65536 * (byteOf v 2).toNat +
      16777216 * (byteOf v 3).toNat := by
  simp only [byteOf, BitVec.extractLsb'_toNat, Nat.shiftRight_eq_div_pow]
  omega

/-- R61: the word at `a` as a number, the byte at `a` lowest. -/
theorem Memory.toNat_readWord (m : Memory) (a : Nat) :
    (m.readWord a).toNat = (m.read a).toNat + 256 * (m.read (a + 1)).toNat +
      65536 * (m.read (a + 2)).toNat + 16777216 * (m.read (a + 3)).toNat := by
  have hbytes := toNat_eq_bytes (m.readWord a)
  rwa [byteOf_readWord m a 0 (by omega), byteOf_readWord m a 1 (by omega), byteOf_readWord m a 2 (by omega),
    byteOf_readWord m a 3 (by omega), Nat.add_zero] at hbytes

/-- A word write leaves every byte outside the word as it was. -/
theorem Memory.read_writeWord_outside {m : Memory} (w : m.wf = true) (a : Nat) (v : Word) {c : Nat}
    (hc : c < a ∨ a + 4 ≤ c) : (m.writeWord a v).read c = m.read c := by
  rw [Memory.writeWord, Memory.read_writeMasked w, if_neg (by omega)]

/-- R61: a word stored to IMEM is what the engine reads there. -/
theorem inWord_writeWord {s : State} {i : Nat} {v : Word} (w : s.imem.wf = true)
    (hc : 4 * i + 4 ≤ s.par.inCap) : inWord (s.setImem (s.imem.writeWord (4 * i) v)) i = .ok v := by
  rw [inWord_eq (by rw [State.setImem_par]; omega), State.setImem_imem, Memory.readWord_writeWord w]

/-- An access of existing bytes completes while the engine is not busy. -/
theorem hostAccess_ok {sp : Space} {a width : Nat} {s : State} (t : State) (hb : s.busy = false)
    (hc : a + width ≤ capOf sp s) : hostAccess sp a width s t = .next t := by
  unfold hostAccess
  simp [hb, hc]

/-- The step that writes a word of a memory. -/
theorem step_writeWord {s : State} {sp : Space} {i : Nat} {v : Word} {rest : List HostMove}
    (h : s.hostMoves = .writeWord sp i v :: rest) (hb : s.busy = false) (hc : 4 * i + 4 ≤ capOf sp s) :
    step s = .next (storeMem sp (4 * i) 4 ((memOf sp s).writeWord (4 * i) v) (s.setHostMoves rest)) := by
  rw [step_host h (by simp)]
  cases sp <;> exact hostAccess_ok _ hb hc

/-- The step that reads a word of a memory whose four bytes the spec does not leave open. -/
theorem step_readWord {s : State} {sp : Space} {i : Nat} {rest : List HostMove}
    (h : s.hostMoves = .readWord sp i :: rest) (hb : s.busy = false) (hc : 4 * i + 4 ≤ capOf sp s)
    (hopen : ∀ k < 4, byteIsOpen sp (4 * i + k) s = false) :
    step s = .next (returnData ((memOf sp s).readWord (4 * i)) (s.setHostMoves rest)) := by
  have hread : readMemWord sp (4 * i) (s.setHostMoves rest) =
      returnData ((memOf sp s).readWord (4 * i)) (s.setHostMoves rest) := by
    cases sp <;> exact readMemWord_stands hopen
  rw [step_host h (by simp), ← hread]
  cases sp <;> exact hostAccess_ok _ hb hc

section
variable (sp : Space) (a width : Nat) (m : Memory) (s : State)

@[simp] theorem storeMem_busy : (storeMem sp a width m s).busy = s.busy := by
  cases sp <;> rfl

@[simp] theorem storeMem_hostMoves : (storeMem sp a width m s).hostMoves = s.hostMoves := by
  cases sp <;> rfl

@[simp] theorem capOf_storeMem : capOf sp (storeMem sp a width m s) = capOf sp s := by
  cases sp <;> rfl

@[simp] theorem memOf_storeMem : memOf sp (storeMem sp a width m s) = m := by
  cases sp <;> rfl

theorem setHostMoves_storeMem (ms : List HostMove) :
    (storeMem sp a width m s).setHostMoves ms = storeMem sp a width m (s.setHostMoves ms) := by
  cases sp <;> rfl

/-- R203: a byte the host has stored reads as it stands, in `ERROR` because its address is noted. -/
theorem byteIsOpen_storeMem {k : Nat} (hk : k < width) :
    byteIsOpen sp (a + k) (storeMem sp a width m s) = false := by
  obtain ⟨rfl, _⟩ | ⟨rfl, l, _, hl, ht⟩ := storeMem_cases sp a width m s
  · rfl
  · rw [ht, ← Bool.not_eq_true, byteIsOpen_iff]
    rintro ⟨-, hfailed, hnot⟩
    exact hnot ((hl (a + k)).mpr (.inl ⟨hfailed, by omega⟩))

end

/-- A word the host writes to either memory and reads back, in two steps: the store, then the read that
returns the value written. -/
theorem runs_writeWord_readWord {s : State} {sp : Space} {i : Nat} {v : Word} (w : (memOf sp s).wf = true)
    (hb : s.busy = false) (h : s.hostMoves = [.writeWord sp i v, .readWord sp i])
    (hc : 4 * i + 4 ≤ capOf sp s) :
    Safety.runs 2 s (returnData v
      (storeMem sp (4 * i) 4 ((memOf sp s).writeWord (4 * i) v) (s.setHostMoves []))) := by
  refine ⟨_, step_writeWord h hb hc, _, step_readWord (rest := []) (storeMem_hostMoves ..) ?_ ?_
    (fun k => byteIsOpen_storeMem sp (4 * i) 4 _ _), ?_⟩
  · rw [storeMem_busy]
    exact hb
  · rw [capOf_storeMem]
    cases sp <;> exact hc
  · rw [memOf_storeMem, Memory.readWord_writeWord w, setHostMoves_storeMem]
    rfl

/-- Settles O43: the memory is the one `writeWord` leaves. The read returns the word because the host has
stored each of its bytes. -/
theorem hostWordIsLittleEndian : Obligations.HostWordIsLittleEndian := by
  intro s sp i v wi wo hb h hc
  have w : (memOf sp s).wf = true := by
    cases sp
    · exact wi
    · exact wo
  have hcap : 4 * i + 4 ≤ capOf sp s := by cases sp <;> exact hc
  have hruns := runs_writeWord_readWord w hb h hcap
  have houtside (c : Nat) := Memory.read_writeWord_outside w (4 * i) v (c := c)
  refine ⟨(memOf sp s).writeWord (4 * i) v, Memory.wf_writeWord w _ _, ?_, ?_⟩
  · rw [← Memory.toNat_readWord, Memory.readWord_writeWord w]
  · cases sp with
    | imem =>
      exact ⟨hruns, inWord_writeWord wi hcap, houtside⟩
    | omem =>
      obtain ⟨hsp, _⟩ | ⟨_, l, hstays, hnoted, hstore⟩ := storeMem_cases .omem (4 * i) 4
        (s.omem.writeWord (4 * i) v) (s.setHostMoves [])
      · exact nomatch hsp
      · rw [memOf, hstore] at hruns
        refine ⟨l, hruns, fun hp => hstays ?_, fun x => ?_, houtside⟩
        · rw [← Bool.not_eq_true, failed_iff]
          exact hp
        · rw [hnoted x, failed_iff]
          rfl

end Sys2Proof.Machine

/-! ## The fields of a window and the number of a symbol (R92, R93, R95) -/

namespace Sys2Proof

section

variable {t : CodeTable} {w : Word} {p : BitVec 2} {xa : Word} {s : BitVec 4} {xb : Word} {i : Instr}

/-! ### A field and its bits -/

/-- `Field(lo, w)` as an integer (R122). -/
theorem toNat_field (w : Word) (lo width : Nat) :
    (field w lo width).toNat = w.toNat / 2 ^ lo % 2 ^ width := by
  refine Nat.eq_of_testBit_eq fun j => ?_
  rw [BitVec.testBit_toNat, getLsbD_field, Nat.testBit_mod_two_pow, Nat.testBit_div_two_pow,
    BitVec.testBit_toNat, Nat.add_comm]

/-- A value that fits in `n` bits has no bit from `n` on. -/
theorem getLsbD_eq_false_of_fits {x : Word} {n k : Nat} (hfits : x.toNat < 2 ^ n) (hk : n ≤ k) :
    x.getLsbD k = false := by
  rw [← BitVec.testBit_toNat]
  exact Nat.testBit_lt_two_pow (hfits.trans_le (Nat.pow_le_pow_right Nat.zero_lt_two hk))

/-- A value is a field of the window if it fits in the field's width and has the field's bits. -/
theorem eq_field_iff {x : Word} {lo width : Nat} :
    x = field w lo width ↔
      x.toNat < 2 ^ width ∧ ∀ j < width, x.getLsbD j = w.getLsbD (lo + j) := by
  constructor
  · rintro rfl
    refine ⟨?_, fun j hj => by simp [getLsbD_field, hj]⟩
    rw [toNat_field]
    exact Nat.mod_lt _ (Nat.two_pow_pos width)
  · rintro ⟨hfits, hbits⟩
    refine BitVec.eq_of_getLsbD_eq fun j _ => ?_
    rw [getLsbD_field]
    by_cases hj : j < width
    · simp [hj, hbits]
    · simp [hj, getLsbD_eq_false_of_fits hfits (show width ≤ j by omega)]

theorem eq_extractLsb'_iff {n lo : Nat} {x : BitVec n} :
    x = w.extractLsb' lo n ↔ ∀ j < n, x.getLsbD j = w.getLsbD (lo + j) := by
  rw [BitVec.eq_of_getLsbD_eq_iff]
  refine forall₂_congr fun j hj => ?_
  simp [hj]

/-- The bits below `m + n` are the bits below `m` and the `n` bits above them. -/
theorem forall_lt_add_iff {P : Nat → Prop} (m n : Nat) :
    (∀ k < m + n, P k) ↔ (∀ k < m, P k) ∧ ∀ j < n, P (m + j) := by
  refine ⟨fun h => ⟨fun k hk => h k (by omega), fun j hj => h _ (by omega)⟩, ?_⟩
  rintro ⟨hlow, hhigh⟩ k hk
  by_cases hkm : k < m
  · exact hlow k hkm
  · have := hhigh (k - m) (by omega)
    rwa [show m + (k - m) = k by omega] at this

/-- The bits of a coded symbol, field by field: the tag, `p`, `xa`, `s`, `xb` (R93). -/
theorem forall_lt_codedLength_iff {P : Nat → Prop} :
    (∀ k < codedLength t p s, P k) ↔
      P 0 ∧ (∀ j < 2, P (1 + j)) ∧ (∀ j < codeLenA t p, P (3 + j)) ∧
        (∀ j < 4, P (3 + codeLenA t p + j)) ∧ ∀ j < codeLenB t s, P (7 + codeLenA t p + j) := by
  rw [show codedLength t p s = 1 + 2 + codeLenA t p + 4 + codeLenB t s by unfold codedLength; omega]
  rw [forall_lt_add_iff, forall_lt_add_iff, forall_lt_add_iff, forall_lt_add_iff,
    show 1 + 2 + codeLenA t p + 4 = 7 + codeLenA t p by omega]
  simp only [Nat.lt_one_iff, forall_eq, and_assoc]

/-! ### The bits of a coded symbol's number -/

theorem getLsbD_encodeCoded {k : Nat} (hk : k < 32) :
    (encodeCoded t p xa s xb).getLsbD k =
      (decide (k = 0) || (!decide (k < 1) && p.getLsbD (k - 1)) ||
        (!decide (k < 3) && xa.getLsbD (k - 3)) ||
        (!decide (k < 3 + codeLenA t p) && s.getLsbD (k - (3 + codeLenA t p))) ||
        (!decide (k < 7 + codeLenA t p) && xb.getLsbD (k - (7 + codeLenA t p)))) := by
  have hsub (n : Nat) : k - n < 32 := by omega
  simp only [encodeCoded, BitVec.getLsbD_or, BitVec.getLsbD_one, BitVec.getLsbD_shiftLeft,
    BitVec.getLsbD_setWidth, hk, hsub, decide_true, Bool.true_and, Nat.zero_lt_succ]

theorem getLsbD_encodeCoded_p {j : Nat} (hj : j < 2) :
    (encodeCoded t p xa s xb).getLsbD (1 + j) = p.getLsbD j := by
  rw [getLsbD_encodeCoded (by omega)]
  simp [show 1 + j < 3 by omega, show 1 + j < 3 + codeLenA t p by omega,
    show 1 + j < 7 + codeLenA t p by omega]

theorem getLsbD_encodeCoded_xa {j : Nat} (hj : j < codeLenA t p) (hk : 3 + j < 32) :
    (encodeCoded t p xa s xb).getLsbD (3 + j) = xa.getLsbD j := by
  rw [getLsbD_encodeCoded hk]
  simp [hj, show 3 + j < 7 + codeLenA t p by omega]

theorem getLsbD_encodeCoded_s {j : Nat} (hxa : xa.toNat < 2 ^ codeLenA t p) (hj : j < 4)
    (hk : 3 + codeLenA t p + j < 32) :
    (encodeCoded t p xa s xb).getLsbD (3 + codeLenA t p + j) = s.getLsbD j := by
  have hp : p.getLsbD (3 + codeLenA t p + j - 1) = false := p.getLsbD_of_ge _ (by omega)
  have hxa : xa.getLsbD (3 + codeLenA t p + j - 3) = false :=
    getLsbD_eq_false_of_fits hxa (by omega)
  rw [getLsbD_encodeCoded hk]
  simp [hp, hxa, show 3 + codeLenA t p + j < 7 + codeLenA t p by omega]

theorem getLsbD_encodeCoded_xb {j : Nat} (hxa : xa.toNat < 2 ^ codeLenA t p)
    (hk : 7 + codeLenA t p + j < 32) :
    (encodeCoded t p xa s xb).getLsbD (7 + codeLenA t p + j) = xb.getLsbD j := by
  have hp : p.getLsbD (7 + codeLenA t p + j - 1) = false := p.getLsbD_of_ge _ (by omega)
  have hxa : xa.getLsbD (7 + codeLenA t p + j - 3) = false :=
    getLsbD_eq_false_of_fits hxa (by omega)
  have hs : s.getLsbD (7 + codeLenA t p + j - (3 + codeLenA t p)) = false :=
    s.getLsbD_of_ge _ (by omega)
  rw [getLsbD_encodeCoded hk]
  simp [hp, hxa, hs]

/-! ### The fields of a window -/

/-- A window's tag bit is 1 and `p`, `xa`, `s`, `xb` are its fields at the positions of R93. -/
structure WindowFields (t : CodeTable) (w : Word) (p : BitVec 2) (xa : Word) (s : BitVec 4)
    (xb : Word) : Prop where
  tag : w.getLsbD 0 = true
  p_eq : p = w.extractLsb' 1 2
  xa_eq : xa = field w 3 (codeLenA t p)
  s_eq : s = w.extractLsb' (3 + codeLenA t p) 4
  xb_eq : xb = field w (7 + codeLenA t p) (codeLenB t s)

/-- The fields of a window as integers (R93). -/
theorem WindowFields.toNat_eq (h : WindowFields t w p xa s xb) :
    p.toNat = w.toNat / 2 % 4 ∧ xa.toNat = w.toNat / 8 % 2 ^ codeLenA t p ∧
      s.toNat = w.toNat / 2 ^ (3 + codeLenA t p) % 16 ∧
      xb.toNat = w.toNat / 2 ^ (7 + codeLenA t p) % 2 ^ codeLenB t s := by
  have hp := congrArg BitVec.toNat h.p_eq
  have hxa := congrArg BitVec.toNat h.xa_eq
  have hs := congrArg BitVec.toNat h.s_eq
  have hxb := congrArg BitVec.toNat h.xb_eq
  rw [BitVec.extractLsb'_toNat, Nat.shiftRight_eq_div_pow] at hp hs
  rw [toNat_field] at hxa hxb
  exact ⟨hp, hxa, hs, hxb⟩

/-- The fields of a window are those of a symbol exactly when the window begins with the symbol's
number: no two fields share a bit, and together they are all of the symbol's bits (R93). -/
theorem windowFields_iff_encodeCoded (hlen : codedLength t p s ≤ 32) :
    WindowFields t w p xa s xb ↔
      xa.toNat < 2 ^ codeLenA t p ∧ xb.toNat < 2 ^ codeLenB t s ∧
        ∀ k < codedLength t p s, (encodeCoded t p xa s xb).getLsbD k = w.getLsbD k := by
  have hbits (hxa : xa.toNat < 2 ^ codeLenA t p) :
      (∀ k < codedLength t p s, (encodeCoded t p xa s xb).getLsbD k = w.getLsbD k) ↔
        w.getLsbD 0 = true ∧ (∀ j < 2, p.getLsbD j = w.getLsbD (1 + j)) ∧
          (∀ j < codeLenA t p, xa.getLsbD j = w.getLsbD (3 + j)) ∧
          (∀ j < 4, s.getLsbD j = w.getLsbD (3 + codeLenA t p + j)) ∧
          ∀ j < codeLenB t s, xb.getLsbD j = w.getLsbD (7 + codeLenA t p + j) := by
    unfold codedLength at hlen
    rw [forall_lt_codedLength_iff, Laws.encodeCoded_tag, eq_comm (a := true)]
    refine and_congr_right' (and_congr ?_ (and_congr ?_ (and_congr ?_ ?_)))
    · exact forall₂_congr fun j hj => by rw [getLsbD_encodeCoded_p hj]
    · exact forall₂_congr fun j hj => by rw [getLsbD_encodeCoded_xa hj (by omega)]
    · exact forall₂_congr fun j hj => by rw [getLsbD_encodeCoded_s hxa hj (by omega)]
    · exact forall₂_congr fun j hj => by rw [getLsbD_encodeCoded_xb hxa (by omega)]
  constructor
  · rintro ⟨htag, hp, hxa, hs, hxb⟩
    rw [eq_extractLsb'_iff] at hp hs
    rw [eq_field_iff] at hxa hxb
    exact ⟨hxa.1, hxb.1, (hbits hxa.1).mpr ⟨htag, hp, hxa.2, hs, hxb.2⟩⟩
  · rintro ⟨hxa, hxb, hwindow⟩
    obtain ⟨htag, hpbits, hxabits, hsbits, hxbbits⟩ := (hbits hxa).mp hwindow
    exact ⟨htag, eq_extractLsb'_iff.mpr hpbits, eq_field_iff.mpr ⟨hxa, hxabits⟩,
      eq_extractLsb'_iff.mpr hsbits, eq_field_iff.mpr ⟨hxb, hxbbits⟩⟩

/-- A window with tag 0 decodes to the `LIT` of the byte above the tag (R92, R142). -/
theorem decode_of_tag_eq_false (t : CodeTable) (h : w.getLsbD 0 = false) :
    decode t w = .ok (.lit (w.extractLsb' 1 8)) :=
  if_pos h

/-- Decoding a window with tag 1 is classifying its fields, if they fit in the window (R141, R41). -/
theorem WindowFields.decode_eq (h : WindowFields t w p xa s xb) :
    decode t w =
      if 32 < codedLength t p s then .error .symbolLongerThanWindow else .ok (classify t p xa s xb) := by
  have hs : ((w >>> 3) >>> codeLenA t p).extractLsb' 0 4 = s := by
    rw [← BitVec.shiftRight_add, h.s_eq]
    ext j hj
    simp
  have hxb : (((w >>> 3) >>> codeLenA t p) >>> 4) &&& mask (codeLenB t s) = xb := by
    rw [h.xb_eq, field, ← BitVec.shiftRight_add, ← BitVec.shiftRight_add,
      show 3 + (codeLenA t p + 4) = 7 + codeLenA t p by omega]
  unfold decode
  rw [if_neg (by simp [h.tag])]
  simp only [← h.p_eq, hs, hxb, ← h.xa_eq]

/-- A window with tag 1 has fields. -/
theorem exists_windowFields (h : w.getLsbD 0 = true) : ∃ p xa s xb, WindowFields t w p xa s xb :=
  ⟨_, _, _, _, h, rfl, rfl, rfl, rfl⟩

/-! ### A symbol that is coded, whatever its class -/

/-- The symbol is a coded one with these fields (R93, R95). -/
inductive CodedSymbol (p : BitVec 2) (xa : Word) (s : BitVec 4) (xb : Word) : Instr → Prop where
  | run : CodedSymbol p xa s xb (.run p xa s xb)
  | copy : CodedSymbol p xa s xb (.copy p xa s xb)
  | endSym : CodedSymbol p xa s xb (.endSym p xa s xb)

/-- A symbol is a `LIT` or a coded one. -/
theorem lit_or_codedSymbol (i : Instr) :
    (∃ b, i = .lit b) ∨ ∃ p xa s xb, CodedSymbol p xa s xb i := by
  cases i with
  | lit b => exact .inl ⟨b, rfl⟩
  | run p xa s xb => exact .inr ⟨p, xa, s, xb, .run⟩
  | copy p xa s xb => exact .inr ⟨p, xa, s, xb, .copy⟩
  | endSym p xa s xb => exact .inr ⟨p, xa, s, xb, .endSym⟩

theorem codedSymbol_classify : CodedSymbol p xa s xb (classify t p xa s xb) := by
  obtain ⟨_, hc⟩ | ⟨_, hc⟩ | ⟨_, _, hc⟩ := classify_cases t p xa s xb
  · exact hc ▸ .endSym
  · exact hc ▸ .run
  · exact hc ▸ .copy

/-- The class of a coded symbol by its value `sym`, as an integer (stage 2 of R95). -/
theorem classify_eq_iff (t : CodeTable) (p : BitVec 2) (xa : Word) (s : BitVec 4) (xb : Word) :
    (classify t p xa s xb = .run p xa s xb ↔ (symValue t s xb).toNat = 0) ∧
      (classify t p xa s xb = .copy p xa s xb ↔
        1 ≤ (symValue t s xb).toNat ∧ (symValue t s xb).toNat ≤ 0x10001) ∧
      (classify t p xa s xb = .endSym p xa s xb ↔ 0x10002 ≤ (symValue t s xb).toNat) := by
  have hterminal : Config.terminal.toNat = 0x10002 := rfl
  obtain ⟨hsym, hc⟩ | ⟨hsym, hc⟩ | ⟨hpos, hsym, hc⟩ := classify_cases t p xa s xb
  · rw [hc]
    exact ⟨iff_of_false nofun (by omega), iff_of_false nofun (by omega), iff_of_true rfl (by omega)⟩
  · rw [hc, hsym]
    exact ⟨iff_of_true rfl rfl, iff_of_false nofun (by decide), iff_of_false nofun (by decide)⟩
  · rw [hc]
    exact ⟨iff_of_false nofun (by omega), iff_of_true rfl (by omega), iff_of_false nofun (by omega)⟩

namespace CodedSymbol

variable (h : CodedSymbol p xa s xb i)
include h

theorem encode_eq : encode t i = encodeCoded t p xa s xb := by cases h <;> rfl

theorem symbolLength_eq : symbolLength t i = codedLength t p s := by cases h <;> rfl

/-- The class of a well-formed coded symbol is the one `classify` chooses (R95). -/
theorem wellFormed_iff :
    i.WellFormed t ↔ codedLength t p s ≤ 32 ∧ xa.toNat < 2 ^ codeLenA t p ∧
      xb.toNat < 2 ^ codeLenB t s ∧ classify t p xa s xb = i := by
  have hterminal : Config.terminal.toNat = 0x10002 := rfl
  have hzero : symValue t s xb = 0 ↔ (symValue t s xb).toNat = 0 := BitVec.toNat_inj.symm
  obtain ⟨hrun, hcopy, hend⟩ := classify_eq_iff t p xa s xb
  cases h with
  | run => rw [wellFormed_run, hrun, hzero]
  | copy =>
    rw [wellFormed_copy, hcopy, Ne, hzero]
    omega
  | endSym => rw [wellFormed_endSym, hend, hterminal]

end CodedSymbol

/-! ### Decoding and encoding -/

/-- All that `decode` can answer, its fields at the positions of R93: a `LIT`, or the coded symbol of
the window's fields and of the class their value selects (R95, R141). -/
theorem decode_eq_ok_cases (h : decode t w = .ok i) :
    (w.getLsbD 0 = false ∧ i = .lit (w.extractLsb' 1 8)) ∨
      ∃ p xa s xb, WindowFields t w p xa s xb ∧ CodedSymbol p xa s xb i ∧ codedLength t p s ≤ 32 ∧
        classify t p xa s xb = i := by
  cases htag : w.getLsbD 0 with
  | false =>
    rw [decode_of_tag_eq_false t htag] at h
    exact .inl ⟨rfl, (Except.ok.inj h).symm⟩
  | true =>
    obtain ⟨p, xa, s, xb, hfields⟩ := exists_windowFields (t := t) htag
    rw [hfields.decode_eq] at h
    split at h
    · exact nomatch h
    · cases h
      exact .inr ⟨p, xa, s, xb, hfields, codedSymbol_classify, by omega, rfl⟩

/-- A window begins with the number of a `LIT` exactly when its tag is 0 and the byte follows (R92). -/
theorem encode_lit_agrees_iff {b : Byte} :
    (∀ k < symbolLength t (.lit b), (encode t (.lit b)).getLsbD k = w.getLsbD k) ↔
      w.getLsbD 0 = false ∧ b = w.extractLsb' 1 8 := by
  rw [show symbolLength t (.lit b) = 1 + 8 from rfl, forall_lt_add_iff, eq_extractLsb'_iff]
  refine and_congr ?_ (forall₂_congr fun j hj => ?_)
  · simp only [Nat.lt_one_iff, forall_eq]
    rw [(Laws.EncodeTag.lit b t).mpr ⟨b, rfl⟩, eq_comm]
  · simp [encode, show 1 + j < 32 by omega]

/-- Decoding inverts encoding: a window decodes to a symbol exactly when the symbol is well-formed and
the window begins with its number (R92, R93, R95). -/
theorem decode_eq_ok_iff :
    decode t w = .ok i ↔
      i.WellFormed t ∧ ∀ k < symbolLength t i, (encode t i).getLsbD k = w.getLsbD k := by
  constructor
  · intro h
    obtain ⟨htag, rfl⟩ | ⟨p, xa, s, xb, hfields, hcoded, hlen, hclass⟩ := decode_eq_ok_cases h
    · exact ⟨wellFormed_lit t _, encode_lit_agrees_iff.mpr ⟨htag, rfl⟩⟩
    · obtain ⟨hxa, hxb, hwindow⟩ := (windowFields_iff_encodeCoded hlen).mp hfields
      rw [hcoded.encode_eq, hcoded.symbolLength_eq]
      exact ⟨hcoded.wellFormed_iff.mpr ⟨hlen, hxa, hxb, hclass⟩, hwindow⟩
  · rintro ⟨hwf, hwindow⟩
    obtain ⟨b, rfl⟩ | ⟨p, xa, s, xb, hcoded⟩ := lit_or_codedSymbol i
    · obtain ⟨htag, rfl⟩ := encode_lit_agrees_iff.mp hwindow
      exact decode_of_tag_eq_false t htag
    · obtain ⟨hlen, hxa, hxb, hclass⟩ := hcoded.wellFormed_iff.mp hwf
      rw [hcoded.encode_eq, hcoded.symbolLength_eq] at hwindow
      have hfields := (windowFields_iff_encodeCoded hlen).mpr ⟨hxa, hxb, hwindow⟩
      rw [hfields.decode_eq, if_neg (by omega), hclass]

/-- A well-formed symbol fits in the window, under any table (R41, R97). -/
theorem symbolLength_le_of_wellFormed (h : i.WellFormed t) : symbolLength t i ≤ 32 := by
  obtain ⟨b, rfl⟩ | ⟨p, xa, s, xb, hcoded⟩ := lit_or_codedSymbol i
  · simp [symbolLength]
  · rw [hcoded.symbolLength_eq]
    exact (hcoded.wellFormed_iff.mp h).1

end

/-- Settles O1, by one direction of `decode_eq_ok_iff`. `WF_TABLE` is not needed: a well-formed symbol fits
in the window. -/
theorem decodeOfEncodedSymbol : Obligations.DecodeOfEncodedSymbol :=
  fun _ _ _ _ hwf hwindow => decode_eq_ok_iff.mpr ⟨hwf, fun k hk => (hwindow k hk).symm⟩

/-- Settles O2, by the other direction of `decode_eq_ok_iff`. -/
theorem encodeOfDecodedWindow : Obligations.EncodeOfDecodedWindow := by
  intro t i w h
  obtain ⟨hwf, hwindow⟩ := decode_eq_ok_iff.mp h
  exact ⟨symbolLength_le_of_wellFormed hwf, hwf, hwindow⟩

/-- Settles O4: the fields are the window's, as integers, and `classify` selects the class by `sym`. -/
theorem classIsSelectedByValue : Obligations.ClassIsSelectedByValue := by
  intro t w i h
  obtain ⟨htag, rfl⟩ | ⟨p, xa, s, xb, hfields, hcoded, _, hclass⟩ := decode_eq_ok_cases h
  · refine ⟨htag, ?_⟩
    rw [BitVec.extractLsb'_toNat, Nat.shiftRight_eq_div_pow]
  · obtain ⟨hp, hxa, hs, hxb⟩ := hfields.toNat_eq
    obtain ⟨hrun, hcopy, hend⟩ := classify_eq_iff t p xa s xb
    cases hcoded with
    | run => exact ⟨hfields.tag, hp, hxa, hs, hxb, hrun.mp hclass⟩
    | copy => exact ⟨hfields.tag, hp, hxa, hs, hxb, hcopy.mp hclass⟩
    | endSym => exact ⟨hfields.tag, hp, hxa, hs, hxb, hend.mp hclass⟩

end Sys2Proof

/-! ## The fetch law of `Consume` (R124, R125) -/

namespace Sys2Proof.Safety

open Sys2Proof.Machine

/-- Settles O7, by the reader's two branches. -/
theorem consumeKeepsWindow : Obligations.ConsumeKeepsWindow :=
  fun _ _ _ h hu => consume_keeps_window h hu

/-- `T` is `CNT` bits short of the end of the words fetched (R25). -/
theorem WindowInv.streamPos_add_cnt {s : State} (h : WindowInv s) :
    s.streamPos + s.cnt.toNat = 32 * (s.rdcur.toNat - 4) := by
  have := h.cnt_le
  have := h.rdcur_low
  unfold State.streamPos
  omega

/-- The stream position lies within the payload (R125). -/
theorem WindowInv.streamPos_le {s : State} (h : WindowInv s) : s.streamPos ≤ 32 * (s.n.toNat - 5) := by
  have := h.streamPos_add_cnt
  have := h.rdcur_high
  omega

/-- A `Consume` fetches a word exactly when it takes more bits than `CNT`, and leaves `CNT` below 32. -/
theorem consume_rdcur_cnt {s t : State} {len : Nat} (h : WindowInv s) (hu : consume len s = .ok t) :
    t.rdcur.toNat = s.rdcur.toNat + (if s.cnt.toNat < len then 1 else 0) ∧ t.cnt.toNat < 32 := by
  have hcnt := h.cnt_le
  obtain ⟨h1, _, ⟨hc, rfl⟩ | ⟨hc, hn, _, rfl⟩⟩ := consume_eq_ok hu
  · refine ⟨(if_neg (Nat.not_lt.mpr hc)).symm ▸ rfl, ?_⟩
    simp only [slide, State.setWindow_cnt, BitVec.toNat_ofNat]
    omega
  · refine ⟨(if_pos hc).symm ▸ toNat_rdcur_succ hn, ?_⟩
    simp only [refill, State.setWindow_cnt, BitVec.toNat_ofNat]
    omega

/-- Settles O8: `T` is `CNT < 32` bits short of the end of the words fetched, so `RDCUR` follows `T`, and
the words fetched are words of the payload. -/
theorem consumeFollowsFetchLaw : Obligations.ConsumeFollowsFetchLaw := by
  intro s t len h hu
  obtain ⟨ht, hpos⟩ := consume_keeps_window h hu
  obtain ⟨hrd, hcnt⟩ := consume_rdcur_cnt h hu
  have hend := h.streamPos_add_cnt
  have hend' := ht.streamPos_add_cnt
  have hlow := ht.rdcur_low
  refine ⟨by omega, ?_, ht.streamPos_le⟩
  have hfetch : 32 * (s.rdcur.toNat - 4) < s.streamPos + len ↔ s.cnt.toNat < len := by omega
  rw [hrd, if_congr hfetch rfl rfl]

/-- `Consume` raises `PAYLOAD_OVERRUN` exactly when it needs a word and none is left (R124). -/
theorem consume_eq_overrun_iff {s : State} {len : Nat} (h1 : 1 ≤ len) (h2 : len ≤ 32) :
    consume len s = .error (.raised (.corruptStream .payloadOverrun)) ↔
      s.cnt.toNat < len ∧ s.n.toNat ≤ s.rdcur.toNat + 1 := by
  constructor
  · intro h
    obtain ⟨_, _, hc, hn, _⟩ := consume_eq_raised h
    exact ⟨hc, hn⟩
  · rintro ⟨hc, hn⟩
    exact consume_overrun h1 h2 hc hn

/-- Settles O9: with no word left the payload ends where the words fetched end. -/
theorem consumeOverrunsPastStream : Obligations.ConsumeOverrunsPastStream := by
  intro s len h h1 h2
  rw [consume_eq_overrun_iff h1 h2]
  have := h.streamPos_add_cnt
  have := h.rdcur_low
  have := h.rdcur_high
  omega

end Sys2Proof.Safety

/-! ## The one word of IMEM a decode step reads (R127) -/

namespace Sys2Proof.Machine

section
variable {m : Memory} {s : State}

/-- An operation does the same from `s` with IMEM `m` in place of its own: it succeeds with the same state
but for IMEM, or ends early for the same reason. -/
def IgnoresImem (m : Memory) (f : State → Except Stop State) (s : State) : Prop :=
  f (s.setImem m) = (f s).map fun u => u.setImem m

/-- An outcome with IMEM `m` in its next state, if there is one. -/
def outcomeWithImem (m : Memory) : Host.Outcome State Fault Refusal → Host.Outcome State Fault Refusal
  | .next t => .next (t.setImem m)
  | .fault f => .fault f
  | .refused r => .refused r

/-- A sequence ignores IMEM if its parts do. -/
theorem IgnoresImem.bind {f g : State → Except Stop State} (hf : IgnoresImem m f s)
    (hg : ∀ u, IgnoresImem m g u) : IgnoresImem m (fun s => f s >>= g) s := by
  unfold IgnoresImem
  beta_reduce
  rw [hf]
  cases f s with
  | error e => rfl
  | ok u => exact hg u

/-- A step whose operation ignores IMEM ignores it, trap entry included (R226). -/
theorem IgnoresImem.settle {f : State → Except Stop State} (h : IgnoresImem m f s) :
    settle (s.setImem m) (f (s.setImem m)) = outcomeWithImem m (settle s (f s)) := by
  rw [h]
  rcases f s with (e | fl | r) | u <;> rfl

/-! ### The operations of a decode step -/

/-- `Consume` reads at most word `RDCUR` (R123, R127). -/
theorem consume_ignoresImem (hm : m.readWord (4 * s.rdcur.toNat) = s.imem.readWord (4 * s.rdcur.toNat))
    (len : Nat) : IgnoresImem m (consume len) s := by
  have hword : inWord (s.setImem m) s.rdcur.toNat = inWord s s.rdcur.toNat := by
    unfold inWord
    rw [State.setImem_imem, State.setImem_par, hm]
  unfold IgnoresImem consume
  simp only [State.setImem_cnt, State.setImem_n, State.setImem_rdcur, hword]
  split
  · rfl
  split
  · rfl
  split
  · rfl
  · cases inWord s s.rdcur.toNat <;> rfl

theorem lane_setImem : lane (s.setImem m) = lane s := rfl

theorem pendingBase_setImem : pendingBase (s.setImem m) = pendingBase s := rfl

theorem omemWriteMasked_setImem (a : Nat) (v : Word) (be : BitVec 4) :
    omemWriteMasked (s.setImem m) a v be = omemWriteMasked s a v be := rfl

theorem outRead_setImem (j : Nat) : outRead j (s.setImem m) = outRead j s := rfl

theorem afterInsert_setImem (b : Byte) : afterInsert b (s.setImem m) = (afterInsert b s).setImem m := rfl

/-- `Emit` below the buffer's end: the byte is inserted, and a word that it fills is committed (R171). -/
theorem emit_of_lt {b : Byte} (h : s.wridx.toNat < s.osize.toNat) :
    emit b s = if lane (afterInsert b s) = 0 then commit (afterInsert b s) else .ok (afterInsert b s) :=
  if_neg (Nat.not_le.mpr h)

theorem commit_ignoresImem : IgnoresImem m commit s := by
  unfold IgnoresImem commit
  rw [omemWriteMasked_setImem, State.setImem_wridx, State.setImem_acc]
  cases omemWriteMasked s (s.wridx.toNat - 4) s.acc 15#4 <;> rfl

theorem emit_ignoresImem (b : Byte) : IgnoresImem m (emit b) s := by
  unfold IgnoresImem
  by_cases ho : s.osize.toNat ≤ s.wridx.toNat
  · rw [emit_overrun ho, emit_overrun (s := s.setImem m) ho]
    rfl
  · have hlt : s.wridx.toNat < s.osize.toNat := Nat.not_le.mp ho
    rw [emit_of_lt hlt, emit_of_lt (s := s.setImem m) hlt, afterInsert_setImem, lane_setImem]
    split
    · exact commit_ignoresImem
    · rfl

theorem flush_ignoresImem : IgnoresImem m flush s := by
  unfold IgnoresImem flush
  rw [lane_setImem, pendingBase_setImem, omemWriteMasked_setImem, State.setImem_acc]
  split
  · rfl
  · cases omemWriteMasked s (pendingBase s) s.acc (BitVec.ofNat 4 (2 ^ lane s - 1)) <;> rfl

theorem readCoded_ignoresImem
    (hm : m.readWord (4 * s.rdcur.toNat) = s.imem.readWord (4 * s.rdcur.toNat))
    (p : BitVec 2) (xa : Word) (sr : BitVec 4) (xb : Word) (q : Phase) :
    IgnoresImem m (readCoded p xa sr xb q) s :=
  (consume_ignoresImem hm _).bind fun _ => rfl

theorem emitRunByte_ignoresImem : IgnoresImem m emitRunByte s := by
  unfold IgnoresImem emitRunByte
  rw [State.setImem_wridx]
  split
  · rfl
  · exact (emit_ignoresImem s.lastb).bind (g := fun t => .ok (t.setRem (s.rem - 1))) fun _ => rfl

theorem emitCopyByte_ignoresImem : IgnoresImem m emitCopyByte s := by
  unfold IgnoresImem emitCopyByte
  rw [State.setImem_wridx, State.setImem_sym, outRead_setImem]
  split
  · rfl
  · cases outRead (s.wridx.toNat - 2 * s.sym.toNat) s with
    | error e => rfl
    | ok b => exact (emit_ignoresImem b).bind (g := fun t => .ok (t.setRem (s.rem - 1))) fun _ => rfl

/-! ### The decode steps -/

theorem exec_setImem (hm : m.readWord (4 * s.rdcur.toNat) = s.imem.readWord (4 * s.rdcur.toNat))
    (i : Instr) : exec i (s.setImem m) = outcomeWithImem m (exec i s) := by
  cases i with
  | lit b =>
    exact ((consume_ignoresImem hm 9).bind (g := fun t => .ok ((t.setLitb b).setPhase .emitLiteral))
      fun _ => rfl).settle
  | run p xa sr xb => exact (readCoded_ignoresImem hm p xa sr xb .emitRun).settle
  | copy p xa sr xb => exact (readCoded_ignoresImem hm p xa sr xb .emitCopy).settle
  | endSym p xa sr xb =>
    exact (flush_ignoresImem.bind (g := fun t => .ok (t.setPhase .terminate)) fun _ => rfl).settle

theorem readSymbolStep_setImem
    (hm : m.readWord (4 * s.rdcur.toNat) = s.imem.readWord (4 * s.rdcur.toNat)) :
    readSymbolStep (s.setImem m) = outcomeWithImem m (readSymbolStep s) := by
  unfold readSymbolStep peek
  rw [State.setImem_cur, State.setImem_par]
  cases decode s.par.table s.cur with
  | ok i => exact exec_setImem hm i
  | error r => rfl

theorem emitLiteralStep_setImem : emitLiteralStep (s.setImem m) = outcomeWithImem m (emitLiteralStep s) :=
  ((emit_ignoresImem s.litb).bind (g := fun t => .ok (t.setPhase .readSymbol)) fun _ => rfl).settle

theorem emitRunStep_setImem : emitRunStep (s.setImem m) = outcomeWithImem m (emitRunStep s) := by
  unfold emitRunStep
  rw [State.setImem_rem]
  split
  · rfl
  · exact emitRunByte_ignoresImem.settle

theorem emitCopyStep_setImem : emitCopyStep (s.setImem m) = outcomeWithImem m (emitCopyStep s) := by
  unfold emitCopyStep
  rw [State.setImem_rem]
  split
  · rfl
  · exact emitCopyByte_ignoresImem.settle

theorem withGoodTable_setImem {o o' : Host.Outcome State Fault Refusal} (h : o' = outcomeWithImem m o) :
    withGoodTable (s.setImem m) o' = outcomeWithImem m (withGoodTable s o) := by
  unfold withGoodTable
  rw [h, State.setImem_par]
  split <;> rfl

/-- A decode step reads at most word `RDCUR` of IMEM (R127). -/
theorem engineStep_setImem (hd : Safety.decoding s.phase = true)
    (hm : m.readWord (4 * s.rdcur.toNat) = s.imem.readWord (4 * s.rdcur.toNat)) :
    engineStep (s.setImem m) = outcomeWithImem m (engineStep s) := by
  unfold engineStep
  rw [State.setImem_phase]
  cases hp : s.phase with
  | readSymbol => exact withGoodTable_setImem (readSymbolStep_setImem hm)
  | emitLiteral => exact withGoodTable_setImem emitLiteralStep_setImem
  | emitRun => exact withGoodTable_setImem emitRunStep_setImem
  | emitCopy => exact withGoodTable_setImem emitCopyStep_setImem
  | idle | validate | prepare | terminate | error => simp [hp, Safety.decoding] at hd

end

/-- Settles O35: the engine's step from the same state with IMEM `m` is its old step with IMEM `m`. -/
theorem decodeReadsNextWordOnly : Obligations.DecodeReadsNextWordOnly := by
  intro s t m hd hmoves hm hstep
  rw [step_engine hmoves] at hstep
  calc step (s.setImem m) = engineStep (s.setImem m) := step_engine hmoves
    _ = outcomeWithImem m (engineStep s) := engineStep_setImem hd hm
    _ = .next (t.setImem m) := by rw [hstep]; rfl

end Sys2Proof.Machine

/-! ## The symbol a window holds (R152) -/

namespace Sys2Proof

/-- Settles O3: the window decodes (R98), and `decode` answers the symbol whose number its low bits are. -/
theorem everyWindowIsOneSymbol : Obligations.EveryWindowIsOneSymbol := by
  intro t w hw
  obtain ⟨i, hi⟩ := decode_ok hw w
  refine ⟨i, hi, (decode_eq_ok_iff.mp hi).1, fun j hwf hwindow => ?_⟩
  have hj : decode t w = .ok j := decode_eq_ok_iff.mpr ⟨hwf, hwindow⟩
  exact Except.ok.inj (hj.symm.trans hi)

/-! ### The operands on the words of the Code Table -/

/-- `TAB[r][c]` is word `4*r + c` (R8, R40). -/
theorem tab_eq_word (t : CodeTable) (r : Fin 48) (c : Fin 4) : tab t r c = t[4 * r.val + c.val]! :=
  (getElem!_pos t (4 * r.val + c.val) (by omega)).symm

theorem codedLength_eq_words (t : CodeTable) (p : BitVec 2) (sr : BitVec 4) :
    codedLength t p sr = 7 + (t[4 * p.toNat]!).toNat + (t[4 * (4 + sr.toNat)]!).toNat := by
  unfold codedLength codeLenA codeLenB
  rw [tab_eq_word, tab_eq_word]
  rfl

theorem one_le_codedLength (t : CodeTable) (p : BitVec 2) (sr : BitVec 4) : 1 ≤ codedLength t p sr := by
  unfold codedLength
  omega

theorem symValue_eq_words (t : CodeTable) (sr : BitVec 4) (xb : Word) :
    symValue t sr xb = t[4 * (4 + sr.toNat) + 2]! + xb := by
  unfold symValue
  rw [tab_eq_word]
  rfl

theorem repeatCount_eq_words (t : CodeTable) (p : BitVec 2) (xa : Word) (sr : BitVec 4) :
    repeatCount t p xa sr =
      t[4 * p.toNat + 2]! + xa + ((t[4 * (4 + sr.toNat) + 1]! + 11) >>> 3) := by
  unfold repeatCount
  rw [tab_eq_word, tab_eq_word]
  rfl

end Sys2Proof

/-! ## The arms of the `READ_SYMBOL` step (R141) -/

namespace Sys2Proof.Machine

section
variable {i : Instr} {s u : State}

/-- What a symbol that consumes its bits leaves in the operand registers and in `PHASE` (R141). An `END`
consumes nothing, and no lemma below speaks of it. -/
def latch (t : CodeTable) (i : Instr) (u : State) : State :=
  match i with
  | .lit b => (u.setLitb b).setPhase .emitLiteral
  | .run p xa sr xb => (u.setCoded (symValue t sr xb) (repeatCount t p xa sr)).setPhase .emitRun
  | .copy p xa sr xb => (u.setCoded (symValue t sr xb) (repeatCount t p xa sr)).setPhase .emitCopy
  | .endSym _ _ _ _ => u

/-- Every symbol but `END` consumes its bits, then latches its operands (R141). -/
theorem exec_eq_consume_latch (hi : ∀ p xa sr xb, i ≠ .endSym p xa sr xb) (s : State) :
    exec i s =
      settle s (consume (symbolLength s.par.table i) s >>= fun u => .ok (latch s.par.table i u)) := by
  cases i with
  | lit | run | copy => rfl
  | endSym p xa sr xb => exact absurd rfl (hi p xa sr xb)

theorem exec_of_consume (hi : ∀ p xa sr xb, i ≠ .endSym p xa sr xb)
    (hu : consume (symbolLength s.par.table i) s = .ok u) :
    exec i s = .next (latch s.par.table i u) := by
  rw [exec_eq_consume_latch hi, hu]
  rfl

/-- A symbol whose bits the stream does not have takes `PAYLOAD_OVERRUN` (R124, R222). -/
theorem exec_of_overrun (hi : ∀ p xa sr xb, i ≠ .endSym p xa sr xb)
    (ho : consume (symbolLength s.par.table i) s = .error (.raised (.corruptStream .payloadOverrun))) :
    exec i s = .next (trapped (.corruptStream .payloadOverrun) s) := by
  rw [exec_eq_consume_latch hi, ho]
  rfl

/-- The two branches of `Consume` under a symbol that fits in the window (R123, R141). -/
theorem exec_reads {len : Nat} (hi : ∀ p xa sr xb, i ≠ .endSym p xa sr xb)
    (hlen : symbolLength s.par.table i = len) (h1 : 1 ≤ len) (h2 : len ≤ 32) :
    (len ≤ s.cnt.toNat → exec i s = .next (latch s.par.table i (slide s len))) ∧
      (s.cnt.toNat < len → s.rdcur.toNat + 1 < s.n.toNat → 4 * s.rdcur.toNat + 3 < s.par.inCap →
        exec i s = .next
          (latch s.par.table i (refill s len (s.imem.readWord (4 * s.rdcur.toNat))))) := by
  subst hlen
  exact ⟨fun hc => exec_of_consume hi (consume_slide h1 h2 hc),
    fun hc hn hin => exec_of_consume hi (consume_refill h1 h2 hc hn hin)⟩

end

/-- Settles O10, by the branches of `Consume`. -/
theorem litReads : Obligations.LitReads :=
  fun _ _ => exec_reads nofun rfl (by omega) (by omega)

/-- Settles O11, by the branches of `Consume` and the operands on the table's words. -/
theorem runReads : Obligations.RunReads := by
  unfold Obligations.RunReads
  simp only [← codedLength_eq_words, ← symValue_eq_words, ← repeatCount_eq_words]
  rintro p xa sr xb s _ _ _ rfl h32 rfl rfl
  exact exec_reads nofun rfl (one_le_codedLength _ _ _) h32

/-- Settles O12, as O11 with the phase of a `COPY`. -/
theorem copyReads : Obligations.CopyReads := by
  unfold Obligations.CopyReads
  simp only [← codedLength_eq_words, ← symValue_eq_words, ← repeatCount_eq_words]
  rintro p xa sr xb s _ _ _ rfl h32 rfl rfl
  exact exec_reads nofun rfl (one_le_codedLength _ _ _) h32

/-- With a good table and no host move pending a step is the step of the engine's phase. -/
theorem step_eq_of_phase {s : State} {o : Host.Outcome State Fault Refusal} (hm : s.hostMoves = [])
    (hw : wfTable s.par.table = true) (he : engineStep s = withGoodTable s o) : step s = o := by
  rw [step_engine hm, he, withGoodTable_eq hw]

/-- Settles O15: `READ_SYMBOL` decodes the window and runs the symbol's arm. -/
theorem stepRunsDecodedSymbol : Obligations.StepRunsDecodedSymbol := by
  intro s i hp hm hw hdec
  have hread : readSymbolStep s = exec i s := by
    unfold readSymbolStep peek
    rw [hdec]
  exact hread ▸ step_eq_of_phase hm hw (by unfold engineStep; rw [hp])

/-- Settles O13, by what `Flush` does to OMEM. -/
theorem endFlushes : Obligations.EndFlushes := by
  intro p xa sr xb s hwf hcap
  obtain ⟨t, ht⟩ : ∃ t, execEnd s = .next t :=
    ((Safety.flush_completes hcap).bind fun _ _ => Safety.completes_ok _).settle s
  obtain ⟨u, hu, rfl⟩ := execEnd_next ht
  obtain ⟨m, rfl, hm, hread⟩ := Safety.flush_omem hwf hu
  exact ⟨m, ht, hm, hread⟩

end Sys2Proof.Machine

namespace Sys2Proof.Safety

open Sys2Proof.Machine

/-- The one move that enters `TERMINATE` is `END`'s `Flush` (R150, R191). -/
theorem EngineMove.flush_of_terminate {s t : State} (hm : EngineMove s t) (hs : s.phase ≠ .terminate)
    (ht : t.phase = .terminate) :
    s.phase = .readSymbol ∧ ∃ u, flush s = .ok u ∧ t = u.setPhase .terminate := by
  cases hm with
  | finish hp u hu => exact ⟨hp, u, hu, rfl⟩
  | stay => exact absurd ht hs
  | trap | latch | prepare | lit | emitLit | leave => exact nomatch ht
  | coded _ _ _ _ q _ _ hq => rcases hq with rfl | ⟨rfl, _⟩ <;> exact nomatch ht
  | emitByte _ b u hu =>
    obtain ⟨_, _, rfl⟩ := emit_frame hu
    exact absurd ht hs

/-- Settles O22: `Flush` puts the pending lanes into OMEM, and `INV_ACC` has zeros above them. -/
theorem terminateLeavesResult : Obligations.TerminateLeavesResult := by
  intro s t h hmoves hs hstep ht
  have hm := engineStep_move (step_engine hmoves ▸ hstep)
  obtain ⟨hp, u, hu, rfl⟩ := hm.flush_of_terminate hs ht
  have hlanes := h.lanes (by rw [hp]; rfl)
  obtain ⟨m, rfl, _, hread⟩ := flush_omem h.omem_wf hu
  have hbase : pendingBase s ≤ s.wridx.toNat := by unfold pendingBase; omega
  refine ⟨rfl, fun j hj => hread j, fun j hle hj => ?_, fun j hj => hm.keeps_above h hj⟩
  exact (hread j).trans ((if_neg (by omega)).trans (hlanes.omem_zero j (by omega) hj))

end Sys2Proof.Safety

/-! ## A step of a decode phase under the invariant -/

namespace Sys2Proof.Safety

open Sys2Proof.Machine

section
variable {s t u : State} {i : Instr} {p q : Phase}

/-- The engine is about to take a step of phase `p`: the invariant holds, the table is good and no move of
the host comes first. -/
structure EngineAt (p : Phase) (s : State) : Prop where
  inv : EngineInv s
  phase : s.phase = p
  no_moves : s.hostMoves = []
  good_table : wfTable s.par.table = true

/-- A step of the engine leads to the next one. -/
theorem EngineAt.of_step (h : EngineAt p s) (hstep : step s = .next t) (hq : t.phase = q) : EngineAt q t where
  inv := stepKeepsEngineInv s t h.inv hstep
  phase := hq
  no_moves := (engineStep_move (step_engine h.no_moves ▸ hstep)).frame.hostMoves.trans h.no_moves
  good_table := by
    rw [parametersNeverChange s t hstep]
    exact h.good_table

/-- From a decode phase a step of the engine answers a next state (R152, R191). -/
theorem EngineAt.exists_step (h : EngineAt p s) (hv : p ≠ .validate) : ∃ t, step s = .next t := by
  rw [step_engine h.no_moves]
  exact engineStep_answers h.inv h.good_table (h.phase ▸ hv)

/-- A `Consume` that the stream has the bits for succeeds (R124). -/
theorem exists_consume {len : Nat} (h : DecodeInv s) (h1 : 1 ≤ len) (h2 : len ≤ 32)
    (hfit : s.streamPos + len ≤ 32 * (s.n.toNat - 5)) : ∃ u, consume len s = .ok u := by
  obtain hu | ⟨e, he⟩ := consume_completes h.call h1 h2
  · exact hu
  · obtain ⟨_, _, _, _, rfl⟩ := consume_eq_raised he
    have := (consumeOverrunsPastStream s len h.window h1 h2).mp he
    omega

/-! ### `READ_SYMBOL` on a symbol that consumes its bits -/

/-- With its bits in the stream the symbol consumes them and latches its operands (R141, R126). -/
theorem EngineAt.step_latch (h : EngineAt .readSymbol s) (hdec : decode s.par.table s.cur = .ok i)
    (hi : ∀ p xa sr xb, i ≠ .endSym p xa sr xb)
    (hfit : s.streamPos + symbolLength s.par.table i ≤ 32 * (s.n.toNat - 5)) :
    ∃ c l k r, step s = .next (latch s.par.table i (s.setWindow c l k r)) ∧
      (s.setWindow c l k r).streamPos = s.streamPos + symbolLength s.par.table i := by
  have hd := h.inv.decode (by rw [h.phase]; rfl)
  have hlen := symbolLength_bounds h.good_table i
  obtain ⟨u, hu⟩ := exists_consume hd (by omega) hlen.2 hfit
  have hpos := (consume_keeps_window hd.window hu).2
  have hstep := stepRunsDecodedSymbol s i h.phase h.no_moves h.good_table hdec
  rw [exec_of_consume hi hu] at hstep
  obtain ⟨c, l, k, r, rfl⟩ := consume_frame hu
  exact ⟨c, l, k, r, hstep, hpos⟩

/-- Without its bits in the stream the symbol takes `PAYLOAD_OVERRUN` (R124, R222). -/
theorem EngineAt.step_payloadOverrun (h : EngineAt .readSymbol s) (hdec : decode s.par.table s.cur = .ok i)
    (hi : ∀ p xa sr xb, i ≠ .endSym p xa sr xb)
    (hover : 32 * (s.n.toNat - 5) < s.streamPos + symbolLength s.par.table i) :
    step s = .next (trapped (.corruptStream .payloadOverrun) s) := by
  have hd := h.inv.decode (by rw [h.phase]; rfl)
  have hlen := symbolLength_bounds h.good_table i
  rw [stepRunsDecodedSymbol s i h.phase h.no_moves h.good_table hdec]
  exact exec_of_overrun hi
    ((consumeOverrunsPastStream s _ hd.window (by omega) hlen.2).mpr hover)

/-! ### `EMIT_LITERAL` -/

theorem EngineAt.step_emitLiteral (h : EngineAt .emitLiteral s) : step s = emitLiteralStep s :=
  step_eq_of_phase h.no_moves h.good_table (by unfold engineStep; rw [h.phase])

/-- With room in the buffer the literal byte is emitted (R178). -/
theorem EngineAt.step_emitLiteral_emit (h : EngineAt .emitLiteral s) (hroom : s.wridx.toNat < s.osize.toNat) :
    ∃ u, emit s.litb s = .ok u ∧ step s = .next (u.setPhase .readSymbol) := by
  obtain ⟨t, hstep⟩ := h.exists_step (by decide)
  obtain ⟨u, hu, rfl⟩ | ⟨hfull, _⟩ := emitLiteralStep_next (h.step_emitLiteral ▸ hstep)
  · exact ⟨u, hu, hstep⟩
  · omega

/-- At the end of the buffer it is not (R223). -/
theorem EngineAt.step_emitLiteral_overrun (h : EngineAt .emitLiteral s)
    (hfull : s.osize.toNat ≤ s.wridx.toNat) :
    step s = .next (trapped (.corruptStream .outputOverrun) s) := by
  obtain ⟨t, hstep⟩ := h.exists_step (by decide)
  obtain ⟨u, hu, _⟩ | ⟨_, rfl⟩ := emitLiteralStep_next (h.step_emitLiteral ▸ hstep)
  · have := (emit_eq_ok hu).1
    omega
  · exact hstep

end

/-- Settles O19: a `READ_SYMBOL` step, then an `EMIT_LITERAL` step. -/
theorem litWholeEffect : Obligations.LitWholeEffect := by
  intro s b hinv hp hm hw hdec
  have h : EngineAt .readSymbol s := ⟨hinv, hp, hm, hw⟩
  refine ⟨fun hfit hroom => ?_, h.step_payloadOverrun hdec nofun, fun hfit hfull => ?_⟩
  · obtain ⟨c, l, k, r, hstep, hpos⟩ := h.step_latch hdec nofun hfit
    have hemit : EngineAt .emitLiteral _ := h.of_step hstep rfl
    obtain ⟨u, hu, hstep'⟩ := hemit.step_emitLiteral_emit hroom
    obtain ⟨hwridx, _, hlast, _⟩ := emit_wridx hu
    have himage := outImage_emit hemit.inv.omem_wf hu
    obtain ⟨_, _, rfl⟩ := emit_frame hu
    have hsame : sameCall s _ := ⟨rfl, rfl, rfl, rfl, rfl, rfl, rfl, rfl, rfl⟩
    exact ⟨_, ⟨_, hstep, _, hstep', rfl⟩, rfl, hsame, rfl, rfl, rfl, hpos, hlast, hwridx, himage⟩
  · obtain ⟨c, l, k, r, hstep, hpos⟩ := h.step_latch hdec nofun hfit
    have hstep' := (h.of_step hstep rfl).step_emitLiteral_overrun (Nat.le_of_eq hfull.symm)
    exact ⟨_, ⟨_, hstep, _, hstep', rfl⟩, rfl, rfl, hpos⟩

end Sys2Proof.Safety

/-! ## The bytes of a `RUN` and of a `COPY` (R176, R177, R179)

A `RUN` emits what a `COPY` from one byte back would, since `LASTB` is the byte before `WRIDX` (R28); one
induction on the bytes emitted serves both. -/

namespace Sys2Proof.Safety

open Sys2Proof.Machine

section
variable {s t u : State} {k : Nat}

/-- How far back the next byte of the symbol in progress comes from. -/
def backDistance (s : State) : Nat :=
  match s.phase with
  | .emitCopy => 2 * s.sym.toNat
  | _ => 1

/-- The detail of the exception if the output does not reach so far back (R224). -/
def backDetail (s : State) : CorruptDetail :=
  match s.phase with
  | .emitCopy => .backrefBeforeStart
  | _ => .runWithoutPrevious

theorem backDistance_of_emitRun (hp : s.phase = .emitRun) : backDistance s = 1 := by
  unfold backDistance
  rw [hp]

theorem backDistance_of_emitCopy (hp : s.phase = .emitCopy) : backDistance s = 2 * s.sym.toNat := by
  unfold backDistance
  rw [hp]

theorem backDetail_of_emitRun (hp : s.phase = .emitRun) : backDetail s = .runWithoutPrevious := by
  unfold backDetail
  rw [hp]

theorem backDetail_of_emitCopy (hp : s.phase = .emitCopy) : backDetail s = .backrefBeforeStart := by
  unfold backDetail
  rw [hp]

/-- The engine is about to take a step of `EMIT_RUN` or `EMIT_COPY`. -/
structure Repeating (s : State) : Prop where
  at_phase : EngineAt s.phase s
  phase : s.phase = .emitRun ∨ s.phase = .emitCopy

theorem Repeating.decode (h : Repeating s) : DecodeInv s :=
  h.at_phase.inv.decode (by rcases h.phase with hp | hp <;> rw [hp] <;> rfl)

theorem Repeating.one_le_backDistance (h : Repeating s) : 1 ≤ backDistance s := by
  rcases h.phase with hp | hp
  · exact (backDistance_of_emitRun hp).ge
  · have := (h.at_phase.inv.copy_sym hp).1
    rw [backDistance_of_emitCopy hp]
    omega

/-- The four ways of an `EMIT_RUN` or `EMIT_COPY` step, in the order of their checks (R176, R177, R225). -/
inductive RepeatStep (s : State) : State → Prop
  | leave (hrem : s.rem.toNat = 0) : RepeatStep s (s.setPhase .readSymbol)
  | noSource (hrem : s.rem.toNat ≠ 0) (hback : s.wridx.toNat < backDistance s) :
      RepeatStep s (trapped (.corruptStream (backDetail s)) s)
  | noRoom (hrem : s.rem.toNat ≠ 0) (hback : backDistance s ≤ s.wridx.toNat)
      (hroom : s.osize.toNat ≤ s.wridx.toNat) : RepeatStep s (trapped (.corruptStream .outputOverrun) s)
  | byte (hrem : s.rem.toNat ≠ 0) (hback : backDistance s ≤ s.wridx.toNat)
      (hroom : s.wridx.toNat < s.osize.toNat) (u : State)
      (hu : emit (outImage s (s.wridx.toNat - backDistance s)) s = .ok u) :
      RepeatStep s (u.setRem (s.rem - 1))

theorem repeatStep_of_emitRun (hd : DecodeInv s) (hp : s.phase = .emitRun) (h : emitRunStep s = .next t) :
    RepeatStep s t := by
  have hdist := backDistance_of_emitRun hp
  have hdetail := backDetail_of_emitRun hp
  have hstep := emitRunStep_next h
  simp only [ne_eq, BitVec.toNat_eq, BitVec.ofNat_eq_ofNat, BitVec.toNat_ofNat, Nat.zero_mod] at hstep
  obtain ⟨h0, rfl⟩ | ⟨h0, hw, u, hu, rfl⟩ | ⟨h0, hw, rfl⟩ | ⟨h0, hw, ho, rfl⟩ := hstep
  · exact .leave h0
  · rw [hd.last_byte (by omega), ← hdist] at hu
    exact .byte h0 (by omega) (emit_eq_ok hu).1 u hu
  · exact hdetail ▸ .noSource h0 (by omega)
  · exact .noRoom h0 (by omega) ho

theorem repeatStep_of_emitCopy (hd : DecodeInv s) (hsym : 1 ≤ s.sym.toNat) (hp : s.phase = .emitCopy)
    (h : emitCopyStep s = .next t) : RepeatStep s t := by
  have hdist := backDistance_of_emitCopy hp
  have hdetail := backDetail_of_emitCopy hp
  have hstep := emitCopyStep_next h
  simp only [ne_eq, BitVec.toNat_eq, BitVec.ofNat_eq_ofNat, BitVec.toNat_ofNat, Nat.zero_mod,
    ← hdist] at hstep
  obtain ⟨h0, rfl⟩ | ⟨h0, hw, b, u, hb, hu, rfl⟩ | ⟨h0, hw, rfl⟩ | ⟨h0, hw, ho, rfl⟩ := hstep
  · exact .leave h0
  · rw [outRead_eq (by omega) hd.wridx_le_outCap] at hb
    cases hb
    exact .byte h0 hw (emit_eq_ok hu).1 u hu
  · exact hdetail ▸ .noSource h0 hw
  · exact .noRoom h0 hw ho

theorem Repeating.exists_step (h : Repeating s) : ∃ t, step s = .next t ∧ RepeatStep s t := by
  obtain ⟨hat, hp | hp⟩ := h
  all_goals
    obtain ⟨t, ht⟩ := hat.exists_step (by rw [hp]; decide)
    refine ⟨t, ht, ?_⟩
  · have heq : step s = emitRunStep s :=
      step_eq_of_phase hat.no_moves hat.good_table (by unfold engineStep; rw [hp])
    exact repeatStep_of_emitRun (hat.inv.decode (by rw [hp]; rfl)) hp (heq ▸ ht)
  · have heq : step s = emitCopyStep s :=
      step_eq_of_phase hat.no_moves hat.good_table (by unfold engineStep; rw [hp])
    exact repeatStep_of_emitCopy (hat.inv.decode (by rw [hp]; rfl)) (hat.inv.copy_sym hp).1 hp (heq ▸ ht)

/-! ### `k` bytes -/

/-- What the bytes of a symbol may change: `WRIDX`, `ACC`, `LASTB`, OMEM and `REM`. -/
def OutputFrame (s t : State) : Prop :=
  ∃ w a b m c, t = { s with wridx := w, acc := a, lastb := b, omem := m, rem := c }

theorem OutputFrame.trans (h : OutputFrame s t) (h' : OutputFrame t u) : OutputFrame s u := by
  obtain ⟨_, _, _, _, _, rfl⟩ := h
  obtain ⟨_, _, _, _, _, rfl⟩ := h'
  exact ⟨_, _, _, _, _, rfl⟩

theorem outputFrame_of_emit {b : Byte} (hu : emit b s = .ok u) (c : Word) : OutputFrame s (u.setRem c) := by
  obtain ⟨_, _, rfl⟩ := emit_frame hu
  exact ⟨_, _, _, _, _, rfl⟩

/-- A step that changes the output only stays in the phase. -/
theorem Repeating.of_step (h : Repeating s) (hf : OutputFrame s t) (hstep : step s = .next t) :
    Repeating t := by
  have hphase : t.phase = s.phase := by
    obtain ⟨_, _, _, _, _, rfl⟩ := hf
    rfl
  exact ⟨h.at_phase.of_step hstep rfl, hphase ▸ h.phase⟩

/-- From `s` to `t` the symbol in progress has emitted `k` bytes: the `backDistance s` bytes before `WRIDX`
over and over (R179), and nothing besides the output has changed. -/
structure Repeated (k : Nat) (s t : State) : Prop where
  repeating : Repeating t
  frame : OutputFrame s t
  wridx : t.wridx.toNat = s.wridx.toNat + k
  rem : t.rem.toNat + k = s.rem.toNat
  lastb : t.lastb = if k = 0 then s.lastb else outImage t (t.wridx.toNat - 1)
  image : ∀ j, outImage t j =
    if s.wridx.toNat ≤ j ∧ j < s.wridx.toNat + k then
      outImage s (s.wridx.toNat - backDistance s + (j - s.wridx.toNat) % backDistance s)
    else outImage s j

theorem Repeated.sameCall (h : Repeated k s t) : sameCall s t := by
  obtain ⟨_, _, _, _, _, rfl⟩ := h.frame
  exact ⟨rfl, rfl, rfl, rfl, rfl, rfl, rfl, rfl, rfl⟩

theorem Repeated.unchanged (h : Repeated k s t) :
    t.errcode = s.errcode ∧ t.litb = s.litb ∧ t.streamPos = s.streamPos := by
  obtain ⟨_, _, _, _, _, rfl⟩ := h.frame
  exact ⟨rfl, rfl, rfl⟩

theorem Repeated.osize_eq (h : Repeated k s t) : t.osize = s.osize := by
  obtain ⟨_, _, _, _, _, ht⟩ := h.frame
  rw [ht]

theorem Repeated.backDistance_eq (h : Repeated k s t) : backDistance t = backDistance s := by
  obtain ⟨_, _, _, _, _, ht⟩ := h.frame
  rw [ht]
  rfl

theorem Repeated.refl (h : Repeating s) : Repeated 0 s s where
  repeating := h
  frame := ⟨_, _, _, _, _, rfl⟩
  wridx := rfl
  rem := rfl
  lastb := rfl
  image _ := (if_neg (by omega)).symm

/-- The source of the next byte after `k` bytes is the byte of the same place in the period. -/
theorem Repeated.source (h : Repeated k s t) (hd : 1 ≤ backDistance s)
    (hback : backDistance s ≤ s.wridx.toNat) :
    outImage t (t.wridx.toNat - backDistance t) =
      outImage s (s.wridx.toNat - backDistance s + k % backDistance s) := by
  rw [h.backDistance_eq, h.wridx, h.image]
  by_cases hk : backDistance s ≤ k
  · rw [if_pos (by omega), Nat.mod_eq_sub_mod hk]
    congr 3
    omega
  · rw [if_neg (by omega), Nat.mod_eq_of_lt (by omega)]
    congr 1
    omega

theorem toNat_sub_one {v : Word} (hv : v.toNat ≠ 0) : (v - 1).toNat = v.toNat - 1 :=
  BitVec.toNat_sub_of_le (BitVec.le_def.mpr (Nat.one_le_iff_ne_zero.mpr hv))

/-- One byte more. -/
theorem Repeated.succ (h : Repeated k s t) (hd : 1 ≤ backDistance s)
    (hback : backDistance s ≤ s.wridx.toNat) (hrem : t.rem.toNat ≠ 0)
    (hu : emit (outImage t (t.wridx.toNat - backDistance t)) t = .ok u)
    (hstep : step t = .next (u.setRem (t.rem - 1))) : Repeated (k + 1) s (u.setRem (t.rem - 1)) := by
  have hwt := h.wridx
  have hrt := h.rem
  have hframe := outputFrame_of_emit hu (t.rem - 1)
  have hr := h.repeating.of_step hframe hstep
  have hw : u.wridx.toNat = t.wridx.toNat + 1 := (emit_wridx hu).1
  refine ⟨hr, h.frame.trans hframe, by rw [State.setRem_wridx]; omega, ?_, ?_, fun j => ?_⟩
  · rw [State.setRem_rem, toNat_sub_one hrem]
    omega
  · rw [if_neg (Nat.succ_ne_zero k)]
    exact hr.decode.last_byte (by rw [State.setRem_wridx]; omega)
  · change outImage u j = _
    rw [outImage_emit h.repeating.at_phase.inv.omem_wf hu, h.source hd hback, h.image]
    by_cases hj : j = t.wridx.toNat
    · rw [if_pos hj, if_pos (by omega), hj, hwt, Nat.add_sub_cancel_left]
    · rw [if_neg hj]
      exact if_congr (by omega) rfl rfl

/-- A run with one step more at its end. -/
theorem runs_snoc (h : runs k s t) (hstep : step t = .next u) : runs (k + 1) s u := by
  induction k generalizing s with
  | zero =>
    obtain rfl : s = t := h
    exact ⟨u, hstep, rfl⟩
  | succ k ih =>
    obtain ⟨v, hv, hrest⟩ := h
    exact ⟨v, hv, ih hrest⟩

/-- As long as bytes remain, the buffer has room and the output reaches back far enough, a step emits a
byte. -/
theorem Repeating.exists_repeated (h : Repeating s) (hrem : k ≤ s.rem.toNat)
    (hroom : s.wridx.toNat + k ≤ s.osize.toNat) (hback : 1 ≤ k → backDistance s ≤ s.wridx.toNat) :
    ∃ t, runs k s t ∧ Repeated k s t := by
  induction k with
  | zero => exact ⟨s, rfl, .refl h⟩
  | succ k ih =>
    obtain ⟨t, hruns, ht⟩ := ih (by omega) (by omega) fun _ => hback (by omega)
    have hback := hback (by omega)
    obtain ⟨v, hstep, hv⟩ := ht.repeating.exists_step
    have hwt := ht.wridx
    have hrt := ht.rem
    have hot := congrArg BitVec.toNat ht.osize_eq
    have hdt := ht.backDistance_eq
    cases hv with
    | byte hne _ _ u hu =>
      exact ⟨_, runs_snoc hruns hstep, ht.succ h.one_le_backDistance hback hne hu hstep⟩
    | _ => omega

/-! ### The whole symbol from its first emission step -/

/-- With room for every byte the symbol emits them all and one step more leaves it (D22). -/
theorem Repeating.runs_leave (h : Repeating s) (hback : s.rem.toNat = 0 ∨ backDistance s ≤ s.wridx.toNat)
    (hroom : s.wridx.toNat + s.rem.toNat ≤ s.osize.toNat) :
    ∃ t, runs (s.rem.toNat + 1) s (t.setPhase .readSymbol) ∧ Repeated s.rem.toNat s t := by
  obtain ⟨t, hruns, ht⟩ := h.exists_repeated le_rfl hroom fun _ => by omega
  obtain ⟨v, hstep, hv⟩ := ht.repeating.exists_step
  have hrt := ht.rem
  cases hv with
  | leave => exact ⟨t, runs_snoc hruns hstep, ht⟩
  | _ => omega

/-- The first byte has no source (R224, R225). -/
theorem Repeating.step_noSource (h : Repeating s) (hrem : s.rem.toNat ≠ 0)
    (hback : s.wridx.toNat < backDistance s) :
    step s = .next (trapped (.corruptStream (backDetail s)) s) := by
  obtain ⟨v, hstep, hv⟩ := h.exists_step
  cases hv with
  | noSource => exact hstep
  | _ => omega

/-- With too little room the symbol fills the buffer and takes `OUTPUT_OVERRUN` (R223). -/
theorem Repeating.runs_noRoom (h : Repeating s) (hback : backDistance s ≤ s.wridx.toNat)
    (hroom : s.osize.toNat < s.wridx.toNat + s.rem.toNat) :
    ∃ t, runs (s.osize.toNat - s.wridx.toNat + 1) s (trapped (.corruptStream .outputOverrun) t) ∧
      t.wridx = s.osize := by
  have hle := h.decode.lanes.wridx_le
  obtain ⟨t, hruns, ht⟩ := h.exists_repeated (k := s.osize.toNat - s.wridx.toNat) (by omega) (by omega)
    fun _ => hback
  obtain ⟨v, hstep, hv⟩ := ht.repeating.exists_step
  have hwt := ht.wridx
  have hrt := ht.rem
  have hot := congrArg BitVec.toNat ht.osize_eq
  have hdt := ht.backDistance_eq
  cases hv with
  | noRoom => exact ⟨t, runs_snoc hruns hstep, BitVec.eq_of_toNat_eq (by omega)⟩
  | _ => omega

/-! ### A `RUN` -/

/-- The bytes of a `RUN` are copies of `LASTB` (R148). -/
theorem Repeated.image_of_emitRun (h : Repeated k s t) (hs : Repeating s) (hp : s.phase = .emitRun)
    (hback : k = 0 ∨ 1 ≤ s.wridx.toNat) (j : Nat) :
    outImage t j =
      if s.wridx.toNat ≤ j ∧ j < s.wridx.toNat + k then s.lastb else outImage s j := by
  rw [h.image, backDistance_of_emitRun hp]
  split
  · rw [Nat.mod_one, Nat.add_zero, hs.decode.last_byte (by omega)]
  · rfl

/-- A `RUN` leaves `LASTB` at its value (R148). -/
theorem Repeated.lastb_of_emitRun (h : Repeated k s t) (hs : Repeating s) (hp : s.phase = .emitRun)
    (hback : k = 0 ∨ 1 ≤ s.wridx.toNat) : t.lastb = s.lastb := by
  have hw := h.wridx
  rw [h.lastb]
  split
  · rfl
  · rw [h.image_of_emitRun hs hp hback, if_pos (by omega)]

end

/-- Settles O20: a `READ_SYMBOL` step, then `EMIT_RUN` steps, a repetition from one byte back. -/
theorem runWholeEffect : Obligations.RunWholeEffect := by
  intro s p xa sr xb hinv hp hm hw hdec
  have h : EngineAt .readSymbol s := ⟨hinv, hp, hm, hw⟩
  refine ⟨h.step_payloadOverrun hdec nofun, fun hfit hback hroom => ?_,
    fun hfit hcount hback => ?_, fun hfit hback hroom => ?_⟩
  all_goals
    obtain ⟨c, l, k, r, hstep, hpos⟩ := h.step_latch hdec nofun hfit
    have hrep : Repeating _ := ⟨h.of_step hstep rfl, .inl rfl⟩
  · obtain ⟨t, hruns, ht⟩ := hrep.runs_leave hback hroom
    obtain ⟨herr, hlitb, hpos'⟩ := ht.unchanged
    exact ⟨_, ⟨_, hstep, hruns⟩, rfl, ht.sameCall, herr, hlitb, hpos'.trans hpos,
      ht.lastb_of_emitRun hrep rfl hback, ht.wridx, ht.image_of_emitRun hrep rfl hback⟩
  · have hstep' := hrep.step_noSource hcount (Nat.lt_one_iff.mpr hback)
    rw [backDetail_of_emitRun rfl] at hstep'
    exact ⟨_, ⟨_, hstep, _, hstep', rfl⟩, rfl, rfl⟩
  · obtain ⟨t, hruns, ht⟩ := hrep.runs_noRoom hback hroom
    exact ⟨_, ⟨_, hstep, hruns⟩, rfl, rfl, ht⟩

/-- Settles O21: a `READ_SYMBOL` step, then `EMIT_COPY` steps, a repetition from `2 * SYM` bytes back. -/
theorem copyWholeEffect : Obligations.CopyWholeEffect := by
  intro s p xa sr xb hinv hp hm hw hdec
  have h : EngineAt .readSymbol s := ⟨hinv, hp, hm, hw⟩
  have hsym := decode_copy_sym hdec
  refine ⟨⟨hsym.1, by omega⟩, h.step_payloadOverrun hdec nofun, fun hfit hback hroom => ?_,
    fun hfit hcount hback => ?_, fun hfit hback hroom => ?_⟩
  all_goals
    obtain ⟨c, l, k, r, hstep, hpos⟩ := h.step_latch hdec nofun hfit
    have hrep : Repeating _ := ⟨h.of_step hstep rfl, .inr rfl⟩
  · obtain ⟨t, hruns, ht⟩ := hrep.runs_leave hback hroom
    obtain ⟨herr, hlitb, hpos'⟩ := ht.unchanged
    exact ⟨_, ⟨_, hstep, hruns⟩, rfl, ht.sameCall, herr, hlitb, hpos'.trans hpos, ht.wridx, ht.lastb,
      ht.image⟩
  · have hstep' := hrep.step_noSource hcount hback
    rw [backDetail_of_emitCopy rfl] at hstep'
    exact ⟨_, ⟨_, hstep, _, hstep', rfl⟩, rfl, rfl⟩
  · obtain ⟨t, hruns, ht⟩ := hrep.runs_noRoom hback hroom
    exact ⟨_, ⟨_, hstep, hruns⟩, rfl, rfl, ht⟩

end Sys2Proof.Safety

/-! ## One emission step (R176 to R178)

The cases of `RepeatStep` one by one, each under its own condition; `EMIT_RUN` and `EMIT_COPY` differ only in
`backDistance` and `backDetail`. -/

namespace Sys2Proof.Safety

open Sys2Proof.Machine

section
variable {s : State}

/-- With no byte left the step leaves the symbol (R176, R177, D22). -/
theorem Repeating.step_leave (h : Repeating s) (hrem : s.rem = 0) :
    step s = .next (s.setPhase .readSymbol) := by
  obtain ⟨t, hstep, ht⟩ := h.exists_step
  have hzero : s.rem.toNat = 0 := congrArg BitVec.toNat hrem
  cases ht with
  | leave => exact hstep
  | _ => contradiction

/-- A byte with a source but no room takes `OUTPUT_OVERRUN` (R223, R225). -/
theorem Repeating.step_noRoom (h : Repeating s) (hrem : s.rem.toNat ≠ 0)
    (hback : backDistance s ≤ s.wridx.toNat) (hfull : s.wridx = s.osize) :
    step s = .next (trapped (.corruptStream .outputOverrun) s) := by
  obtain ⟨t, hstep, ht⟩ := h.exists_step
  have hend : s.wridx.toNat = s.osize.toNat := congrArg BitVec.toNat hfull
  cases ht with
  | noRoom => exact hstep
  | _ => omega

/-- A byte with a source and room for it is appended to the output (R171, R176, R177). -/
theorem Repeating.step_byte (h : Repeating s) (hrem : s.rem.toNat ≠ 0)
    (hback : backDistance s ≤ s.wridx.toNat) (hroom : s.wridx ≠ s.osize) :
    ∃ a m, Emitted s (outImage s (s.wridx.toNat - backDistance s)) a m ∧ step s = .next { s with
      wridx := s.wridx + 1, acc := a, omem := m, rem := s.rem - 1
      lastb := outImage s (s.wridx.toNat - backDistance s) } := by
  obtain ⟨t, hstep, ht⟩ := h.exists_step
  have hle := h.decode.lanes.wridx_le
  have hne : s.wridx.toNat ≠ s.osize.toNat := BitVec.toNat_ne.mp hroom
  cases ht with
  | byte _ _ _ u hu =>
    obtain ⟨a, m, hemitted, rfl⟩ := emitted_of_emit h.at_phase.inv.omem_wf hu
    exact ⟨a, m, hemitted, hstep⟩
  | _ => omega

end

/-- Settles O16, by whether the buffer has room. -/
theorem emitLiteralAppends : Obligations.EmitLiteralAppends := by
  intro s hinv hp hm hw
  have h : EngineAt .emitLiteral s := ⟨hinv, hp, hm, hw⟩
  refine ⟨fun hroom => ?_, fun hfull => h.step_emitLiteral_overrun hfull.ge⟩
  obtain ⟨u, hu, hstep⟩ := h.step_emitLiteral_emit hroom
  obtain ⟨a, m, hemitted, rfl⟩ := emitted_of_emit hinv.omem_wf hu
  exact ⟨a, m, hemitted, hstep⟩

/-- Settles O17: a repetition from one byte back, where the invariant has `LASTB`. -/
theorem emitRunStepCases : Obligations.EmitRunStepCases := by
  intro s hinv hp hm hw
  have h : Repeating s := ⟨⟨hinv, rfl, hm, hw⟩, .inl hp⟩
  have hdist := backDistance_of_emitRun hp
  have hdetail := backDetail_of_emitRun hp
  have hback (hne : s.wridx ≠ 0) : 1 ≤ s.wridx.toNat :=
    Nat.one_le_iff_ne_zero.mpr (BitVec.toNat_ne.mp hne)
  refine ⟨h.step_leave, fun hrem hzero => ?_, fun hrem hne hfull => ?_, fun hrem hne hroom => ?_⟩
  · have hstep := h.step_noSource (BitVec.toNat_ne.mp hrem) (by rw [hdist, hzero]; decide)
    rwa [hdetail] at hstep
  · exact h.step_noRoom (BitVec.toNat_ne.mp hrem) (hdist ▸ hback hne) hfull
  · have hlast := h.decode.last_byte (hback hne)
    have hbyte := h.step_byte (BitVec.toNat_ne.mp hrem) (hdist ▸ hback hne) hroom
    rwa [hdist, ← hlast] at hbyte

/-- Settles O18: a repetition from `2 * SYM` bytes back. -/
theorem emitCopyStepCases : Obligations.EmitCopyStepCases := by
  intro s hinv hp hm hw
  have h : Repeating s := ⟨⟨hinv, rfl, hm, hw⟩, .inr hp⟩
  rw [← backDistance_of_emitCopy hp]
  refine ⟨h.step_leave, fun hrem hback => ?_, fun hrem hback hfull => ?_, fun hrem hback hroom => ?_⟩
  · have hstep := h.step_noSource (BitVec.toNat_ne.mp hrem) hback
    rwa [backDetail_of_emitCopy hp] at hstep
  · exact h.step_noRoom (BitVec.toNat_ne.mp hrem) hback hfull
  · exact h.step_byte (BitVec.toNat_ne.mp hrem) hback hroom

end Sys2Proof.Safety

/-! ## `VALIDATE`: the checks in their order (R193) -/

namespace Sys2Proof.Machine

section
variable {s : State} {d : FormatDetail}

/-- Every check of `VALIDATE` passes (R193). -/
structure ChecksPass (s : State) : Prop where
  aligned : s.inLen.toNat % 4 = 0
  words : 5 < s.inLen.toNat / 4
  head : s.imem.readWord 0 = s.par.signature
  tail : s.imem.readWord (4 * (s.inLen.toNat / 4 - 1)) = s.par.signature

/-- A container fails at one of the checks or passes them all. -/
theorem failsAt_or_checksPass (s : State) : (∃ d, failsAt s d) ∨ ChecksPass s := by
  by_cases h4 : s.inLen.toNat % 4 = 0
  · by_cases h5 : s.inLen.toNat / 4 ≤ 5
    · exact .inl ⟨.tooFewWords, h4, h5⟩
    by_cases hhead : s.imem.readWord 0 = s.par.signature
    · by_cases htail : s.imem.readWord (4 * (s.inLen.toNat / 4 - 1)) = s.par.signature
      · exact .inr ⟨h4, by omega, hhead, htail⟩
      · exact .inl ⟨.badTailSignature, h4, by omega, hhead, htail⟩
    · exact .inl ⟨.badHeadSignature, h4, by omega, hhead⟩
  · exact .inl ⟨.lenMisaligned, h4⟩

/-- A container longer than IMEM is refused before any check (R66, log 12). -/
theorem validateStep_of_tooLong (hin : s.par.inCap < s.inLen.toNat) :
    validateStep s = .refused .containerExceedsInCap := by
  unfold validateStep
  rw [if_pos hin]
  rfl

/-- The checks that read the container, of which IMEM holds all six words and more (R193). -/
theorem validateWords_eq (hin : s.inLen.toNat ≤ s.par.inCap) (h5 : 5 < s.inLen.toNat / 4) :
    validateWords s =
      if s.imem.readWord 0 ≠ s.par.signature then raiseFormat .badHeadSignature
      else if s.imem.readWord (4 * (s.inLen.toNat / 4 - 1)) ≠ s.par.signature then
        raiseFormat .badTailSignature
      else if s.par.outCap < (s.imem.readWord 8).toNat then .error (.refusal .outputExceedsOutCap)
      else .ok ((s.setContainer (BitVec.ofNat 30 (s.inLen.toNat / 4)) (s.imem.readWord 8)).setPhase
        .prepare) := by
  unfold validateWords wordCount
  rw [inWord_eq (by omega), inWord_eq (by omega), inWord_eq (by omega)]
  rfl

/-- `VALIDATE` of a container that IMEM can hold, as one chain of checks (R193). -/
theorem validateStep_eq (hin : s.inLen.toNat ≤ s.par.inCap) :
    validateStep s = settle s
      (if s.inLen.toNat % 4 ≠ 0 then raiseFormat .lenMisaligned
      else if s.inLen.toNat / 4 ≤ 5 then raiseFormat .tooFewWords
      else validateWords s) := by
  unfold validateStep wordCount
  rw [if_neg (by omega)]

/-- The first check that fails raises its detail. -/
theorem validateStep_of_failsAt (hin : s.inLen.toNat ≤ s.par.inCap) (hd : failsAt s d) :
    validateStep s = .next (trapped (.formatError d) s) := by
  rw [validateStep_eq hin]
  cases d with
  | lenMisaligned =>
    have h4 : s.inLen.toNat % 4 ≠ 0 := hd
    rw [if_pos h4]
    rfl
  | tooFewWords =>
    obtain ⟨h4, h5⟩ := hd
    rw [if_neg (not_not.mpr h4), if_pos h5]
    rfl
  | badHeadSignature =>
    obtain ⟨h4, h5, hhead⟩ := hd
    rw [if_neg (not_not.mpr h4), if_neg (by omega), validateWords_eq hin h5, if_pos hhead]
    rfl
  | badTailSignature =>
    obtain ⟨h4, h5, hhead, htail⟩ := hd
    rw [if_neg (not_not.mpr h4), if_neg (by omega), validateWords_eq hin h5, if_neg (not_not.mpr hhead),
      if_pos htail]
    rfl

/-- With every check passed only word 2 decides: above `OUT_CAP` it is refused, else latched. -/
theorem validateStep_of_checksPass (hin : s.inLen.toNat ≤ s.par.inCap) (h : ChecksPass s) :
    validateStep s =
      if s.par.outCap < (s.imem.readWord 8).toNat then .refused .outputExceedsOutCap
      else .next ((s.setContainer (BitVec.ofNat 30 (s.inLen.toNat / 4)) (s.imem.readWord 8)).setPhase
        .prepare) := by
  rw [validateStep_eq hin, if_neg (not_not.mpr h.aligned), if_neg (Nat.not_le.mpr h.words),
    validateWords_eq hin h.words, if_neg (not_not.mpr h.head), if_neg (not_not.mpr h.tail),
    apply_ite (settle s)]
  rfl

theorem step_validate (hp : s.phase = .validate) (hm : s.hostMoves = []) (hw : wfTable s.par.table = true) :
    step s = validateStep s :=
  step_eq_of_phase hm hw (by unfold engineStep; rw [hp])

end

/-- Settles O24: one case of `failsAt` for each check, and the container that passes them all. -/
theorem validateChecksInOrder : Obligations.ValidateChecksInOrder := by
  intro s hp hm hw hin
  rw [step_validate hp hm hw]
  refine ⟨fun h4 => validateStep_of_failsAt (d := .lenMisaligned) hin h4,
    fun h4 h5 => validateStep_of_failsAt (d := .tooFewWords) hin ⟨h4, h5⟩,
    fun h4 h5 hhead => validateStep_of_failsAt (d := .badHeadSignature) hin ⟨h4, h5, hhead⟩,
    fun h4 h5 hhead htail => validateStep_of_failsAt (d := .badTailSignature) hin ⟨h4, h5, hhead, htail⟩,
    fun h4 h5 hhead htail hout => ?_⟩
  rw [validateStep_of_checksPass hin ⟨h4, h5, hhead, htail⟩, if_neg (Nat.not_lt.mpr hout)]
  rfl

end Sys2Proof.Machine

/-! ## `PREPARE` (R194) -/

namespace Sys2Proof.Safety

open Sys2Proof.Machine

/-- What `PREPARE` leaves: the first window, no output, and OMEM zero below `OSIZE` (R194). -/
def prepared (s : State) : State :=
  ((s.setWindow (s.imem.readWord 12) (s.imem.readWord 16) 32 5).clearOutput
    (s.omem.zeroFill s.osize.toNat)).setPhase .readSymbol

theorem step_prepare {s : State} (hp : s.phase = .prepare) (hm : s.hostMoves = [])
    (hw : wfTable s.par.table = true) (hin : 20 ≤ s.par.inCap) (hout : s.osize.toNat ≤ s.par.outCap) :
    step s = .next (prepared s) := by
  rw [step_eq_of_phase hm hw (o := prepareStep s) (by unfold engineStep; rw [hp])]
  unfold prepareStep zeroFillOutput
  rw [if_pos hout, ok_bind, initWindow_eq hin]
  rfl

theorem prepared_streamPos (s : State) : (prepared s).streamPos = 0 := by
  simp [State.streamPos, prepared]

theorem prepared_omem (s : State) (a : Nat) :
    (prepared s).omem.read a = if a < s.osize.toNat then 0 else s.omem.read a :=
  Memory.read_zeroFill s.omem s.osize.toNat a

/-- `PREPARE` establishes `INV_ACC` (R173, R194). -/
theorem laneInv_prepared (s : State) : LaneInv (prepared s) where
  wridx_le := Nat.zero_le _
  free_lanes k _ _ := byteOf_zero k
  omem_zero j _ hj := (prepared_omem s j).trans (if_pos hj)

/-- `PREPARE` establishes `INV_WINDOW` for a container of six words or more (R25, R194). -/
theorem windowInv_prepared {s : State} (h6 : 6 ≤ s.n.toNat) : WindowInv (prepared s) :=
  (windowInv_init h6).congr rfl rfl rfl rfl rfl rfl

/-- Settles O25, by what `PREPARE` leaves. -/
theorem prepareInitialises : Obligations.PrepareInitialises := by
  intro s hp hm hw hin hout
  have hstep := step_prepare hp hm hw hin hout
  refine ⟨s.omem.zeroFill s.osize.toNat, hstep, prepared_omem s, fun t ht => ?_⟩
  obtain rfl : prepared s = t := Host.Outcome.next.inj (hstep.symm.trans ht)
  exact ⟨prepared_streamPos s, laneInv_prepared s, windowInv_prepared⟩

end Sys2Proof.Safety

/-! ## The transitions of `PHASE` (R191) -/

namespace Sys2Proof.Machine

/-- The engine is busy or halted (R34, R191). -/
theorem not_busy_iff (s : State) : s.busy = false ↔ Safety.halted s := by
  unfold State.busy Safety.halted
  cases s.phase <;> simp [Phase.busy]

/-- Settles O26: the engine's step in a halted phase. -/
theorem haltedStandsStill : Obligations.HaltedStandsStill := by
  intro s h hm
  rw [step_engine hm]
  unfold engineStep
  rcases h with hp | hp | hp <;> rw [hp]

section
variable {s t u : State} {i : Instr} {b : Byte}

/-- A symbol is an `END` or one that consumes its bits (R141). -/
theorem endSym_or_ne (i : Instr) :
    (∃ p xa sr xb, i = .endSym p xa sr xb) ∨ ∀ p xa sr xb, i ≠ .endSym p xa sr xb := by
  cases i with
  | lit | run | copy => exact .inr nofun
  | endSym p xa sr xb => exact .inl ⟨p, xa, sr, xb, rfl⟩

/-- The phase in which a symbol's bytes are emitted; an `END` emits none (R141, R191). -/
def emissionPhase : Instr → Phase
  | .lit _ => .emitLiteral
  | .run _ _ _ _ => .emitRun
  | .copy _ _ _ _ => .emitCopy
  | .endSym _ _ _ _ => .terminate

theorem latch_phase (hi : ∀ p xa sr xb, i ≠ .endSym p xa sr xb) (t : CodeTable) (u : State) :
    (latch t i u).phase = emissionPhase i := by
  cases i with
  | lit | run | copy => rfl
  | endSym p xa sr xb => exact absurd rfl (hi p xa sr xb)

/-- The operands are no part of the stream position and of the output. -/
theorem latch_frame (t : CodeTable) (i : Instr) (u : State) :
    (latch t i u).streamPos = u.streamPos ∧ (latch t i u).wridx = u.wridx ∧ (latch t i u).acc = u.acc ∧
      (latch t i u).omem = u.omem := by
  cases i <;> exact ⟨rfl, rfl, rfl, rfl⟩

/-- Where a symbol other than `END` leads: `PAYLOAD_OVERRUN` if it needs a word that is not there, else the
phase of its emission (R124, R141). -/
theorem exec_next_phase (hi : ∀ p xa sr xb, i ≠ .endSym p xa sr xb) (h : exec i s = .next t) :
    (s.cnt.toNat < symbolLength s.par.table i ∧ s.n.toNat ≤ s.rdcur.toNat + 1 ∧
        t = trapped (.corruptStream .payloadOverrun) s) ∨
      ((symbolLength s.par.table i ≤ s.cnt.toNat ∨ s.rdcur.toNat + 1 < s.n.toNat) ∧
        t.phase = emissionPhase i) := by
  rw [exec_eq_consume_latch hi, settle_eq_next] at h
  rcases h with h | ⟨e, he, rfl⟩
  · obtain ⟨u, hu, h⟩ := bind_eq_ok.mp h
    cases h
    obtain ⟨_, _, ⟨hc, _⟩ | ⟨_, hn, _, _⟩⟩ := consume_eq_ok hu
    · exact .inr ⟨.inl hc, latch_phase hi _ u⟩
    · exact .inr ⟨.inr hn, latch_phase hi _ u⟩
  · obtain he | ⟨_, _, he⟩ := bind_eq_error.mp he
    · obtain ⟨_, _, hc, hn, rfl⟩ := consume_eq_raised he
      exact .inl ⟨hc, hn, rfl⟩
    · exact nomatch he

theorem emissionPhase_cases (hi : ∀ p xa sr xb, i ≠ .endSym p xa sr xb) :
    (∃ b, i = .lit b) ∧ emissionPhase i = .emitLiteral ∨
      (∃ p xa sr xb, i = .run p xa sr xb) ∧ emissionPhase i = .emitRun ∨
      (∃ p xa sr xb, i = .copy p xa sr xb) ∧ emissionPhase i = .emitCopy := by
  cases i with
  | lit b => exact .inl ⟨⟨b, rfl⟩, rfl⟩
  | run p xa sr xb => exact .inr (.inl ⟨⟨p, xa, sr, xb, rfl⟩, rfl⟩)
  | copy p xa sr xb => exact .inr (.inr ⟨⟨p, xa, sr, xb, rfl⟩, rfl⟩)
  | endSym p xa sr xb => exact absurd rfl (hi p xa sr xb)

/-- `Emit` leaves `PHASE` alone. -/
theorem emit_phase (hu : emit b s = .ok u) : u.phase = s.phase := by
  obtain ⟨_, _, rfl⟩ := emit_frame hu
  rfl

/-- `Flush` leaves `PHASE` to `END`. -/
theorem execEnd_phase (h : execEnd s = .next t) : t.phase = .terminate := by
  obtain ⟨u, _, rfl⟩ := execEnd_next h
  rfl

end

/-- Settles O27, phase by phase, by what each step can do. -/
theorem phaseTransitions : Obligations.PhaseTransitions := by
  intro s t hm hstep
  rw [step_engine hm] at hstep
  obtain ⟨hb, rfl⟩ | ⟨_, hp⟩ := engineStep_next hstep
  · rcases (not_busy_iff t).mp hb with hp | hp | hp <;> simp only [hp]
  obtain ⟨hp, h⟩ | ⟨hp, h⟩ | ⟨hp, h⟩ | ⟨hp, h⟩ | ⟨hp, h⟩ | ⟨hp, h⟩ := hp <;> simp only [hp]
  · obtain ⟨_, ⟨d, hd, rfl⟩ | ⟨h4, h6, hhead, htail, _, rfl⟩⟩ := validateStep_next h
    · cases d with
      | lenMisaligned => exact .inl ⟨hd, rfl, rfl⟩
      | tooFewWords =>
        obtain ⟨h4, h5⟩ := hd
        exact .inr (.inl ⟨h4, h5, rfl, rfl⟩)
      | badHeadSignature =>
        obtain ⟨h4, h5, hhead⟩ := hd
        exact .inr (.inr (.inl ⟨h4, h5, hhead, rfl, rfl⟩))
      | badTailSignature =>
        obtain ⟨h4, h5, hhead, htail⟩ := hd
        exact .inr (.inr (.inr (.inl ⟨h4, h5, hhead, htail, rfl, rfl⟩)))
    · exact .inr (.inr (.inr (.inr ⟨h4, h6, hhead, htail, rfl⟩)))
  · obtain ⟨_, _, rfl⟩ := prepareStep_next h
    rfl
  · obtain ⟨i, hdec, hexec⟩ := readSymbolStep_next h
    refine ⟨i, hdec, ?_⟩
    obtain ⟨p, xa, sr, xb, rfl⟩ | hi := endSym_or_ne i
    · exact .inl ⟨⟨p, xa, sr, xb, rfl⟩, execEnd_phase hexec⟩
    · obtain ⟨hc, hn, rfl⟩ | ⟨hfits, hphase⟩ := exec_next_phase hi hexec
      · exact .inr ⟨hi, .inl ⟨hc, hn, rfl, rfl⟩⟩
      · exact .inr ⟨hi, .inr ⟨hfits, hphase ▸ emissionPhase_cases hi⟩⟩
  · obtain ⟨u, hu, rfl⟩ | ⟨hfull, rfl⟩ := emitLiteralStep_next h
    · exact .inl ⟨(emit_eq_ok hu).1, rfl⟩
    · exact .inr ⟨hfull, rfl, rfl⟩
  · obtain ⟨h0, rfl⟩ | ⟨h0, hw, u, hu, rfl⟩ | ⟨h0, hw, rfl⟩ | ⟨h0, hw, hfull, rfl⟩ := emitRunStep_next h
    · exact .inl ⟨h0, rfl⟩
    · obtain ⟨_, hwridx, _, hroom⟩ := Safety.emit_wridx hu
      exact .inr (.inr (.inr ⟨h0, hw, hroom, (emit_phase hu).trans hp, hwridx⟩))
    · exact .inr (.inl ⟨h0, hw, rfl, rfl⟩)
    · exact .inr (.inr (.inl ⟨h0, hw, hfull, rfl, rfl⟩))
  · obtain ⟨h0, rfl⟩ | ⟨h0, hw, b, u, _, hu, rfl⟩ | ⟨h0, hw, rfl⟩ | ⟨h0, hw, hfull, rfl⟩ :=
      emitCopyStep_next h
    · exact .inl ⟨h0, rfl⟩
    · obtain ⟨_, hwridx, _, hroom⟩ := Safety.emit_wridx hu
      exact .inr (.inr (.inr ⟨h0, hw, hroom, (emit_phase hu).trans hp, hwridx⟩))
    · exact .inr (.inl ⟨h0, hw, rfl, rfl⟩)
    · exact .inr (.inr (.inl ⟨h0, hw, hfull, rfl, rfl⟩))

end Sys2Proof.Machine

/-! ## What the decompressor's loop does: `decompress` by the first check and by the next symbol (R201) -/

namespace Sys2Proof.Machine

section
variable {c s : State} {d : FormatDetail} {i : Instr} {words osize fuel pos count dist : Nat} {out : List Byte}

theorem decompress_of_failsAt (hw : wfTable c.par.table = true) (hin : c.inLen.toNat ≤ c.par.inCap)
    (hd : failsAt c d) : decompress c = .failed (.formatError d) := by
  unfold decompress
  rw [if_neg (not_not.mpr hw), if_neg (Nat.not_lt.mpr hin)]
  cases d with
  | lenMisaligned =>
    have h4 : c.inLen.toNat % 4 ≠ 0 := hd
    rw [if_pos h4]
  | tooFewWords =>
    obtain ⟨h4, h5⟩ := hd
    rw [if_neg (not_not.mpr h4), if_pos h5]
  | badHeadSignature =>
    obtain ⟨h4, h5, hhead⟩ := hd
    rw [if_neg (not_not.mpr h4), if_neg (Nat.not_le.mpr h5), if_pos hhead]
  | badTailSignature =>
    obtain ⟨h4, h5, hhead, htail⟩ := hd
    rw [if_neg (not_not.mpr h4), if_neg (Nat.not_le.mpr h5), if_neg (not_not.mpr hhead), if_pos htail]

theorem decompress_of_checksPass (hw : wfTable c.par.table = true) (hin : c.inLen.toNat ≤ c.par.inCap)
    (h : ChecksPass c) :
    decompress c =
      if c.par.outCap < (c.imem.readWord 8).toNat then .refused .outputExceedsOutCap
      else decodeLoop c (c.inLen.toNat / 4) (c.imem.readWord 8).toNat
        (decodeBound (c.inLen.toNat / 4)) 0 [] := by
  unfold decompress
  rw [if_neg (not_not.mpr hw), if_neg (Nat.not_lt.mpr hin), if_neg (not_not.mpr h.aligned),
    if_neg (Nat.not_le.mpr h.words), if_neg (not_not.mpr h.head), if_neg (not_not.mpr h.tail)]

theorem decodeLoop_of_endSym {p : BitVec 2} {xa : Word} {sr : BitVec 4} {xb : Word}
    (hdec : decode c.par.table (c.windowAt pos) = .ok (.endSym p xa sr xb)) :
    decodeLoop c words osize (fuel + 1) pos out = .done out := by
  unfold decodeLoop
  rw [hdec]

theorem decodeLoop_of_payloadOverrun (hdec : decode c.par.table (c.windowAt pos) = .ok i)
    (hi : ∀ p xa sr xb, i ≠ .endSym p xa sr xb)
    (hover : 32 * (words - 5) < pos + symbolLength c.par.table i) :
    decodeLoop c words osize (fuel + 1) pos out = .failed (.corruptStream .payloadOverrun) := by
  unfold decodeLoop
  rw [hdec]
  cases i with
  | lit | run | copy => exact if_pos hover
  | endSym p xa sr xb => exact absurd rfl (hi p xa sr xb)

/-- The loop after the bytes of a symbol: it goes on, or it ends with their exception (R201). -/
def loopAfter (c : State) (words osize fuel pos : Nat) : Except CorruptDetail (List Byte) → CallResult
  | .ok out => decodeLoop c words osize fuel pos out
  | .error d => .failed (.corruptStream d)

theorem decodeLoop_of_symbol (hdec : decode c.par.table (c.windowAt pos) = .ok i)
    (hi : ∀ p xa sr xb, i ≠ .endSym p xa sr xb)
    (hfit : pos + symbolLength c.par.table i ≤ 32 * (words - 5)) :
    decodeLoop c words osize (fuel + 1) pos out =
      loopAfter c words osize fuel (pos + symbolLength c.par.table i)
        (appendSymbol c.par.table osize i out) := by
  rw [decodeLoop, hdec]
  cases i with
  | lit | run | copy =>
    refine (if_neg (Nat.not_lt.mpr hfit)).trans ?_
    cases appendSymbol c.par.table osize _ out <;> rfl
  | endSym p xa sr xb => exact absurd rfl (hi p xa sr xb)

/-! ### A `RUN` and a `COPY` as one repetition -/

/-- `count` bytes from `dist` back, each seeing the ones before it; `d` is the exception if the output does
not reach so far back. -/
def appendRepeat (osize dist : Nat) (d : CorruptDetail) : Nat → List Byte → Except CorruptDetail (List Byte)
  | 0, out => .ok out
  | count + 1, out =>
    if out.length < dist then .error d
    else if osize ≤ out.length then .error .outputOverrun
    else appendRepeat osize dist d count (out ++ [out.getD (out.length - dist) 0])

theorem appendCopy_eq_repeat :
    appendCopy osize dist count out = appendRepeat osize dist .backrefBeforeStart count out := by
  induction count generalizing out with
  | zero => rfl
  | succ count ih =>
    unfold appendCopy appendRepeat appendByte
    split
    · rfl
    · split
      · rfl
      · exact ih

theorem appendRun_eq_repeat :
    appendRun osize count out = appendRepeat osize 1 .runWithoutPrevious count out := by
  induction count generalizing out with
  | zero => rfl
  | succ count ih =>
    unfold appendRun appendRepeat appendByte
    simp only [Nat.lt_one_iff]
    split
    · rfl
    · split
      · rfl
      · exact ih

end

end Sys2Proof.Machine

/-! ## The run of one call (R199, R201, R204)

`Represents` ties a state of a decode phase to the stream position and the output of `decompress`. How many
steps a symbol takes depends on these alone, so the number comes before the state in every lemma: two calls on
one container keep step. -/

namespace Sys2Proof.Safety

open Sys2Proof.Machine

section
variable {c s t u : State} {k m d m' d' : Nat}

/-! ### Runs of a busy engine -/

/-- `k` steps of a busy engine lead from `s` to `t`, and `d` of them are `READ_SYMBOL` steps. -/
inductive BusyRun : Nat → Nat → State → State → Prop where
  | refl (s : State) : BusyRun 0 0 s s
  | more {k d : Nat} {s u t : State} (hb : s.busy = true) (hstep : step s = .next u) (hrun : BusyRun k d u t) :
      BusyRun (k + 1) ((if s.phase = .readSymbol then 1 else 0) + d) s t

/-- A step outside `READ_SYMBOL` is no decode step. -/
theorem BusyRun.cons {p : Phase} (hp : s.phase = p) (hbusy : p.busy = true) (hread : p ≠ .readSymbol)
    (hstep : step s = .next u) (h : BusyRun k d u t) : BusyRun (k + 1) d s t := by
  have hrun := BusyRun.more (busy_eq_true_of_phase hp hbusy) hstep h
  rwa [if_neg (hp ▸ hread), Nat.zero_add] at hrun

/-- A `READ_SYMBOL` step is one decode step. -/
theorem BusyRun.consSymbol (hp : s.phase = .readSymbol) (hstep : step s = .next u)
    (h : BusyRun k d u t) : BusyRun (k + 1) (d + 1) s t := by
  have hrun := BusyRun.more (busy_eq_true_of_phase hp rfl) hstep h
  rwa [if_pos hp, Nat.add_comm 1 d] at hrun

theorem BusyRun.trans (h : BusyRun k d s t) (h' : BusyRun m d' t u) : BusyRun (k + m) (d + d') s u := by
  induction h with
  | refl => rwa [Nat.zero_add, Nat.zero_add]
  | more hb hstep _ ih =>
    rw [Nat.succ_add, Nat.add_assoc]
    exact .more hb hstep (ih h')

theorem BusyRun.toRuns (h : BusyRun k d s t) : runs k s t := by
  induction h with
  | refl => rfl
  | more _ hstep _ ih => exact ⟨_, hstep, ih⟩

theorem BusyRun.symbolSteps_eq (h : BusyRun k d s t) : symbolSteps k s = d := by
  induction h with
  | refl => rfl
  | more _ hstep _ ih =>
    unfold symbolSteps
    rw [hstep, ← ih]

/-- No host move comes up while the engine runs. -/
theorem BusyRun.no_moves (h : BusyRun k d s t) (hm : s.hostMoves = []) : t.hostMoves = [] := by
  induction h with
  | refl => exact hm
  | more _ hstep _ ih => exact ih ((engineStep_move (step_engine hm ▸ hstep)).frame.hostMoves.trans hm)

/-- From a halted state with no host move every run stays where it is (R196, R197). -/
theorem runs_of_halted (hh : halted s) (hm : s.hostMoves = []) : runs k s t ↔ s = t := by
  induction k with
  | zero => rfl
  | succ k ih =>
    unfold runs
    rw [haltedStandsStill s hh hm]
    exact ⟨fun ⟨u, hu, h⟩ => ih.mp (Host.Outcome.next.inj hu ▸ h), fun h => ⟨s, rfl, ih.mpr h⟩⟩

/-- A run that ends halted goes at least as far as the engine is busy, and ends where the engine halts. -/
theorem BusyRun.eq_of_runs (h : BusyRun k d s t) (ht : halted t) (htm : t.hostMoves = [])
    (hr : runs m s u) (hu : halted u) : k ≤ m ∧ t = u := by
  induction h generalizing m with
  | refl => exact ⟨Nat.zero_le m, (runs_of_halted ht htm).mp hr⟩
  | more hb hstep _ ih =>
    cases m with
    | zero =>
      obtain rfl : _ = u := hr
      exact absurd hb (by simp [(not_busy_iff _).mpr hu])
    | succ m =>
      obtain ⟨v, hv, hr⟩ := hr
      obtain rfl := Host.Outcome.next.inj (hstep.symm.trans hv)
      obtain ⟨hle, heq⟩ := ih ht htm hr
      exact ⟨Nat.succ_le_succ hle, heq⟩

theorem runs_trans (h : runs k s t) (h' : runs m t u) : runs (k + m) s u := by
  induction k generalizing s with
  | zero =>
    obtain rfl : s = t := h
    rwa [Nat.zero_add]
  | succ k ih =>
    obtain ⟨v, hv, hrest⟩ := h
    rw [Nat.add_right_comm]
    exact ⟨v, hv, ih hrest⟩

/-! ### What a state of the call represents -/

/-- The container, its length and the parameters are those of the call. -/
structure SameContainer (c s : State) : Prop where
  imem : s.imem = c.imem
  inLen : s.inLen = c.inLen
  par : s.par = c.par

theorem SameContainer.of_step (h : SameContainer c s) (hm : s.hostMoves = []) (hstep : step s = .next t) :
    SameContainer c t := by
  have hf := (engineStep_move (step_engine hm ▸ hstep)).frame
  exact ⟨hf.imem.trans h.imem, hf.inLen.trans h.inLen, hf.par.trans h.par⟩

theorem SameContainer.windowAt_eq (h : SameContainer c s) : s.windowAt = c.windowAt := by
  unfold State.windowAt State.streamBit State.streamWord
  rw [h.imem]

/-- `CUR` is the window of the stream at `T` (R25, R91). -/
theorem WindowInv.cur_eq (h : WindowInv s) : s.cur = s.windowAt s.streamPos := by
  refine BitVec.eq_of_getLsbD_eq fun i hi => ?_
  rw [h.cur_bits i hi, State.windowAt, BitVec.getLsbD_ofFnLE]
  simp [hi]

/-- The state is at phase `p` of the call on `c`'s container, at stream position `pos` with the bytes `out` in
its logical output (R45, R91, R180). -/
structure Represents (c : State) (p : Phase) (pos : Nat) (out : List Byte) (s : State) : Prop where
  at_phase : EngineAt p s
  container : SameContainer c s
  pos_eq : s.streamPos = pos
  length_eq : s.wridx.toNat = out.length
  byte_eq : ∀ j < out.length, outImage s j = out.getD j 0

variable {p q : Phase} {pos pos' fuel : Nat} {out : List Byte} {b : Byte} {i : Instr}

theorem Represents.decode (h : Represents c p pos out s) (hp : decoding p = true) : DecodeInv s :=
  h.at_phase.inv.decode (h.at_phase.phase ▸ hp)

/-- What `decompress` reads of the container is what `VALIDATE` has latched (R193). -/
theorem Represents.latched (h : Represents c p pos out s) (hp : decoding p = true) :
    s.n.toNat = c.inLen.toNat / 4 ∧ s.osize = c.imem.readWord 8 := by
  have hcall := (h.decode hp).call
  have hwords := hcall.words_eq
  rw [h.container.inLen] at hwords
  exact ⟨by omega, h.container.imem ▸ hcall.size_eq⟩

/-- A step that leaves the output alone. -/
theorem Represents.of_step (h : Represents c p pos out s) (hstep : step s = .next t) (hq : t.phase = q)
    (hpos : t.streamPos = pos') (hw : t.wridx = s.wridx) (ha : t.acc = s.acc) (hm : t.omem = s.omem) :
    Represents c q pos' out t where
  at_phase := h.at_phase.of_step hstep hq
  container := h.container.of_step h.at_phase.no_moves hstep
  pos_eq := hpos
  length_eq := hw ▸ h.length_eq
  byte_eq := outImage_congr hw ha hm ▸ h.byte_eq

/-- A step that emits `b` appends it to the output (R171, R180). -/
theorem Represents.of_emit (h : Represents c p pos out s) (hu : emit b s = .ok u) (hstep : step s = .next t)
    (hq : t.phase = q) (hpos : t.streamPos = u.streamPos) (hw : t.wridx = u.wridx) (ha : t.acc = u.acc)
    (hm : t.omem = u.omem) : Represents c q pos (out ++ [b]) t where
  at_phase := h.at_phase.of_step hstep hq
  container := h.container.of_step h.at_phase.no_moves hstep
  pos_eq := by
    obtain ⟨_, _, rfl⟩ := emit_frame hu
    exact hpos.trans h.pos_eq
  length_eq := by
    rw [List.length_append, List.length_singleton, ← h.length_eq, hw]
    exact (emit_wridx hu).1
  byte_eq j hj := by
    rw [List.length_append, List.length_singleton] at hj
    rw [outImage_congr hw ha hm, outImage_emit h.at_phase.inv.omem_wf hu, h.length_eq]
    split
    next hlast => simp [hlast]
    next hne => rw [h.byte_eq j (by omega), List.getD_append _ _ _ _ (by omega)]

/-! ### The bytes of a symbol -/

/-- The call has ended with the exception `e` (R226). -/
def FailedWith (e : Exc) (t : State) : Prop := t.phase = .error ∧ t.errcode = e.code

/-- The emission of a symbol's bytes ends at the next `READ_SYMBOL`, or with their exception. -/
def EmissionEnds (c : State) (pos : Nat) : Except CorruptDetail (List Byte) → State → Prop
  | .ok out, t => Represents c .readSymbol pos out t
  | .error d, t => FailedWith (.corruptStream d) t

/-- A literal's byte is appended in one step (R178). -/
theorem literal_emission (c : State) (pos : Nat) (out : List Byte) (b : Byte)
    (h : Represents c .emitLiteral pos out s) (hb : s.litb = b) :
    ∃ t, BusyRun 1 0 s t ∧ EmissionEnds c pos (appendByte (c.imem.readWord 8).toNat b out) t := by
  have hosize := (h.latched rfl).2
  have hlength := h.length_eq
  unfold appendByte
  rw [← hosize, ← hlength, ← hb]
  by_cases hfull : s.osize.toNat ≤ s.wridx.toNat
  · have hstep := h.at_phase.step_emitLiteral_overrun hfull
    rw [if_pos hfull]
    exact ⟨_, .cons h.at_phase.phase rfl (by decide) hstep (.refl _), rfl, rfl⟩
  · obtain ⟨u, hu, hstep⟩ := h.at_phase.step_emitLiteral_emit (by omega)
    rw [if_neg hfull]
    exact ⟨_, .cons h.at_phase.phase rfl (by decide) hstep (.refl _), h.of_emit hu hstep rfl rfl rfl rfl rfl⟩

/-- A step of a repetition is no decode step. -/
theorem Repeating.cons (h : Repeating s) (hstep : step s = .next u) (hrun : BusyRun k d u t) :
    BusyRun (k + 1) d s t := by
  rcases h.phase with hp | hp <;> exact .cons hp rfl (by decide) hstep hrun

theorem Repeating.decoding (h : Repeating s) : decoding s.phase = true := by
  rcases h.phase with hp | hp <;> rw [hp] <;> rfl

/-- The step that emits a byte of a `RUN` or a `COPY` leaves the rest of them to be emitted. -/
theorem Repeating.byte_frame (h : Repeating s) (hu : emit b s = .ok u)
    (hstep : step s = .next (u.setRem (s.rem - 1))) :
    Repeating (u.setRem (s.rem - 1)) ∧ backDistance (u.setRem (s.rem - 1)) = backDistance s ∧
      backDetail (u.setRem (s.rem - 1)) = backDetail s := by
  have hframe := outputFrame_of_emit hu (s.rem - 1)
  refine ⟨h.of_step hframe hstep, ?_⟩
  obtain ⟨_, _, _, _, _, ht⟩ := hframe
  rw [ht]
  exact ⟨rfl, rfl⟩

/-- The bytes of a `RUN` or a `COPY` are appended, a step for each and one more to leave (R176, R177, D22). -/
theorem repeat_emission (c : State) (pos dist : Nat) (e : CorruptDetail) (count : Nat) (out : List Byte) :
    ∃ k, ∀ s, Represents c s.phase pos out s → Repeating s → s.rem.toNat = count → backDistance s = dist →
      backDetail s = e → ∃ t, BusyRun k 0 s t ∧
        EmissionEnds c pos (appendRepeat (c.imem.readWord 8).toNat dist e count out) t := by
  induction count generalizing out with
  | zero =>
    refine ⟨1, fun s h hrep hrem _ _ => ?_⟩
    have hstep := hrep.step_leave (BitVec.eq_of_toNat_eq hrem)
    exact ⟨_, hrep.cons hstep (.refl _), h.of_step hstep rfl h.pos_eq rfl rfl rfl⟩
  | succ count ih =>
    unfold appendRepeat
    by_cases hback : out.length < dist
    · simp only [if_pos hback]
      refine ⟨1, fun s h hrep hrem hdist hdetail => ?_⟩
      have hstep := hrep.step_noSource (by omega) (by rw [h.length_eq, hdist]; exact hback)
      rw [hdetail] at hstep
      exact ⟨_, hrep.cons hstep (.refl _), rfl, rfl⟩
    simp only [if_neg hback]
    by_cases hfull : (c.imem.readWord 8).toNat ≤ out.length
    · simp only [if_pos hfull]
      refine ⟨1, fun s h hrep hrem hdist _ => ?_⟩
      have hlength := h.length_eq
      have hle := hrep.decode.lanes.wridx_le
      rw [← (h.latched hrep.decoding).2] at hfull
      have hstep := hrep.step_noRoom (by omega) (by omega) (BitVec.eq_of_toNat_eq (by omega))
      exact ⟨_, hrep.cons hstep (.refl _), rfl, rfl⟩
    · simp only [if_neg hfull]
      obtain ⟨k, hk⟩ := ih (out ++ [out.getD (out.length - dist) 0])
      refine ⟨k + 1, fun s h hrep hrem hdist hdetail => ?_⟩
      have hlength := h.length_eq
      have hpos := hrep.one_le_backDistance
      rw [← (h.latched hrep.decoding).2] at hfull
      obtain ⟨v, hstep, hv⟩ := hrep.exists_step
      cases hv with
      | byte hne _ _ u hu =>
        obtain ⟨hrep', hdist', hdetail'⟩ := hrep.byte_frame hu hstep
        have hrem' : (u.setRem (s.rem - 1)).rem.toNat = count := by
          rw [State.setRem_rem, toNat_sub_one hne]
          omega
        rw [hlength, hdist, h.byte_eq _ (by omega)] at hu
        obtain ⟨t, hrun, ht⟩ := hk _ (h.of_emit hu hstep rfl rfl rfl rfl rfl) hrep' hrem'
          (hdist'.trans hdist) (hdetail'.trans hdetail)
        exact ⟨t, hrep.cons hstep hrun, ht⟩
      | _ => omega

/-- The bytes of a symbol are appended after its operands are latched (R142, R148, R149). -/
theorem symbol_emission (c : State) (pos : Nat) (out : List Byte)
    (hi : ∀ p xa sr xb, i ≠ .endSym p xa sr xb) :
    ∃ k, ∀ u, Represents c (emissionPhase i) pos out (latch c.par.table i u) →
      ∃ t, BusyRun k 0 (latch c.par.table i u) t ∧
        EmissionEnds c pos (appendSymbol c.par.table (c.imem.readWord 8).toNat i out) t := by
  cases i with
  | lit b => exact ⟨1, fun u h => literal_emission c pos out b h rfl⟩
  | run p xa sr xb =>
    simp only [appendSymbol, appendRun_eq_repeat]
    obtain ⟨k, hk⟩ := repeat_emission c pos 1 .runWithoutPrevious (repeatCount c.par.table p xa sr).toNat out
    exact ⟨k, fun u h => hk _ h ⟨h.at_phase, .inl rfl⟩ rfl rfl rfl⟩
  | copy p xa sr xb =>
    simp only [appendSymbol, appendCopy_eq_repeat]
    obtain ⟨k, hk⟩ := repeat_emission c pos (2 * (symValue c.par.table sr xb).toNat) .backrefBeforeStart
      (repeatCount c.par.table p xa sr).toNat out
    exact ⟨k, fun u h => hk _ h ⟨h.at_phase, .inr rfl⟩ rfl rfl rfl⟩
  | endSym p xa sr xb => exact absurd rfl (hi p xa sr xb)

/-! ### The loop -/

/-- The engine decodes the symbol of the stream at `pos` (R91, R141). -/
theorem Represents.decode_eq (h : Represents c .readSymbol pos out s)
    (hdec : Sys2Proof.decode c.par.table (c.windowAt pos) = .ok i) :
    Sys2Proof.decode s.par.table s.cur = .ok i := by
  rw [(h.decode rfl).window.cur_eq, h.container.windowAt_eq, h.container.par, h.pos_eq, hdec]

/-- A symbol whose bits the stream has: its `READ_SYMBOL` step, then its bytes. -/
theorem symbol_runs (hi : ∀ p xa sr xb, i ≠ .endSym p xa sr xb)
    (hdec : Sys2Proof.decode c.par.table (c.windowAt pos) = .ok i)
    (hfit : pos + symbolLength c.par.table i ≤ 32 * (c.inLen.toNat / 4 - 5)) :
    ∃ k, ∀ s, Represents c .readSymbol pos out s → ∃ t, BusyRun k 1 s t ∧
      EmissionEnds c (pos + symbolLength c.par.table i)
        (appendSymbol c.par.table (c.imem.readWord 8).toNat i out) t := by
  obtain ⟨k, hk⟩ := symbol_emission c (pos + symbolLength c.par.table i) out hi
  refine ⟨k + 1, fun s h => ?_⟩
  obtain ⟨x, l, n, r, hstep, hpos⟩ := h.at_phase.step_latch (h.decode_eq hdec) hi
    (by rw [h.pos_eq, h.container.par, (h.latched rfl).1]; exact hfit)
  rw [h.container.par] at hstep hpos
  obtain ⟨hlatch, hw, ha, hm⟩ := latch_frame c.par.table i (s.setWindow x l n r)
  obtain ⟨t, hrun, ht⟩ := hk _ (h.of_step hstep (latch_phase hi _ _)
    (by rw [hlatch, hpos, h.pos_eq]) hw ha hm)
  exact ⟨t, .consSymbol h.at_phase.phase hstep hrun, ht⟩

/-- The call has ended as `decompress` says: with the output in OMEM and zeros above it, or with the
exception. -/
def HaltsWith (c : State) : CallResult → State → Prop
  | .done out, t => t.phase = .terminate ∧ t.errcode = 0 ∧ t.wridx.toNat = out.length ∧
      t.osize = c.imem.readWord 8 ∧ ∀ j, j < t.osize.toNat → t.omem.read j = out.getD j 0
  | .failed e, t => FailedWith e t
  | .refused _, _ => False
  | .outOfFuel, _ => False

/-- `END` leaves the output in OMEM (R150, R196). -/
theorem Represents.end_halts {p : BitVec 2} {xa : Word} {sr : BitVec 4} {xb : Word}
    (h : Represents c .readSymbol pos out s)
    (hdec : Sys2Proof.decode c.par.table (c.windowAt pos) = .ok (.endSym p xa sr xb)) :
    ∃ t, BusyRun 1 1 s t ∧ HaltsWith c (.done out) t := by
  obtain ⟨t, hstep⟩ := h.at_phase.exists_step (by decide)
  have hexec := stepRunsDecodedSymbol s _ h.at_phase.phase h.at_phase.no_moves h.at_phase.good_table
    (h.decode_eq hdec)
  have hphase : t.phase = .terminate := execEnd_phase (hexec.symm.trans hstep)
  obtain ⟨ht, hbytes, hzeros, _⟩ := terminateLeavesResult s t h.at_phase.inv h.at_phase.no_moves
    (by rw [h.at_phase.phase]; decide) hstep hphase
  have hinv := stepKeepsEngineInv s t h.at_phase.inv hstep
  have hwridx : t.wridx.toNat = out.length := by
    rw [ht]
    exact h.length_eq
  have hosize : t.osize = s.osize := by rw [ht]
  refine ⟨t, .consSymbol h.at_phase.phase hstep (.refl t), hphase, hinv.no_error (by simp [hphase]), hwridx,
    hosize.trans (h.latched rfl).2, fun j hj => ?_⟩
  by_cases hout : j < out.length
  · rw [hbytes j (h.length_eq ▸ hout), h.byte_eq j hout]
  · rw [hzeros j (by rw [h.length_eq]; omega) (hosize ▸ hj), List.getD_eq_default _ _ (by omega)]

/-- The loop of the engine ends as the loop of `decompress` does, with one `READ_SYMBOL` step for each unit of
fuel at most; each symbol takes 7 bits or more of the stream, so the fuel does not run out (R199, R201). -/
theorem decodeLoop_halts (hw : wfTable c.par.table = true) (fuel pos : Nat) (out : List Byte)
    (hfuel : 32 * (c.inLen.toNat / 4 - 5) < pos + 7 * fuel) :
    ∃ k d, d ≤ fuel ∧ ∀ s, Represents c .readSymbol pos out s → ∃ t, BusyRun k d s t ∧
      HaltsWith c (decodeLoop c (c.inLen.toNat / 4) (c.imem.readWord 8).toNat fuel pos out) t := by
  induction fuel generalizing pos out with
  | zero =>
    refine ⟨0, 0, le_rfl, fun s h => ?_⟩
    have hle := (h.decode rfl).window.streamPos_le
    rw [h.pos_eq, (h.latched rfl).1] at hle
    omega
  | succ fuel ih =>
    obtain ⟨i, hdec⟩ := decode_ok hw (c.windowAt pos)
    obtain ⟨p, xa, sr, xb, rfl⟩ | hi := endSym_or_ne i
    · rw [decodeLoop_of_endSym hdec]
      exact ⟨1, 1, by omega, fun s h => h.end_halts hdec⟩
    by_cases hover : 32 * (c.inLen.toNat / 4 - 5) < pos + symbolLength c.par.table i
    · rw [decodeLoop_of_payloadOverrun hdec hi hover]
      refine ⟨1, 1, by omega, fun s h => ?_⟩
      have hstep := h.at_phase.step_payloadOverrun (h.decode_eq hdec) hi
        (by rw [h.pos_eq, h.container.par, (h.latched rfl).1]; exact hover)
      exact ⟨_, .consSymbol h.at_phase.phase hstep (.refl _), rfl, rfl⟩
    obtain ⟨k, hk⟩ := symbol_runs (out := out) hi hdec (Nat.not_lt.mp hover)
    rw [decodeLoop_of_symbol hdec hi (Nat.not_lt.mp hover)]
    cases happend : appendSymbol c.par.table (c.imem.readWord 8).toNat i out with
    | error e =>
      refine ⟨k, 1, by omega, fun s h => ?_⟩
      obtain ⟨t, hrun, ht⟩ := hk s h
      rw [happend] at ht
      exact ⟨t, hrun, ht⟩
    | ok out' =>
      have hlen := (symbolLength_bounds hw i).1
      obtain ⟨m, d, hd, hm⟩ := ih (pos + symbolLength c.par.table i) out' (by omega)
      refine ⟨k + m, 1 + d, by omega, fun s h => ?_⟩
      obtain ⟨t, hrun, ht⟩ := hk s h
      rw [happend] at ht
      obtain ⟨u, hrun', hu⟩ := hm t ht
      exact ⟨u, hrun.trans hrun', hu⟩

/-! ### The call -/

/-- The engine is about to validate `c`'s container. -/
structure CallStarts (c s : State) : Prop where
  inv : EngineInv s
  phase : s.phase = .validate
  no_moves : s.hostMoves = []
  container : SameContainer c s

theorem SameContainer.failsAt {e : FormatDetail} (h : SameContainer c s) (he : Machine.failsAt c e) :
    Machine.failsAt s e := by
  cases e <;> simpa only [Machine.failsAt, h.imem, h.inLen, h.par] using he

theorem SameContainer.checksPass (h : SameContainer c s) (hc : ChecksPass c) : ChecksPass s where
  aligned := h.inLen ▸ hc.aligned
  words := h.inLen ▸ hc.words
  head := h.imem ▸ h.par ▸ hc.head
  tail := h.imem ▸ h.inLen ▸ h.par ▸ hc.tail

theorem CallStarts.step_eq (h : CallStarts c s) (hw : wfTable c.par.table = true) :
    step s = validateStep s :=
  step_validate h.phase h.no_moves (h.container.par ▸ hw)

/-- With every check passed and a size that OMEM holds, `VALIDATE` and `PREPARE` lead to the first symbol. -/
theorem CallStarts.reaches_loop (h : CallStarts c s) (hw : wfTable c.par.table = true)
    (hin : c.inLen.toNat ≤ c.par.inCap) (hc : ChecksPass c)
    (hout : (c.imem.readWord 8).toNat ≤ c.par.outCap) :
    ∃ t, BusyRun 2 0 s t ∧ Represents c .readSymbol 0 [] t := by
  have hc' := h.container.checksPass hc
  have hwords := hc'.words
  rw [← h.container.inLen, ← h.container.par] at hin
  rw [← h.container.imem, ← h.container.par] at hout
  have hstep := h.step_eq hw
  rw [validateStep_of_checksPass hin hc', if_neg (Nat.not_lt.mpr hout)] at hstep
  have hat : EngineAt .validate s := ⟨h.inv, h.phase, h.no_moves, h.container.par ▸ hw⟩
  have hprep : EngineAt .prepare _ := hat.of_step hstep rfl
  have hstep' := step_prepare rfl hprep.no_moves hprep.good_table (le_trans (by omega) hin) hout
  refine ⟨_, .cons h.phase rfl (by decide) hstep (.cons (p := .prepare) rfl rfl (by decide) hstep' (.refl _)),
    hprep.of_step hstep' rfl, ?_, prepared_streamPos _, rfl, fun j hj => absurd hj (Nat.not_lt_zero j)⟩
  exact (h.container.of_step h.no_moves hstep).of_step hprep.no_moves hstep'

/-- A call is refused at `VALIDATE` and so is `decompress`, or it halts as `decompress` says, after a number of
steps that the container alone determines (R199, R201, R204). -/
theorem call_outcome (c : State) :
    (∃ r, decompress c = .refused r ∧ ∀ s, CallStarts c s → step s = .refused r) ∨
      ∃ k d, d ≤ decodeBound (c.inLen.toNat / 4) ∧ ∀ s, CallStarts c s →
        ∃ t, BusyRun k d s t ∧ HaltsWith c (decompress c) t := by
  by_cases hw : wfTable c.par.table = true
  case neg =>
    refine .inl ⟨.tableNotWellFormed, if_pos hw, fun s h => ?_⟩
    rw [step_engine h.no_moves]
    unfold engineStep
    rw [h.phase]
    exact if_neg (h.container.par ▸ hw)
  by_cases hin : c.par.inCap < c.inLen.toNat
  · refine .inl ⟨.containerExceedsInCap, ?_, fun s h => ?_⟩
    · unfold decompress
      rw [if_neg (not_not.mpr hw), if_pos hin]
    · rw [h.step_eq hw, validateStep_of_tooLong (by rw [h.container.inLen, h.container.par]; exact hin)]
  rw [Nat.not_lt] at hin
  obtain ⟨e, he⟩ | hc := failsAt_or_checksPass c
  · rw [decompress_of_failsAt hw hin he]
    refine .inr ⟨1, 0, Nat.zero_le _, fun s h => ?_⟩
    have hstep := h.step_eq hw
    rw [validateStep_of_failsAt (by rw [h.container.inLen, h.container.par]; exact hin)
      (h.container.failsAt he)] at hstep
    exact ⟨_, .cons h.phase rfl (by decide) hstep (.refl _), rfl, rfl⟩
  rw [decompress_of_checksPass hw hin hc]
  by_cases hout : c.par.outCap < (c.imem.readWord 8).toNat
  · rw [if_pos hout]
    refine .inl ⟨.outputExceedsOutCap, rfl, fun s h => ?_⟩
    rw [h.step_eq hw, validateStep_of_checksPass (by rw [h.container.inLen, h.container.par]; exact hin)
      (h.container.checksPass hc), if_pos (by rw [h.container.imem, h.container.par]; exact hout)]
  · rw [if_neg hout]
    obtain ⟨k, d, hd, hk⟩ := decodeLoop_halts hw (decodeBound (c.inLen.toNat / 4)) 0 []
      (by unfold decodeBound; omega)
    refine .inr ⟨2 + k, 0 + d, by omega, fun s h => ?_⟩
    obtain ⟨t, hrun, ht⟩ := h.reaches_loop hw hin hc (Nat.not_lt.mp hout)
    obtain ⟨u, hrun', hu⟩ := hk t ht
    exact ⟨u, hrun.trans hrun', hu⟩

/-- A call that ends as `decompress` says is halted. -/
theorem HaltsWith.phase_cases {r : CallResult} (h : HaltsWith c r t) : t.phase = .terminate ∨ t.phase = .error := by
  cases r with
  | done out => exact .inl h.1
  | failed e => exact .inr h.1
  | refused | outOfFuel => exact h.elim

/-- Two calls that end with one result show the host the same (R204). -/
theorem HaltsWith.alike {r : CallResult} (h : HaltsWith c r t) (h' : HaltsWith c r u) :
    u.phase = t.phase ∧ u.errcode = t.errcode ∧
      (t.phase = .terminate → u.wridx = t.wridx ∧ u.osize = t.osize ∧
        ∀ j, j < t.osize.toNat → u.omem.read j = t.omem.read j) := by
  cases r with
  | done out =>
    obtain ⟨hphase, herr, hwridx, hosize, hbytes⟩ := h
    obtain ⟨hphase', herr', hwridx', hosize', hbytes'⟩ := h'
    have hsize : u.osize = t.osize := hosize'.trans hosize.symm
    exact ⟨hphase'.trans hphase.symm, herr'.trans herr.symm, fun _ =>
      ⟨BitVec.eq_of_toNat_eq (hwridx'.trans hwridx.symm), hsize,
        fun j hj => (hbytes' j (hsize ▸ hj)).trans (hbytes j hj).symm⟩⟩
  | failed e =>
    obtain ⟨hphase, herr⟩ := h
    obtain ⟨hphase', herr'⟩ := h'
    exact ⟨hphase'.trans hphase.symm, herr'.trans herr.symm, fun hp => by simp [hphase] at hp⟩
  | refused | outOfFuel => exact h.elim

theorem SameContainer.refl (s : State) : SameContainer s s := ⟨rfl, rfl, rfl⟩

end

/-- Settles O37: the call is not refused, so it halts within the fuel of `decompress`. -/
theorem everyCallHalts : Obligations.EveryCallHalts := by
  intro s hinv hp hm hw hin hout
  have hstart : CallStarts s s := ⟨hinv, hp, hm, .refl s⟩
  obtain ⟨r, _, hrefused⟩ | ⟨k, d, hd, hk⟩ := call_outcome s
  · obtain ⟨_, hbad⟩ | ⟨_, _, hbad⟩ | ⟨_, _, hbad⟩ :=
      (engineNeverFaults s hinv hm).2 r (hrefused s hstart)
    · exact absurd hw (by simp [hbad])
    · omega
    · omega
  · obtain ⟨t, hrun, ht⟩ := hk s hstart
    exact ⟨k, t, hrun.toRuns, ht.phase_cases, hrun.symbolSteps_eq ▸ hd⟩

/-- Settles O38, by `call_outcome`. -/
theorem callComputesDecompress : Obligations.CallComputesDecompress := by
  intro s hinv hp hm
  have hstart : CallStarts s s := ⟨hinv, hp, hm, .refl s⟩
  obtain ⟨r, hr, hrefused⟩ | ⟨k, d, _, hk⟩ := call_outcome s
  · rw [hr]
    exact ⟨0, s, rfl, hrefused s hstart⟩
  · obtain ⟨t, hrun, ht⟩ := hk s hstart
    cases hr : decompress s with
    | done out =>
      rw [hr] at ht
      obtain ⟨hphase, _, hwridx, hosize, hbytes⟩ := ht
      exact ⟨k, t, hrun.toRuns, hphase, hwridx, hosize, hbytes⟩
    | failed e =>
      rw [hr] at ht
      exact ⟨k, t, hrun.toRuns, ht⟩
    | refused | outOfFuel =>
      rw [hr] at ht
      exact ht.elim

/-- Settles O39: both calls halt as `decompress` says of the one container, after the same number of steps, and
then stand still. -/
theorem noStatePersists : Obligations.NoStatePersists := by
  intro s s' t k hinv hinv' hp hp' hm hm' himem hlen hpar hruns ht
  have hstart : CallStarts s s := ⟨hinv, hp, hm, .refl s⟩
  have hstart' : CallStarts s s' := ⟨hinv', hp', hm', himem, hlen, hpar⟩
  obtain ⟨r, _, hrefused⟩ | ⟨n, d, _, hn⟩ := call_outcome s
  · cases k with
    | zero =>
      obtain rfl : s = t := hruns
      rcases ht with ht | ht <;> exact nomatch hp.symm.trans ht
    | succ k =>
      obtain ⟨u, hu, _⟩ := hruns
      exact nomatch (hrefused s hstart).symm.trans hu
  · obtain ⟨v, hrun, hv⟩ := hn s hstart
    obtain ⟨v', hrun', hv'⟩ := hn s' hstart'
    obtain ⟨hle, rfl⟩ := hrun.eq_of_runs (.inr hv.phase_cases) (hrun.no_moves hm) hruns (.inr ht)
    have hstay : runs (k - n) v' v' := (runs_of_halted (.inr hv'.phase_cases) (hrun'.no_moves hm')).mpr rfl
    have hruns' := runs_trans hrun'.toRuns hstay
    rw [Nat.add_sub_cancel' hle] at hruns'
    exact ⟨v', hruns', hv.alike hv'⟩

end Sys2Proof.Safety

/-! ## The accesses of the host: `START`, and the memories byte by byte (R192, R203) -/

namespace Sys2Proof.Machine

section
variable {s : State} {sp : Space} {a i no : Nat} {b : Byte} {v : Word} {rest : List HostMove} {r : HostReg}

/-- A write of `CTRL` is `START` or nothing (R33, R192). -/
theorem writeReg_ctrl (v : Word) (s : State) :
    writeReg .ctrl v s =
      if v.getLsbD 0 = true ∧ (s.phase = .idle ∨ s.phase = .terminate ∨ s.phase = .error) then start s
      else s := by
  refine if_congr ?_ rfl rfl
  rw [Bool.and_eq_true, Bool.not_eq_true', not_busy_iff, Safety.halted]

/-! ### An access of a busy engine's memories -/

/-- While the engine is busy no memory access has a meaning, whatever it would do (R203, U9). -/
theorem hostAccess_of_busy {width : Nat} (t : State) (hb : s.busy = true) :
    hostAccess sp a width s t = .refused .hostMemoryAccessWhileBusy := if_pos hb

/-! ### Reads the spec leaves open -/

theorem done_eq_false (hp : s.phase ≠ .terminate) : s.done = false := by
  rw [← Bool.not_eq_true, done_iff]
  exact hp

theorem failed_eq_false (hp : s.phase ≠ .error) : s.failed = false := by
  rw [← Bool.not_eq_true, failed_iff]
  exact hp

/-- While the engine is busy the spec gives the value of `STATUS` only (R203, U3, log 7). -/
theorem readSpecified_of_busy (hr : r ≠ .status) (hb : s.busy = true) : readSpecified r s = false := by
  have hdone : s.done = false := done_eq_false fun hp => by simp [State.busy, hp, Phase.busy] at hb
  have hfailed : s.failed = false := failed_eq_false fun hp => by simp [State.busy, hp, Phase.busy] at hb
  cases r with
  | status => exact absurd rfl hr
  | ctrl | inLen | errcode => exact congrArg not hb
  | outSize => simp [readSpecified, hdone, hfailed]
  | outLen => exact hdone

/-- The step that reads a register of which the spec leaves the value open (U3, log 6). -/
theorem step_readReg_free (h : s.hostMoves = .readReg no :: rest) (hr : hostReg? no = some r)
    (hs : readSpecified r s = false) :
    step s = .next { s with
      hostData := Config.unspecifiedRead s.freeIdx, freeIdx := s.freeIdx + 1, hostMoves := rest } := by
  have hread : readReg r (s.setHostMoves rest) = returnFree (s.setHostMoves rest) := by
    have hs' : readSpecified r (s.setHostMoves rest) = false := by cases r <;> exact hs
    exact if_neg (by simp [hs'])
  rw [step_host h (by simp)]
  simp only [hostMove, hr, hread]
  rfl

/-! ### Reads and stores of a memory -/

/-- The step that reads a byte of a memory. -/
theorem step_readMemByte (h : s.hostMoves = .readByte sp a :: rest) (hb : s.busy = false)
    (hc : a < capOf sp s) : step s = .next (readMemByte sp a (s.setHostMoves rest)) := by
  rw [step_host h (by simp)]
  cases sp <;> exact hostAccess_ok _ hb hc

/-- The step that reads a word of a memory, whichever of its bytes the spec leaves open. -/
theorem step_readMemWord (h : s.hostMoves = .readWord sp i :: rest) (hb : s.busy = false)
    (hc : 4 * i + 4 ≤ capOf sp s) : step s = .next (readMemWord sp (4 * i) (s.setHostMoves rest)) := by
  rw [step_host h (by simp)]
  cases sp <;> exact hostAccess_ok _ hb hc

/-- The step that writes a byte of a memory. -/
theorem step_writeByte (h : s.hostMoves = .writeByte sp a b :: rest) (hb : s.busy = false)
    (hc : a < capOf sp s) :
    step s = .next (storeMem sp a 1 ((memOf sp s).write a b) (s.setHostMoves rest)) := by
  rw [step_host h (by simp)]
  cases sp <;> exact hostAccess_ok _ hb hc

/-- The step that reads a byte the spec does not leave open. -/
theorem step_readByte (h : s.hostMoves = .readByte sp a :: rest) (hb : s.busy = false)
    (hc : a < capOf sp s) (hopen : byteIsOpen sp a s = false) :
    step s = .next { s with hostData := ((memOf sp s).read a).setWidth 32, hostMoves := rest } := by
  rw [step_readMemByte h hb hc, readMemByte_stands (by cases sp <;> exact hopen)]
  cases sp <;> rfl

/-- Outside `ERROR`, and where the host has stored, a byte of OMEM reads as it stands (R203, logs 23, 25). -/
theorem byteIsOpen_omem_eq_false (h : s.phase = .error → a ∈ s.errStores) :
    byteIsOpen .omem a s = false := by
  rw [← Bool.not_eq_true, byteIsOpen_iff, failed_iff]
  rintro ⟨-, hp, hnot⟩
  exact hnot (h hp)

/-- In `ERROR` a byte of OMEM the host has not stored reads as any value (R197, U4). -/
theorem byteIsOpen_omem (hp : s.phase = .error) (hnot : a ∉ s.errStores) : byteIsOpen .omem a s = true :=
  (byteIsOpen_iff ..).mpr ⟨rfl, (failed_iff s).mpr hp, hnot⟩

theorem byteOf_eq_setWidth (v : Word) : byteOf v 0 = v.setWidth 8 :=
  (BitVec.setWidth_eq_extractLsb' (by omega)).symm

/-- Byte `k` of a word read of OMEM in `ERROR`: the host's own byte, or a byte of the free word. -/
theorem hostByte_of_error (hp : s.phase = .error) (k : Nat) :
    hostByte .omem a k s =
      if a + k ∈ s.errStores then s.omem.read (a + k) else byteOf (Config.unspecifiedRead s.freeIdx) k := by
  by_cases hmem : a + k ∈ s.errStores
  · rw [if_pos hmem, hostByte_stands (byteIsOpen_omem_eq_false fun _ => hmem)]
    rfl
  · rw [if_neg hmem, hostByte_open (byteIsOpen_omem hp hmem)]

end

/-- Settles O23: the write of `CTRL` is `START` exactly when the engine is halted and bit 0 is set. -/
theorem startCommand : Obligations.StartCommand := by
  intro s v rest h
  rw [step_writeReg h (r := .ctrl) rfl, writeReg_ctrl]
  split
  next hstart => exact ⟨[], congrArg Host.Outcome.next (if_pos hstart)⟩
  next hnot => exact congrArg Host.Outcome.next (if_neg hnot)

/-- Settles O44: each of the four moves is an access that a busy engine refuses. -/
theorem hostMemoryRefusedWhileBusy : Obligations.HostMemoryRefusedWhileBusy := by
  intro s sp a b v rest hb h
  rcases h with h | h | h | h <;>
    · rw [step_host h (by simp)]
      exact hostAccess_of_busy _ hb

/-- Settles O45: register by register, then a byte and a word of OMEM in `ERROR`. -/
theorem unspecifiedReadsAreFree : Obligations.UnspecifiedReadsAreFree := by
  intro s no a rest
  refine ⟨fun h hopen => ?_, fun h hc hp hnot => ?_, fun h hc hp hfree => ?_⟩
  · rcases hopen with ⟨hno, hb⟩ | ⟨hno, hp⟩ | ⟨rfl, hp⟩ | ⟨rfl, hp, hclass⟩
    · rcases hno with rfl | rfl | rfl | rfl | rfl
      · exact step_readReg_free h (r := .ctrl) rfl (readSpecified_of_busy nofun hb)
      · exact step_readReg_free h (r := .inLen) rfl (readSpecified_of_busy nofun hb)
      · exact step_readReg_free h (r := .outSize) rfl (readSpecified_of_busy nofun hb)
      · exact step_readReg_free h (r := .outLen) rfl (readSpecified_of_busy nofun hb)
      · exact step_readReg_free h (r := .errcode) rfl (readSpecified_of_busy nofun hb)
    · have hdone : s.done = false := done_eq_false (by simp [hp])
      have hfailed : s.failed = false := failed_eq_false (by simp [hp])
      rcases hno with rfl | rfl
      · exact step_readReg_free h (r := .outSize) rfl (by simp [readSpecified, hdone, hfailed])
      · exact step_readReg_free h (r := .outLen) rfl hdone
    · exact step_readReg_free h (r := .outLen) rfl (done_eq_false (by simp [hp]))
    · have hdone : s.done = false := done_eq_false (by simp [hp])
      exact step_readReg_free h (r := .outSize) rfl (by simp [readSpecified, hdone, errClass, hclass])
  · have hopen : byteIsOpen .omem (a + 0) (s.setHostMoves rest) = true := byteIsOpen_omem hp hnot
    rw [step_readMemByte h ((not_busy_iff s).mpr (.inr (.inr hp))) hc, readMemByte, hostByte_open hopen,
      freeAfterRead_counts Nat.one_pos hopen, byteOf_eq_setWidth]
    rfl
  · obtain ⟨k, hk, hnot⟩ := hfree
    have hopen : byteIsOpen .omem (4 * a + k) (s.setHostMoves rest) = true := byteIsOpen_omem hp hnot
    have hcount : freeAfterRead .omem (4 * a) 4 (s.setHostMoves rest) = s.freeIdx + 1 :=
      freeAfterRead_counts hk hopen
    have hstep := step_readMemWord h ((not_busy_iff s).mpr (.inr (.inr hp))) hc
    refine ⟨(readMemWord .omem (4 * a) (s.setHostMoves rest)).hostData, ?_, fun j hj => ?_⟩
    · rw [hstep, readMemWord, hcount]
      rfl
    · exact (byteOf_readMemWord .omem (4 * a) j hj (s.setHostMoves rest)).trans
        (hostByte_of_error (s := s.setHostMoves rest) hp j)

/-- Settles O46: a byte the spec does not leave open reads as it stands, and so do the four of a word. -/
theorem hostReadsResult : Obligations.HostReadsResult := by
  intro s rest a hb
  refine ⟨fun h hc => step_readByte h hb hc rfl, fun h hc => ?_,
    fun h hc hown => step_readByte h hb hc (byteIsOpen_omem_eq_false hown), fun h hc hown => ?_⟩
  · exact ⟨_, step_readWord h hb hc fun _ _ => rfl, Memory.toNat_readWord ..⟩
  · exact ⟨_, step_readWord h hb hc fun k hk => byteIsOpen_omem_eq_false fun hp => hown hp k hk,
      Memory.toNat_readWord ..⟩

/-- Settles O49, by a read after a write and what a store notes. -/
theorem hostByteStores : Obligations.HostByteStores := by
  intro s a b rest hb
  refine ⟨fun w h hc => ?_, fun w h hc => ?_⟩
  · refine ⟨s.imem.write a b, step_writeByte h hb hc, Memory.wf_write w a b, fun j => ?_⟩
    rw [Memory.read_write w, if_congr eq_comm rfl rfl]
  · have hstep := step_writeByte h hb hc
    obtain ⟨hsp, _⟩ | ⟨_, l, hstays, hnoted, hstore⟩ := storeMem_cases .omem a 1
      (s.omem.write a b) (s.setHostMoves rest)
    · exact nomatch hsp
    · rw [memOf, hstore] at hstep
      refine ⟨s.omem.write a b, l, hstep, Memory.wf_write w a b, fun j => ?_,
        fun hp => hstays (failed_eq_false hp), fun x => ?_⟩
      · rw [Memory.read_write w, if_congr eq_comm rfl rfl]
      · rw [hnoted x, failed_iff, Nat.lt_succ_iff, ← Nat.le_antisymm_iff, eq_comm (a := a)]
        rfl

end Sys2Proof.Machine

/-! ## Taking an exception (R222, R226) -/

namespace Sys2Proof.Safety

open Sys2Proof.Machine

/-- The one move that enters `ERROR` is trap entry, from the state before the step (R191, R226). -/
theorem EngineMove.trapped_of_error {s t : State} (hm : EngineMove s t) (hs : s.phase ≠ .error)
    (ht : t.phase = .error) : ∃ e : Exc, t = trapped e s := by
  cases hm with
  | trap e => exact ⟨e, rfl⟩
  | stay => exact absurd ht hs
  | latch | prepare | lit | finish | emitLit | leave => exact nomatch ht
  | coded _ _ _ _ q _ _ hq => rcases hq with rfl | ⟨rfl, _⟩ <;> exact nomatch ht
  | emitByte _ b u hu => exact absurd ((emit_phase hu).symm.trans ht) hs

/-- Settles O28: without a host move the step is a move of the engine, and trap entry is the one that enters
`ERROR`. -/
theorem faultingStepChangesErrorOnly : Obligations.FaultingStepChangesErrorOnly := by
  intro s t hmoves hs hstep ht
  have hm : EngineMove s t := engineStep_move (step_engine hmoves ▸ hstep)
  exact hm.trapped_of_error hs ht

/-- Settles O14: under `WF_TABLE` the length is in `Consume`'s range, so the bound check decides. -/
theorem symbolPayloadOverrun : Obligations.SymbolPayloadOverrun := by
  intro i s hw hi hcnt hlast
  obtain ⟨h7, h32⟩ := symbolLength_bounds hw i
  have ho : consume (symbolLength s.par.table i) s = raiseCorrupt .payloadOverrun :=
    consume_overrun (by omega) h32 hcnt hlast
  exact exec_of_overrun hi ho

end Sys2Proof.Safety

/-! ## Hardware reset (R250) -/

namespace Sys2Proof.Machine

/-- An idle engine sets no flag, and `IDLE` is number 0 (R31, R34). -/
theorem status_eq_zero_of_idle {s : State} (hp : s.phase = .idle) : s.status = 0 := by
  have hbusy : s.busy = false := congrArg Phase.busy hp
  have hdone : s.done = false := decide_eq_false (by simp [hp])
  have hfailed : s.failed = false := decide_eq_false (by simp [hp])
  have hmismatch : s.mismatch = false := by simp [State.mismatch, hdone]
  apply BitVec.eq_of_toNat_eq
  simp [status_toNat, hbusy, hdone, hfailed, hmismatch, hp, Phase.bits]

/-- The step that resets the hardware. -/
theorem step_reset {s : State} {rest : List HostMove} (h : s.hostMoves = .reset :: rest) :
    step s = .next (hardwareReset (s.setHostMoves rest)) :=
  step_host h (by simp)

/-- Settles O47: `STATUS` reads 0 because the phase after the move is `IDLE`. -/
theorem hardwareResetMove : Obligations.HardwareResetMove := by
  intro s rest h
  obtain ⟨hphase, herrcode, hinLen, _⟩ := resetRegisters
  exact ⟨hardwareReset (s.setHostMoves rest), step_reset h, hphase, herrcode, hinLen,
    status_eq_zero_of_idle hphase, rfl, rfl⟩

end Sys2Proof.Machine

/-! ## The decoder vectors of the spec (section 4 of 95_test_vectors.md) -/

namespace Sys2Proof

/-- Settles O6, by `decode_eq_ok_iff`: each listed symbol is one of `TEST_TABLE`'s and its window begins with
its number. Only that much is computed; the window bits above the symbol do not matter. -/
theorem specWindowsDecode : Obligations.SpecWindowsDecode :=
  have hlit : decode Config.testTable 0xCA190882 = .ok (.lit 0x41) :=
    decode_eq_ok_iff.mpr ⟨by decide, by decide⟩
  have hrun : decode Config.testTable 0x0000F20D = .ok (.run 2 1 0 0) :=
    decode_eq_ok_iff.mpr ⟨by decide, by decide⟩
  have hcopy : decode Config.testTable 0x00055CFF = .ok (.copy 3 15 9 171) :=
    decode_eq_ok_iff.mpr ⟨by decide, by decide⟩
  have hlargestCopy : decode Config.testTable 0x00AA01D3 = .ok (.copy 1 0 13 43521) :=
    decode_eq_ok_iff.mpr ⟨by decide, by decide⟩
  have hleastEnd : decode Config.testTable 0x00AA02D3 = .ok (.endSym 1 0 13 43522) :=
    decode_eq_ok_iff.mpr ⟨by decide, by decide⟩
  ⟨hlit, hrun, hcopy, hlargestCopy, hleastEnd⟩

end Sys2Proof
